-- ==== Sys2Proof/Word.lean ====
section
/-! DEFINITION. The data word of the block and the format `F` (spec/00_scope.md R6, R9). -/

namespace Sys2Proof

/-- A 32-bit word: a command word, an operand word, a response word (R6, R71). -/
abbrev Word := BitVec 32

/-- An `F` value, held as its IEEE 754 binary32 bit pattern: 1 sign bit, 8 exponent bits,
23 fraction bits (R6). Moving one keeps every bit; the arithmetic is in Machine/Arith.lean. -/
abbrev F := BitVec 32

end Sys2Proof
end

