-- ==== Sys2Proof/Config.lean ====
section
/-! DEFINITION. What a build of the block fixes (spec/00_scope.md R7, R8) and the free values:
constants with no body, for what the spec leaves open (spec/93_implementation_defined.md). -/

namespace Sys2Proof

/-- The parameters of a build that R8 leaves open and that are plain numbers: how many instances each unit
type has, and the physical words of every delay-line RAM. They are no state of the block
(spec/10_state.md R33); a machine state carries them as data, so that one `step` serves every build
(log entry 8). -/
structure Build where
  nPH : Nat
  nCY : Nat
  nHI : Nat
  nDE : Nat
  nOP : Nat
  nSL : Nat
  nDL : Nat
  nKS : Nat
  nFDN : Nat
  capMax : Nat
deriving DecidableEq, Repr

/-- The values R8 takes: one instance of each unit, 65536 words. -/
def Config.build : Build :=
  { nPH := 1, nCY := 1, nHI := 1, nDE := 1, nOP := 1, nSL := 1, nDL := 1, nKS := 1, nFDN := 1, capMax := 65536 }

/-- Channels of a reverberator (R7). -/
def Config.fdnN : Nat := 5
/-- Entries of the sine ROM (R7). -/
def Config.tblLen : Nat := 4096

/-- The free value of a draw: the word that the environment supplies at one place (`site`) of one
command (`command`, a number no two commands share). Nothing constrains it
(spec/93_implementation_defined.md U1, U2; log entries 1, 2, 3 and 9). -/
opaque Config.freeWord (command : Nat) (site : List Nat) : BitVec 32

/-- Which of the two roundings of the enclosure the default `fexp` takes at an operand whose
enclosure does not decide it: free (log entry 6). -/
opaque Config.expRoundsUp (x : BitVec 32) : Bool

/-- The same for the default `fpow`, where its real value is not itself a tie (log entry 6). -/
opaque Config.powRoundsUp (b e : BitVec 32) : Bool

/-- `fpow` where the real power has no value, and the sign of the zero it gives at a base of `-0`: free
(log entry 7). No command asks for either. -/
opaque Config.powElsewhere (b e : BitVec 32) : BitVec 32

end Sys2Proof
end

