-- ==== Sys2Proof/Machine/Arith.lean ====
section
/-! DEFINITION. The arithmetic of `F` (spec/00_scope.md R6, R11 to R14): IEEE 754 binary32, each
operation computed exactly in integers and rounded once to nearest, ties to even. Every finite `F`
value is an integer number of UNITS of 2^-149, the least positive value. -/

namespace Sys2Proof.Machine

/-- The name of one free value: the command that asks for it and the place in that command's rule. -/
structure Draw where
  command : Nat
  site : List Nat
deriving DecidableEq, Repr

/-- A further place below this one. -/
def Draw.sub (q : Draw) (n : Nat) : Draw := ⟨q.command, n :: q.site⟩

/-- The free word at this place. -/
def Draw.word (q : Draw) : F := Config.freeWord q.command q.site

/-! ### Bit patterns (R6) -/

/-- The sign bit. -/
def fSign (x : F) : Bool := x.msb

/-- The other 31 bits: exponent and fraction, which order the magnitudes. -/
def fMag (x : F) : Nat := x.toNat % 2 ^ 31

/-- The word with this sign and these 31 bits. -/
def fPack (neg : Bool) (mag : Nat) : F := BitVec.ofNat 32 ((if neg then 2 ^ 31 else 0) + mag)

/-- The 31 bits of an infinity: exponent 255, fraction 0. -/
def infMag : Nat := 0x7F800000

/-- `x` is a NaN. -/
def fIsNaN (x : F) : Bool := decide (infMag < fMag x)

/-- `x` is an infinity. -/
def fIsInf (x : F) : Bool := decide (fMag x = infMag)

/-- `isFinite(x)` (R12): neither an infinity nor a NaN. -/
def fIsFinite (x : F) : Bool := decide (fMag x < infMag)

/-- `x` is `+0` or `-0`. -/
def fIsZero (x : F) : Bool := decide (fMag x = 0)

/-! ### Named constants (R13) -/

/-- `+0`. -/
def fZero : F := 0x00000000#32
/-- `ONE`. -/
def fOne : F := 0x3F800000#32
/-- `HALF`. -/
def fHalf : F := 0x3F000000#32
/-- `TWO_PI`. -/
def fTwoPi : F := 0x40C90FDB#32
/-- `DRY`. -/
def fDry : F := 0x3DCCCCCD#32
/-- `DB60`. -/
def fDb60 : F := 0x3A83126F#32
/-- `TBLLEN_F`. -/
def fTblLen : F := 0x45800000#32
/-- `+inf`. -/
def fPosInf : F := fPack false infMag

/-! ### Values in units of 2^-149 -/

/-- The magnitude of a finite value, in units: a subnormal's fraction, or the 24-bit significand
shifted by the exponent. -/
def magUnits (m : Nat) : Nat :=
  if m / 2 ^ 23 = 0 then m else (2 ^ 23 + m % 2 ^ 23) * 2 ^ (m / 2 ^ 23 - 1)

/-- A finite value, in units. -/
def fUnits (x : F) : Int :=
  if fSign x then -(magUnits (fMag x) : Int) else (magUnits (fMag x) : Int)

/-- `n / d` rounded to the nearest integer, ties to even. -/
def roundHalfEven (n d : Nat) : Nat :=
  if d < 2 * (n % d) ∨ (d = 2 * (n % d) ∧ n / d % 2 = 1) then n / d + 1 else n / d

/-- The 31 bits nearest to the magnitude of `n / d` units, ties to even; an overflow is the infinity
(R11). `n / d` keeps 24 significant bits: the last place is `2 ^ shift` units. -/
def roundMag (n d : Nat) : Nat :=
  let shift := Nat.log2 (n / d) - 23
  min (shift * 2 ^ 23 + roundHalfEven n (d * 2 ^ shift)) infMag

/-! ### NaN results (R11; 93_implementation_defined.md U1) -/

/-- A NaN whose sign and payload are free: every NaN is some draw's (log entry 1). -/
def fNaN (q : Draw) : F := fPack (fSign q.word) (infMag + max 1 (q.word.toNat % 2 ^ 23))

/-! ### The operations (R11) -/

/-- Unary minus: flips the sign bit. -/
def fNeg (x : F) : F := x ^^^ 0x80000000#32

/-- The `F` value of an exact sum `u` of units that is not zero. -/
def fOfUnits (u : Int) : F := fPack (decide (u < 0)) (roundMag u.natAbs 1)

/-- `a + b`. An exact sum of zero is `+0`, but for `-0 + -0`. -/
def fAdd (q : Draw) (a b : F) : F :=
  if fIsNaN a || fIsNaN b then fNaN q
  else if fIsInf a then (if fIsInf b && (fSign a != fSign b) then fNaN q else a)
  else if fIsInf b then b
  else if fUnits a + fUnits b = 0 then fPack (fSign a && fSign b) 0
  else fOfUnits (fUnits a + fUnits b)

/-- `a - b`: the sum with the sign of `b` flipped. -/
def fSub (q : Draw) (a b : F) : F := fAdd q a (fNeg b)

/-- `a · b`. -/
def fMul (q : Draw) (a b : F) : F :=
  if fIsNaN a || fIsNaN b then fNaN q
  else if (fIsInf a && fIsZero b) || (fIsZero a && fIsInf b) then fNaN q
  else if fIsInf a || fIsInf b then fPack (fSign a != fSign b) infMag
  else fPack (fSign a != fSign b) (roundMag (magUnits (fMag a) * magUnits (fMag b)) (2 ^ 149))

/-- `a / b`, rounded once to nearest-even (R11), also where the increment that spec/95_test_vectors.md V-PH-5
gives is another (DEDUCED, log entry 18). -/
def fDiv (q : Draw) (a b : F) : F :=
  if fIsNaN a || fIsNaN b then fNaN q
  else if (fIsInf a && fIsInf b) || (fIsZero a && fIsZero b) then fNaN q
  else if fIsInf a || fIsZero b then fPack (fSign a != fSign b) infMag
  else if fIsInf b then fPack (fSign a != fSign b) 0
  else fPack (fSign a != fSign b) (roundMag (magUnits (fMag a) * 2 ^ 149) (magUnits (fMag b)))

/-! ### Integers and conversions (R12) -/

/-- `toF(n)` for an integer `n`, and the `F` value of any integer in range. -/
def fOfInt (n : Int) : F :=
  if n = 0 then fZero else fOfUnits (n * 2 ^ 149)

/-- `toF(n)` for a count. -/
def toF (n : Nat) : F := fOfInt n

/-- `floorZ(x)` for a finite `x`: the greatest integer not above `x`. -/
def floorZ (x : F) : Int := fUnits x / 2 ^ 149

/-- `ceilZ(x)` for a finite `x`: the least integer not below `x`. -/
def ceilZ (x : F) : Int := -(-(fUnits x) / 2 ^ 149)

/-- `floorF(x)`: zeros and infinities are themselves, a NaN gives a NaN. -/
def floorF (q : Draw) (x : F) : F :=
  if fIsNaN x then fNaN q
  else if fIsInf x || fIsZero x then x
  else fOfInt (floorZ x)

/-! ### Linear interpolation (R14) -/

/-- `lerp(a, b, t) = ((ONE - t) · a) + (t · b)`, four roundings in that order. -/
def lerp (q : Draw) (a b t : F) : F :=
  fAdd (q.sub 3) (fMul (q.sub 1) (fSub (q.sub 0) fOne t) a) (fMul (q.sub 2) t b)

end Sys2Proof.Machine
end

