-- ==== Sys2Proof/Machine/Flags.lean ====
section
/-! DEFINITION. The block has no flags (spec/10_state.md R22). What stands in their place: the IEEE
comparisons (spec/00_scope.md R11), which the acceptance predicates and the wraps are made of. -/

namespace Sys2Proof.Machine

/-- The place of a value that is not a NaN in the order of the `F` values; both zeros are at 0. -/
def fKey (x : F) : Int := if fSign x then -(fMag x : Int) else (fMag x : Int)

/-- `a < b`: false whenever an operand is a NaN (R11). -/
def fLt (a b : F) : Bool := !fIsNaN a && !fIsNaN b && decide (fKey a < fKey b)

/-- `a ≤ b`. -/
def fLe (a b : F) : Bool := !fIsNaN a && !fIsNaN b && decide (fKey a ≤ fKey b)

/-- `a > b`. -/
def fGt (a b : F) : Bool := fLt b a

/-- `a ≥ b`. -/
def fGe (a b : F) : Bool := fLe b a

/-- `a = b`: equal in value, `+0 = -0`. -/
def fEq (a b : F) : Bool := !fIsNaN a && !fIsNaN b && decide (fKey a = fKey b)

end Sys2Proof.Machine
end

