-- ==== Sys2Proof/Machine/Rom.lean ====
section
/-! DEFINITION. The shared sine ROM (spec/20_memory.md R52, R53): the binary32 nearest to
`sin(2π·k/4096)`. The first quarter is stored, 16 entries to a row, entry `16·r + c` in bits
`32·c+31 .. 32·c` of row `r`; the symmetries of R52 give the rest. The whole table has the CRC-32 and
the sum that R52 states (the sum is a theorem of Tests/Slice0.lean; log entry 10). -/

namespace Sys2Proof.Machine

/-- Entries 0 to 255 of the sine ROM. -/
def sineRows0 : List Nat := [
  0x3CBC7A9B3CAFEA693CA35A1C3C96C9B63C8A39383C7B514B3C622FFF3C490E903C2FED023C16CB583BFB53303BC90F883B96CBC13B490FC63AC90FD500000000,
  0x3D42B4913D3C6DD53D3626FC3D2FE0073D2998F63D2351CB3D1D0A883D16C32C3D107BB83D0A342F3D03EC903CFB49BA3CEEBA2C3CE22A7A3CD59AA63CC90AB0,
  0x3D9386E73D9064B43D8D426A3D8A200A3D86FD943D83DB0A3D80B86C3D7B2B743D74E5E93D6EA0383D685A623D6214693D5BCE4C3D55880E3D4F41AF3D48FB30,
  0x3DC59CC63DC27C393DBF5B8D3DBC3AC33DB919DD3DB5F8DA3DB2D7BB3DAFB6803DAC952B3DA973BA3DA652303DA3308C3DA00ECF3D9CECF93D99CB0A3D96A905,
  0x3DF7942C3DF475C03DF1572E3DEE38763DEB199A3DE7FA9A3DE4DB763DE1BC2E3DDE9CC43DDB7D373DD85D893DD53DB93DD21DC83DCEFDB73DCBDD863DC8BD36,
  0x3E14B2B23E1324CA3E1196CC3E1008B73E0E7A8B3E0CEC4A3E0B5DF33E09CF863E0841053E06B26E3E0523C23E0395023E02062E3E0077453DFDD0923DFAB273,
  0x3E2D84613E2BF8043E2A6B8D3E28DEFC3E2752513E25C58C3E2438AD3E22ABB63E211EA53E1F917B3E1E04383E1C76DE3E1AE96B3E195BE03E17CE3D3E164083,
  0x3E463B4D3E44B0B93E4326073E419B373E4010493E3E853E3E3CFA153E3B6ECF3E39E36C3E3857EC3E36CC503E3540983E33B4C43E3228D43E309CC93E2F10A2,
  0x3E5ED3A83E5D4B1A3E5BC26A3E5A39973E58B0A43E57278F3E559E583E5415013E528B893E5101F13E4F78383E4DEE603E4C64673E4ADA4F3E4950183E47C5C2,
  0x3E7749A63E75C35A3E743CE83E72B6513E712F943E6FA8B23E6E21AB3E6C9A7F3E6B132F3E698BBA3E6804223E667C663E64F4863E636C833E61E45C3E605C13,
  0x3E87CCC13E870ADA3E8648DF3E8586CE3E84C4AA3E8402703E8340223E827DC03E81BB4A3E80F8C03E8036223E7EE6E13E7D61563E7BDBA43E7A55CB3E78CFCC,
  0x3E93DFBF3E931F353E925E943E919DDD3E90DD103E901C2C3E8F5B323E8E9A223E8DD8FC3E8D17C03E8C566E3E8B95073E8AD38A3E8A11F73E8950503E888E93,
  0x3E9FDBEE3E9F1CDF3E9E5DB83E9D9E783E9CDF203E9C1FAF3E9B60273E9AA0863E99E0CE3E9920FE3E9861163E97A1173E96E1003E9620D23E95608D3E94A031,
  0x3EABBF773EAB02013EAA446F3EA986C43EA8C8FE3EA80B1F3EA74D253EA68F123EA5D0E53EA5129F3EA4543F3EA395C53EA2D7333EA218873EA159C23EA09AE5,
  0x3EB788843EB6CCC33EB610E63EB554EC3EB498D63EB3DCA53EB320583EB263EF3EB1A76B3EB0EACB3EB02E103EAF713A3EAEB4493EADF73C3EAD3A153EAC7CD4,
  0x3EC335443EC27B553EC1C1483EC1071E3EC04CD53EBF926F3EBED7EB3EBE1D4A3EBD628B3EBCA7AF3EBBECB63EBB31A03EBA766E3EB9BB1E3EB8FFB23EB8442A]

/-- Entries 256 to 511 of the sine ROM. -/
def sineRows1 : List Nat := [
  0x3ECEC3EA3ECE0BEA3ECD53CA3ECC9B8B3ECBE32C3ECB2AAE3ECA72103EC9B9533EC900773EC8477C3EC78E623EC6D5293EC61BD23EC5625C3EC4A8C83EC3EF15,
  0x3EDA32AD3ED97CB93ED8C6A33ED8106B3ED75A133ED6A3993ED5ECFD3ED536413ED47F643ED3C8673ED311483ED25A093ED1A2AA3ED0EB2A3ED0338A3ECF7BCA,
  0x3EE57FCB3EE4CBFE3EE4180E3EE363FA3EE2AFC43EE1FB6A3EE146EE3EE0924F3EDFDD8D3EDF28A93EDE73A23EDDBE793EDD092E3EDC53C13EDB9E313EDAE880,
  0x3EF0A9853EEFF7FB3EEF464C3EEE94793EEDE2803EED30633EEC7E213EEBCBBB3EEB19303EEA66813EE9B3AE3EE900B73EE84D9C3EE79A5D3EE6E6FB3EE63375,
  0x3EFBAE223EFAFEF73EFA4FA53EF9A02D3EF8F08E3EF840C83EF790DC3EF6E0CB3EF630933EF580353EF4CFB13EF41F073EF36E383EF2BD433EF20C293EF15AEA,
  0x3F0345F83F02EF9F3F0299323F0242B13F01EC1C3F0195733F013EB53F00E7E43F0090FF3F003A063EFFC5F33EFF17B23EFE694A3EFDBABB3EFD0C043EFC5D27,
  0x3F08A0A13F084B923F07F66F3F07A1363F074BE83F06F6863F06A10E3F064B823F05F5E23F05A02C3F054A623F04F4843F049E913F0448893F03F26D3F039C3D,
  0x3F0DE6383F0D92813F0D3EB33F0CEAD03F0C96D73F0C42C93F0BEEA53F0B9A6B3F0B461C3F0AF1B73F0A9D3D3F0A48AD3F09F4093F099F4E3F094A7F3F08F59B,
  0x3F1315EE3F12C39A3F1271303F121EB03F11CC193F11796B3F1126A73F10D3CD3F1080DC3F102DD53F0FDAB83F0F87843F0F343B3F0EE0DB3F0E8D653F0E39DA,
  0x3F182EF53F17DE123F178D183F173C073F16EADE3F16999F3F1648473F15F6D93F15A5543F1553B73F1502043F14B0393F145E583F140C5F3F13BA503F13682A,
  0x3F1D30843F1CE11F3F1C91A23F1C420C3F1BF25F3F1BA2993F1B52BB3F1B02C63F1AB2B83F1A62933F1A12553F19C2003F1971943F19210F3F18D0733F187FC0,
  0x3F2219D73F21CBFB3F217E063F212FF93F20E1D23F2093933F20453B3F1FF6CB3F1FA8413F1F599F3F1F0AE53F1EBC123F1E6D263F1E1E223F1DCF063F1D7FD1,
  0x3F26EA2A3F269DE33F2651843F26050A3F25B8773F256BCB3F251F043F24D2253F24852C3F24381A3F23EAEE3F239DA93F23504B3F2302D33F22B5433F226799,
  0x3F2BA0BF3F2B561B3F2B0B5B3F2AC0823F2A758E3F2A2A803F29DF573F2994153F2948B83F28FD413F28B1B03F2866053F281A403F27CE613F2782683F273656,
  0x3F303CDE3F2FF3E63F2FAAD33F2F61A53F2F185B3F2ECEF73F2E85783F2E3BDE3F2DF2293F2DA8593F2D5E6F3F2D14693F2CCA493F2C800F3F2C35B93F2BEB4A,
  0x3F34BDCF3F34768F3F342F343F33E7BC3F33A0293F33587A3F3310AF3F32C8C93F3280C73F3238AA3F31F0713F31A81D3F315FAD3F3117223F30CE7C3F3085BB]

/-- Entries 512 to 767 of the sine ROM. -/
def sineRows2 : List Nat := [
  0x3F3922E13F38DD653F3897CB3F3852163F380C433F37C6553F37804A3F373A233F36F3DF3F36AD7F3F3667043F36206C3F35D9B83F3592E73F354BFB3F3504F3,
  0x3F3D6B673F3D27B83F3CE3EC3F3CA0033F3C5BFC3F3C17D93F3BD3983F3B8F3B3F3B4AC13F3B06293F3AC1753F3A7CA43F3A37B73F39F2AC3F39AD853F396842,
  0x3F4196B73F4154E13F4112EC3F40D0DA3F408EA93F404C5C3F4009F03F3FC7673F3F84C03F3F41FC3F3EFF1B3F3EBC1B3F3E78FF3F3E35C53F3DF26E3F3DAEF9,
  0x3F45A42D3F4564393F4524263F44E3F53F44A3A53F4463373F4422AB3F43E2003F43A1383F4360513F431F4C3F42DE293F429CE83F425B893F421A0B3F41D870,
  0x3F4993293F4955213F4916FA3F48D8B33F489A4E3F485BCA3F481D273F47DE653F479F843F4760853F4721673F46E22A3F46A2CE3F4663543F4623BB3F45E403,
  0x3F4D63103F4D26FD3F4CEACB3F4CAE793F4C72083F4C35783F4BF8C73F4BBBF83F4B7F093F4B41FA3F4B04CC3F4AC77F3F4A8A133F4A4C873F4A0EDC3F49D112,
  0x3F51134A3F50D9373F509F033F5064AF3F502A3B3F4FEFA83F4FB4F43F4F7A1F3F4F3F2B3F4F04173F4EC8E43F4E8D903F4E521C3F4E16893F4DDAD53F4D9F02,
  0x3F54A3473F546B3B3F54330F3F53FAC33F53C2553F5389C73F5351183F5318493F52DF593F52A6493F526D183F5233C63F51FA543F51C0C23F5187103F514D3D,
  0x3F5812793F57DC7F3F57A6633F5770263F5739C73F5703483F56CCA73F5695E53F565F023F5627FE3F55F0D93F55B9933F55822C3F554AA43F5512FB3F54DB31,
  0x3F5B605A3F5B2C793F5AF8753F5AC4503F5A90093F5A5BA03F5A27163F59F26A3F59BD9C3F5988AD3F59539C3F591E6A3F58E9163F58B3A13F587E0B3F584853,
  0x3F5E8C673F5E5AA63F5E28C33F5DF6BE3F5DC4973F5D924D3F5D5FE13F5D2D533F5CFAA33F5CC7D13F5C94DD3F5C61C73F5C2E8E3F5BFB343F5BC7B83F5B941A,
  0x3F6196223F61668A3F6136D03F6106F23F60D6F23F60A6CF3F6076893F6046213F6015963F5FE4E93F5FB4193F5F83273F5F52123F5F20DB3F5EEF813F5EBE05,
  0x3F647D143F644FAC3F6422213F63F4733F63C6A13F6398AC3F636A953F633C5A3F630DFC3F62DF7B3F62B0D73F6282103F6253263F62241A3F61F4EA3F61C598,
  0x3F6740CA3F6715993F66EA453F66BECC3F6693303F6667713F663B8E3F660F883F65E35E3F65B7103F658AA03F655E0B3F6531543F6504793F64D77B3F64AA59,
  0x3F69E0D73F69B7E43F698ECC3F6965913F693C323F6912AE3F68E9073F68BF3C3F68954C3F686B393F6841033F6816A83F67EC293F67C1873F6796C13F676BD8,
  0x3F6C5CD43F6C36243F6C0F503F6BE8583F6BC13B3F6B99FB3F6B72953F6B4B0C3F6B235E3F6AFB8C3F6AD3953F6AAB7B3F6A833C3F6A5AD93F6A32523F6A09A7]

/-- Entries 768 to 1023 of the sine ROM. -/
def sineRows3 : List Nat := [
  0x3F6EB45D3F6E8FF83F6E6B6D3F6E46BE3F6E21EB3F6DFCF23F6DD7D53F6DB2933F6D8D2D3F6D67A13F6D41F23F6D1C1D3F6CF6243F6CD0073F6CA9C53F6C835E,
  0x3F70E7173F70C5013F70A2C63F7080663F705DE13F703B373F7018673F6FF5733F6FD25A3F6FAF1B3F6F8BB83F6F68303F6F44833F6F20B03F6EFCBA3F6ED89E,
  0x3F72F4AC3F72D4EB3F72B5043F7294F83F7274C73F7254703F7233F43F7213523F71F28C3F71D19F3F71B08E3F718F573F716DFB3F714C7A3F712AD43F710908,
  0x3F74DCC93F74BF623F74A1D53F7484223F7466493F74484B3F742A273F740BDD3F73ED6E3F73CED93F73B01F3F73913F3F7372393F73530E3F7333BE3F731447,
  0x3F769F243F76841B3F7668EC3F764D973F76321B3F76167A3F75FAB33F75DEC63F75C2B33F75A67B3F758A1C3F756D973F7550ED3F75341D3F7517273F74FA0B,
  0x3F783B773F7822D13F780A043F77F1103F77D7F73F77BEB73F77A5513F778BC53F7772133F77583A3F773E3C3F7724173F7709CC3F76EF5B3F76D4C43F76BA07,
  0x3F79B1833F799B433F7984DC3F796E4E3F79579A3F7940C03F7929BF3F7912983F78FB4A3F78E3D63F78CC3B3F78B47B3F789C933F7884863F786C523F7853F8,
  0x3F7B010E3F7AED373F7AD93A3F7AC5163F7AB0CB3F7A9C593F7A87C13F7A73023F7A5E1C3F7A49103F7A33DD3F7A1E843F7A09043F79F35E3F79DD913F79C79D,
  0x3F7C29E53F7C187A3F7C06E93F7BF5313F7BE3533F7BD14D3F7BBF203F7BACCD3F7B9A533F7B87B23F7B74EA3F7B61FC3F7B4EE73F7B3BAB3F7B28483F7B14BE,
  0x3F7D2BD83F7D1CDD3F7D0DBC3F7CFE733F7CEF033F7CDF6C3F7CCFAE3F7CBFC93F7CAFBD3F7C9F8A3F7C8F313F7C7EB03F7C6E083F7C5D3A3F7C4C443F7C3B28,
  0x3F7E06C23F7DFA383F7DED883F7DE0B13F7DD3B23F7DC68C3F7DB9403F7DABCC3F7D9E303F7D906E3F7D82853F7D74743F7D663D3F7D57DE3F7D49593F7D3AAC,
  0x3F7EBA7F3F7EB0693F7EA62D3F7E9BC93F7E913D3F7E868B3F7E7BB13F7E70B03F7E65883F7E5A383F7E4EC13F7E43233F7E375E3F7E2B723F7E1F5E3F7E1324,
  0x3F7F46F43F7F3F543F7F378C3F7F2F9D3F7F27873F7F1F493F7F16E43F7F0E583F7F05A43F7EFCC93F7EF3C73F7EEA9D3F7EE14C3F7ED7D43F7ECE343F7EC46D,
  0x3F7FAC0D3F7FA6E33F7FA1913F7F9C183F7F96783F7F90B13F7F8AC23F7F84AB3F7F7E6D3F7F78083F7F717B3F7F6AC73F7F63EC3F7F5CE93F7F55BF3F7F4E6D,
  0x3F7FE9B83F7FE7053F7FE42B3F7FE1293F7FDE003F7FDAAF3F7FD7373F7FD3973F7FCFD13F7FCBE23F7FC7CC3F7FC38F3F7FBF2A3F7FBA9E3F7FB5EA3F7FB10F,
  0x3F7FFFEC3F7FFFB13F7FFF4E3F7FFEC43F7FFE133F7FFD393F7FFC393F7FFB113F7FF9C13F7FF84A3F7FF6AC3F7FF4E63F7FF2F83F7FF0E33F7FEEA73F7FEC43]

/-- Entries 0 to 1023, 16 to a row. -/
def sineRows : List Nat := sineRows0 ++ sineRows1 ++ sineRows2 ++ sineRows3

/-- `TBL[k]` for `k ≤ 1024`: the rising quarter, whose last entry is `ONE`. -/
def sineQuarter (k : Nat) : F :=
  if k = 1024 then fOne else BitVec.ofNat 32 (sineRows.getD (k / 16) 0 / 2 ^ (32 * (k % 16)))

/-- `RomRead(k)` for `k ≤ 4095` (R53). -/
def romRead (k : Nat) : F :=
  if k ≤ 1024 then sineQuarter k
  else if k ≤ 2048 then sineQuarter (2048 - k)
  else if k ≤ 3072 then fNeg (sineQuarter (k - 2048))
  else fNeg (sineQuarter (4096 - k))

end Sys2Proof.Machine
end

