-- ==== Sys2Proof/Syntax.lean ====
section
/-! DEFINITION. The commands of the block (spec/30_encoding.md R71, R75, R76): one constructor per
row of the opcode map, carrying the fields and operand words its format uses (R75). -/

namespace Sys2Proof

/-- What stands on the command port: the command word and the two operand words (R70, R71). -/
structure Command where
  cw : Word
  a : Word
  b : Word
deriving DecidableEq, Repr

/-- A command of the opcode map (R76). `k` is the `inst` field, `i` and `j` the index fields (R72);
an `F` operand has type `F`, an unsigned integer operand (a capacity, R73) has type `Word`. A word
its format ignores (R75) is no part of the command. -/
inductive Instr where
  /-- `PH.FREQ`, format P (41_phasor.md R100). -/
  | phFreq (k : BitVec 8) (hz sampleRate : F)
  /-- `PH.PROC`, format N (R101). -/
  | phProc (k : BitVec 8)
  /-- `CY.FREQ`, format P (42_wavetable.md R110). -/
  | cyFreq (k : BitVec 8) (hz sampleRate : F)
  /-- `CY.PROC`, format N (R111). -/
  | cyProc (k : BitVec 8)
  /-- `HI.PROC`, format S (43_filter_stages.md R120). -/
  | hiProc (k : BitVec 8) (x : F)
  /-- `DE.PROC`, format S (R121). -/
  | deProc (k : BitVec 8) (x : F)
  /-- `OP.FREQ`, format P (R122). -/
  | opFreq (k : BitVec 8) (fc sampleRate : F)
  /-- `OP.PROC`, format S (R123). -/
  | opProc (k : BitVec 8) (x : F)
  /-- `SL.RATE`, format P (R124). -/
  | slRate (k : BitVec 8) (rate sampleRate : F)
  /-- `SL.PROC`, format S (R125). -/
  | slProc (k : BitVec 8) (x : F)
  /-- `DL.CONFIG`, format U (44_delay_line.md R140). -/
  | dlConfig (k : BitVec 8) (capacity : Word)
  /-- `DL.WRITE`, format S (R141). -/
  | dlWrite (k : BitVec 8) (v : F)
  /-- `DL.READ`, format S (R142). -/
  | dlRead (k : BitVec 8) (d : F)
  /-- `KS.CONFIG`, format M (45_karplus_strong.md R151). -/
  | ksConfig (k : BitVec 8) (sampleRate : F) (capacity : Word)
  /-- `KS.SET`, format P (R152). -/
  | ksSet (k : BitVec 8) (frequency decayTime : F)
  /-- `KS.PLUCK`, format S (R154). -/
  | ksPluck (k : BitVec 8) (g : F)
  /-- `KS.PROC`, format N (R155). -/
  | ksProc (k : BitVec 8)
  /-- `FDN.CONFIG`, format U (46_fdn.md R166). -/
  | fdnConfig (k : BitVec 8) (capacity : Word)
  /-- `FDN.SETM`, format X2 (R167). -/
  | fdnSetM (k i j : BitVec 8) (coefficient : F)
  /-- `FDN.SETG`, format X1 (R168). -/
  | fdnSetG (k i : BitVec 8) (gain : F)
  /-- `FDN.SETD`, format X1 (R169). -/
  | fdnSetD (k i : BitVec 8) (delay : F)
  /-- `FDN.PROC`, format S (R170). -/
  | fdnProc (k : BitVec 8) (x : F)
deriving DecidableEq, Repr

end Sys2Proof
end

