-- ==== Sys2Proof/Machine/State.lean ====
section
/-! DEFINITION. The state of the block (spec/10_state.md R23 to R31), of its three ports
(spec/30_encoding.md R70), and its value after reset (spec/70_reset_and_hazards.md R201). -/

namespace Sys2Proof.Machine

/-- The contents of one sample RAM: pairs of a word address and a word (spec/20_memory.md R50), the
addresses strictly rising, no word equal to `+0`. A word not listed is `+0`, which is what reset and
every `.CONFIG` write (spec/44_delay_line.md R140). The smallest addressable unit is the word (R56). -/
abbrev Memory := List (Nat × F)

/-- A phasor (R23); also the one inside an oscillator (R24). -/
structure Phasor where
  increment : F
  value : F
deriving DecidableEq, Repr

/-- A one-pole filter (R27). -/
structure OnePole where
  a1 : F
  b0 : F
  y1 : F
deriving DecidableEq, Repr

/-- A slew-rate limiter (R28). -/
structure Slew where
  limit : F
  value : F
deriving DecidableEq, Repr

/-- A delay line (R29). -/
structure DelayLine where
  capacity : Nat
  index : Nat
  buf : Memory
deriving DecidableEq, Repr

/-- A plucked-string voice (R30). -/
structure Voice where
  sr : F
  delayTime : F
  t60 : F
  gain : F
  x1 : F
  line : DelayLine
deriving DecidableEq, Repr

/-- A reverberator (R31): `M[i][j]` is entry `j` of row `i`. -/
structure Reverb where
  M : Vector (Vector F Config.fdnN) Config.fdnN
  g : Vector F Config.fdnN
  dly : Vector F Config.fdnN
  line : Vector DelayLine Config.fdnN
deriving DecidableEq, Repr

/-- The status of a response (spec/60_exceptions.md R182); codes 7 to 15 are never produced. -/
inductive Status where
  | ok
  | errOp
  | errRate
  | errFreq
  | errCap
  | errDim
  | errParam
deriving DecidableEq, Repr

/-- A response `(R, ST)` (spec/30_encoding.md R74). -/
structure Response where
  r : F
  st : Status
deriving DecidableEq, Repr

/-- One thing that happens at the block's ports (R70; spec/70_reset_and_hazards.md R200). That these make one
list is the model's form of the ports (DESIGN CHOICE, log entry 4). -/
inductive PortEvent where
  /-- The host presents a command and holds it until it is accepted. -/
  | command (c : Command)
  /-- The noise source presents one word and holds it until it is taken. -/
  | noise (u : F)
  /-- `rst` is asserted and released, and the clearing completes. -/
  | rst
  /-- Nothing happens for long enough that the command in flight, if it can, answers (R207). -/
  | time
deriving DecidableEq, Repr

/-- The whole state. The lists `ph` to `fdn` hold the instances of each unit type; how many there are and
`capMax` are the build's (R8, R33), which nothing writes. `inputs`, `inflight`, `noise` and `responses`
are the ports: what is to happen there (the environment's), the command accepted and not answered, the
noise words it has taken, and the responses given. `draws` is the model's own, the number of the command
in progress, which names its free values (log entry 2). -/
structure State where
  ph : List Phasor
  cy : List Phasor
  hi : List F
  de : List F
  op : List OnePole
  sl : List Slew
  dl : List DelayLine
  ks : List Voice
  fdn : List Reverb
  capMax : Nat
  inputs : List PortEvent
  inflight : Option Command
  noise : List F
  responses : List Response
  draws : Nat
deriving DecidableEq, Repr

/-- Why a run stops with a fault: never. Every command word and every operand has an effect the spec
gives (spec/60_exceptions.md R180, R181), so there is no constructor. -/
inductive Fault where
deriving DecidableEq, Repr

/-- Why a command is refused. -/
inductive Refusal where
  /-- Raised by `exec`'s arm of a command that has no meaning yet, and by nothing else. Safe: the run
  stops where the block goes on. No arm raises it. -/
  | notModelled (mnemonic : String)
deriving DecidableEq, Repr

/-- A phasor after reset (R23, R24). -/
def Phasor.reset : Phasor := ⟨fZero, fZero⟩

/-- A one-pole filter after reset (R27). -/
def OnePole.reset : OnePole := ⟨fZero, fOne, fZero⟩

/-- A slew-rate limiter after reset (R28). -/
def Slew.reset : Slew := ⟨fZero, fZero⟩

/-- A delay line of a build with `capMax` words after reset (R29). -/
def DelayLine.reset (capMax : Nat) : DelayLine := ⟨capMax, 0, []⟩

/-- A voice after reset (R30). -/
def Voice.reset (capMax : Nat) : Voice := ⟨fZero, fZero, fZero, fZero, fZero, DelayLine.reset capMax⟩

/-- The read delays after reset (R31): 1009, 1511, 2003, 2503 and 3001 samples. -/
def fdnDly0 : Vector F Config.fdnN :=
  #v[0x447C4000#32, 0x44BCE000#32, 0x44FA6000#32, 0x451C7000#32, 0x453B9000#32]

/-- A reverberator after reset (R31). -/
def Reverb.reset (capMax : Nat) : Reverb :=
  ⟨Vector.replicate _ (Vector.replicate _ fZero), Vector.replicate _ fOne, fdnDly0,
    Vector.replicate _ (DelayLine.reset capMax)⟩

/-- A block of the build `b` after reset (spec/70_reset_and_hazards.md R201): every unit at its reset value,
nothing presented, nothing in flight, nothing answered. -/
def State.initial (b : Build) : State where
  ph := List.replicate b.nPH Phasor.reset
  cy := List.replicate b.nCY Phasor.reset
  hi := List.replicate b.nHI fZero
  de := List.replicate b.nDE fZero
  op := List.replicate b.nOP OnePole.reset
  sl := List.replicate b.nSL Slew.reset
  dl := List.replicate b.nDL (DelayLine.reset b.capMax)
  ks := List.replicate b.nKS (Voice.reset b.capMax)
  fdn := List.replicate b.nFDN (Reverb.reset b.capMax)
  capMax := b.capMax
  inputs := []
  inflight := none
  noise := []
  responses := []
  draws := 0

/-- The machine after reset, in the build R8 takes. -/
def State.reset : State := State.initial Config.build

/-- The build a state belongs to. -/
def State.build (s : State) : Build :=
  { nPH := s.ph.length, nCY := s.cy.length, nHI := s.hi.length, nDE := s.de.length, nOP := s.op.length
    nSL := s.sl.length, nDL := s.dl.length, nKS := s.ks.length, nFDN := s.fdn.length, capMax := s.capMax }

end Sys2Proof.Machine
end

