-- ==== Sys2Proof/Machine/Ops.lean ====
section
/-! DEFINITION. The shared operations: sample RAMs, the interpolated lookup and the delay-line
primitives (spec/20_memory.md R50 to R55, spec/44_delay_line.md R140 to R142), the response and the
configuration error (spec/30_encoding.md R74, spec/60_exceptions.md R181), and the instance test
(R77 test 3). -/

namespace Sys2Proof.Machine

/-- What executing a command answers. -/
abbrev Result := Host.Outcome State Fault Refusal

/-! ### Sample RAMs (R50, R51) -/

/-- The word at an address; a word not listed is `+0`. -/
def Memory.read : Memory → Nat → F
  | [], _ => fZero
  | (b, w) :: m, a => if a = b then w else Memory.read m a

/-- Stores a word, keeping the canonical form: storing `+0` removes the entry. -/
def Memory.write : Memory → Nat → F → Memory
  | [], a, v => if v = fZero then [] else [(a, v)]
  | (b, w) :: m, a, v =>
    if a < b then (if v = fZero then (b, w) :: m else (a, v) :: (b, w) :: m)
    else if a = b then (if v = fZero then m else (a, v) :: m)
    else (b, w) :: Memory.write m a v

/-- The canonical form: from address `lo` on, addresses strictly rising and no entry `+0`. -/
def Memory.wfFrom : Nat → Memory → Bool
  | _, [] => true
  | lo, (b, w) :: m => decide (lo ≤ b) && decide (w ≠ fZero) && Memory.wfFrom (b + 1) m

/-- The canonical form. -/
def Memory.wf (m : Memory) : Bool := Memory.wfFrom 0 m

/-- `RamRead(line, a)` (R51). -/
def ramRead (line : DelayLine) (a : Nat) : F := Memory.read line.buf a

/-- `RamWrite(line, a, v)` (R51). -/
def ramWrite (line : DelayLine) (a : Nat) (v : F) : DelayLine :=
  { line with buf := Memory.write line.buf a v }

/-! ### Interpolated lookup (R54, R55) -/

/-- `lookup(read, len, x)` (R54). Both addresses are reduced by the Euclidean remainder
(spec/90_conflicts.md C5); the result at a non-finite index is free (log entry 3). -/
def lookup (q : Draw) (read : Nat → F) (len : Nat) (x : F) : F :=
  if fIsFinite x then
    let i := floorZ x
    let fr := fSub (q.sub 1) x (floorF (q.sub 0) x)
    lerp (q.sub 2) (read (i % (len : Int)).toNat) (read ((i + 1) % (len : Int)).toNat) fr
  else (q.sub 3).word

/-- `tblphasor(t)` (R55): the sine ROM `rom`, a parameter (spec/10_state.md R33), at the normalized position
`t`. -/
def tblPhasor (rom : Nat → F) (q : Draw) (t : F) : F :=
  lookup (q.sub 1) rom Config.tblLen (fMul (q.sub 0) fTblLen t)

/-! ### Delay lines (spec/44_delay_line.md R140 to R142) -/

/-- `lineClear(line, cap)` (R140): the line whatever it held before. -/
def lineClear (cap : Nat) : DelayLine := ⟨cap, 0, []⟩

/-- `lineWrite(line, v)` (R141): store at the cursor, then advance it. -/
def lineWrite (line : DelayLine) (v : F) : DelayLine :=
  { ramWrite line line.index v with index := (line.index + 1) % line.capacity }

/-- The read index of `lineRead` (R142): cursor less delay, wrapped up once if negative. -/
def readIndex (q : Draw) (line : DelayLine) (d : F) : F :=
  let r := fSub (q.sub 0) (toF line.index) d
  if fLt r fZero then fAdd (q.sub 1) r (toF line.capacity) else r

/-- `lineRead(line, d)` (R142). -/
def lineRead (q : Draw) (line : DelayLine) (d : F) : F :=
  lookup (q.sub 2) (ramRead line) line.capacity (readIndex q line d)

/-- Writes the words of `us`, each times `g`, in order (R154's loop); `m` numbers the first of them. -/
def lineFill (q : Draw) (g : F) : Nat → List F → DelayLine → DelayLine
  | _, [], line => line
  | m, u :: us, line => lineFill q g (m + 1) us (lineWrite line (fMul (q.sub m) g u))

/-- A delay line whose cursor and capacity are in range, in a build of `capMax` words, and whose RAM is
canonical, with nothing but `+0` from the capacity on (R29, R51). -/
def DelayLine.wf (capMax : Nat) (line : DelayLine) : Bool :=
  decide (line.index < line.capacity) && decide (line.capacity ≤ capMax) &&
    Memory.wf line.buf && line.buf.all (fun e => decide (e.1 < line.capacity))

/-! ### One unit of the state -/

/-- A vector by its entries. -/
def vecOf (n : Nat) {α : Type} (f : Fin n → α) : Vector α n :=
  ⟨⟨(List.finRange n).map f⟩, by simp⟩

/-- The free values of the command in progress. -/
def State.draw (s : State) : Draw := ⟨s.draws, []⟩

/-- Stores phasor `k`. -/
def State.setPh (s : State) (k : Nat) (p : Phasor) : State := { s with ph := s.ph.set k p }
/-- Stores oscillator `k`. -/
def State.setCy (s : State) (k : Nat) (p : Phasor) : State := { s with cy := s.cy.set k p }
/-- Stores History stage `k`. -/
def State.setHi (s : State) (k : Nat) (x : F) : State := { s with hi := s.hi.set k x }
/-- Stores Delta stage `k`. -/
def State.setDe (s : State) (k : Nat) (x : F) : State := { s with de := s.de.set k x }
/-- Stores one-pole filter `k`. -/
def State.setOp (s : State) (k : Nat) (p : OnePole) : State := { s with op := s.op.set k p }
/-- Stores slew-rate limiter `k`. -/
def State.setSl (s : State) (k : Nat) (p : Slew) : State := { s with sl := s.sl.set k p }
/-- Stores delay line `k`. -/
def State.setDl (s : State) (k : Nat) (l : DelayLine) : State := { s with dl := s.dl.set k l }
/-- Stores voice `k`. -/
def State.setKs (s : State) (k : Nat) (v : Voice) : State := { s with ks := s.ks.set k v }
/-- Stores reverberator `k`. -/
def State.setFdn (s : State) (k : Nat) (f : Reverb) : State := { s with fdn := s.fdn.set k f }

/-! ### Responses and configuration errors -/

/-- Presents the response `(r, st)` and becomes ready for the next command (R70, R74). -/
def State.respond (s : State) (r : F) (st : Status) : State :=
  { s with inflight := none, responses := s.responses ++ [⟨r, st⟩], draws := s.draws + 1 }

/-- Ends a command normally: status `OK` and result word `r` (spec/00_scope.md R10). -/
def State.answer (s : State) (r : F) : Result := .next (s.respond r .ok)

/-- `raise CfgError(code)` (R181): no state element changes, no noise word is taken, the response is
`(+0, code)`. Nothing is saved, and there is no return from it (R187). -/
def State.cfgError (s : State) (code : Status) : Result := .next (s.respond fZero code)

/-- The third decode test (R77): instance `k` of `n` exists, else `ERR_OP`. -/
def State.onInstance (s : State) (k : BitVec 8) (n : Nat) (run : Fin n → Result) : Result :=
  if h : k.toNat < n then run ⟨k.toNat, h⟩ else s.cfgError .errOp

end Sys2Proof.Machine
end

