-- ==== Sys2Proof/Machine/Operands.lean ====
section
/-! DEFINITION. Operand words and their acceptance predicates (spec/30_encoding.md R73;
spec/60_exceptions.md R182, R183). An `F` operand is the word itself. -/

namespace Sys2Proof.Machine

/-- `u32(w)`: an operand word read as an unsigned integer (R73). -/
def u32 (w : Word) : Nat := w.toNat

/-- `B > +0` (R183): a sample rate. -/
def rateAccepted (b : F) : Bool := fGt b fZero

/-- `A ≥ +0 and A < B·HALF` (R183): a frequency below Nyquist. Where `B·HALF` is inexact this refuses an `A` that
R100's prose accepts, a zero among them at the least `B`: the pseudocode is followed (DEDUCED, log entry 17). -/
def frequencyAccepted (q : Draw) (a b : F) : Bool := fGe a fZero && fLt a (fMul q b fHalf)

/-- `A ≥ +0 and A < +inf` (R183): a slew rate. -/
def slewAccepted (a : F) : Bool := fGe a fZero && fLt a fPosInf

/-- `1 ≤ c ≤ CAPMAX` (R183): a capacity. -/
def capacityAccepted (capMax c : Nat) : Bool := decide (1 ≤ c ∧ c ≤ capMax)

/-- `A > +0 and A < +inf` (R183): a voice's sample rate. -/
def voiceRateAccepted (a : F) : Bool := fGt a fZero && fLt a fPosInf

/-- `A > +0 and A < sr·HALF` (R183): a string's pitch. -/
def pitchAccepted (q : Draw) (a sr : F) : Bool := fGt a fZero && fLt a (fMul q sr fHalf)

/-- `n ≥ ONE and n < +inf` (R183): a string's decay, in periods. -/
def decayAccepted (n : F) : Bool := fGe n fOne && fLt n fPosInf

/-- `A ≥ +0 and A < cap(line)` (R183): a read delay. -/
def delayAccepted (a : F) (cap : Nat) : Bool := fGe a fZero && fLt a (toF cap)

/-- The 4-bit code of a status (R182). -/
def Status.code : Status → BitVec 4
  | .ok => 0
  | .errOp => 1
  | .errRate => 2
  | .errFreq => 3
  | .errCap => 4
  | .errDim => 5
  | .errParam => 6

end Sys2Proof.Machine
end

