-- ==== Sys2Proof/Machine/Delay.lean ====
section
/-! DEFINITION. The stand-alone delay line (spec/44_delay_line.md R140 to R142). -/

namespace Sys2Proof.Machine

/-- `DL.CONFIG` (R140): sets the capacity and clears the line. -/
def execDlConfig (k : BitVec 8) (capacity : Word) (s : State) : Result :=
  s.onInstance k s.dl.length fun k =>
    if !capacityAccepted s.capMax (u32 capacity) then s.cfgError .errCap
    else (s.setDl k (lineClear (u32 capacity))).answer fZero

/-- `DL.WRITE` (R141). -/
def execDlWrite (k : BitVec 8) (v : F) (s : State) : Result :=
  s.onInstance k s.dl.length fun k => (s.setDl k (lineWrite s.dl[k] v)).answer fZero

/-- `DL.READ` (R142): no state changes. -/
def execDlRead (k : BitVec 8) (d : F) (s : State) : Result :=
  s.onInstance k s.dl.length fun k => s.answer (lineRead s.draw s.dl[k] d)

end Sys2Proof.Machine
end

