-- ==== Sys2Proof/Machine/Elementary.lean ====
section
/-! DEFINITION. The default numerics parameters `fexp` and `fpow` (spec/00_scope.md R15;
spec/92_eei_decisions.md D2): the correctly rounded value of the real function. Each is computed from
a lower and an upper bound in integer arithmetic; where both bounds round to one `F` value that value
is the correctly rounded one. Where they do not, a power that is itself the tie goes to the even one, and
which of the two roundings any other value takes is free (log entry 6); no exponential is a tie. Fixed
point: `fxOne` stands for 1. -/

namespace Sys2Proof.Machine

/-- 1 in fixed point: 256 fraction bits. -/
def fxOne : Nat := 2 ^ 128 * 2 ^ 128

/-- Terms `k, k+1, ..` of the exponential's series at `t`, `term` being the one before, each rounded
down: a lower bound of their sum. -/
def expTerms (t : Nat) : Nat → Nat → Nat → Nat
  | 0, _, _ => 0
  | n + 1, k, term =>
    let next := term * t / (fxOne * k)
    next + expTerms t n (k + 1) next

/-- A lower bound of `x ^ (2 ^ n)`, by `n` squarings rounded down. -/
def squareDown : Nat → Nat → Nat
  | 0, x => x
  | n + 1, x => squareDown n (x * x / fxOne)

/-- An upper bound of `x ^ (2 ^ n)`, by `n` squarings rounded up. -/
def squareUp : Nat → Nat → Nat
  | 0, x => x
  | n + 1, x => squareUp n ((x * x + (fxOne - 1)) / fxOne)

/-- A lower bound of `exp` at `a >= 0`, both in fixed point: 48 terms at `a / 256`, then the 256th
power. -/
def expDown (a : Nat) : Nat := squareDown 8 (fxOne + expTerms (a / 256) 48 1 fxOne)

/-- An upper bound, for `a` at most 104: at `(a / 256) + 1` places of the last bit, 48 terms lose less
than 2 places each and the terms left out less than one. -/
def expUp (a : Nat) : Nat := squareUp 8 (fxOne + expTerms (a / 256 + 1) 48 1 fxOne + 256)

/-- A lower bound of `exp(a)` for a fixed-point `a` of either sign, as a fraction. -/
def expBelow (a : Int) : Nat × Nat :=
  if a < 0 then (fxOne, expUp a.natAbs) else (expDown a.natAbs, fxOne)

/-- An upper bound of `exp(a)`, as a fraction. -/
def expAbove (a : Int) : Nat × Nat :=
  if a < 0 then (fxOne, expDown a.natAbs) else (expUp a.natAbs, fxOne)

/-- Beyond this magnitude of the exponent the result is below half the least value or above the
greatest one. -/
def expReach : Nat := 104 * fxOne

/-- The 31 bits that a lower bound `lo` of an exponent gives: the rounding of a lower bound of `exp`. -/
def expMagBelow (lo : Int) : Nat :=
  if lo < -(expReach : Int) then 0
  else if (expReach : Int) < lo then infMag
  else roundMag ((expBelow lo).1 * 2 ^ 149) (expBelow lo).2

/-- The 31 bits that an upper bound `hi` of an exponent gives. -/
def expMagAbove (hi : Int) : Nat :=
  if hi < -(expReach : Int) then 0
  else if (expReach : Int) < hi then infMag
  else roundMag ((expAbove hi).1 * 2 ^ 149) (expAbove hi).2

/-- The rounding of a value that lies between two bounds: theirs, where both round to the same 31 bits;
else the one `up` picks. -/
def pickMag (up : Bool) (lo hi : Nat) : Nat :=
  if lo = hi then lo else if up then hi else lo

/-- `fexp(x)` (R15). A NaN gives a NaN (`EXPNAN`); the infinities give the limits. -/
def fexp (q : Draw) (x : F) : F :=
  if fIsNaN x then fNaN q
  else if fIsInf x then (if fSign x then fZero else fPosInf)
  else if fIsZero x then fOne
  else fPack false (pickMag (Config.expRoundsUp x) (expMagBelow (fUnits x * 2 ^ 107)) (expMagAbove (fUnits x * 2 ^ 107)))

/-- Terms of the series of `atanh`: `power / k + power·s² / (k+2) + ..`, rounded down. -/
def atanhTerms (ss : Nat) : Nat → Nat → Nat → Nat
  | 0, _, _ => 0
  | n + 1, k, power => power / k + atanhTerms ss n (k + 2) (power * ss / fxOne)

/-- A lower bound of twice `atanh (n / d)`, for `n / d` at most 1/3. -/
def lnDown (n d : Nat) : Nat :=
  let s := n * fxOne / d
  2 * atanhTerms (s * s / fxOne) 90 1 s

/-- An upper bound: the lower one and the places that rounding and the terms left out can lose. -/
def lnUp (n d : Nat) : Nat := if n = 0 then 0 else lnDown n d + 1024

/-- A lower bound of the real logarithm of `m · 2^-149`, `m > 0`: `m = z · 2^L` with `1 <= z < 2`, and
`ln z = 2 atanh ((z-1)/(z+1))`, `ln 2 = 2 atanh (1/3)`. -/
def lnUnitsDown (m : Nat) : Int :=
  let L := Nat.log2 m
  let part := (lnDown (m - 2 ^ L) (m + 2 ^ L) : Int)
  if L < 149 then part - (149 - L : Nat) * (lnUp 1 3 : Int) else part + (L - 149 : Nat) * (lnDown 1 3 : Int)

/-- An upper bound of the same logarithm. -/
def lnUnitsUp (m : Nat) : Int :=
  let L := Nat.log2 m
  let part := (lnUp (m - 2 ^ L) (m + 2 ^ L) : Int)
  if L < 149 then part - (149 - L : Nat) * (lnDown 1 3 : Int) else part + (L - 149 : Nat) * (lnUp 1 3 : Int)

/-- A lower bound of `e · y` for `e` units and `lo <= y <= hi`. -/
def scaleDown (e lo hi : Int) : Int := (if e < 0 then e * hi else e * lo) / 2 ^ 149

/-- An upper bound of the same product. -/
def scaleUp (e lo hi : Int) : Int := (if e < 0 then e * lo else e * hi) / 2 ^ 149 + 1

/-- For `+0 < b < ONE` and `+0 < e <= ONE` the power lies between `b` and `ONE` (`POWRANGE`). -/
def powClamp (b e : F) (m : Nat) : Nat :=
  if fLt b fOne && fLt fZero e && fLe e fOne then max (fMag b) (min m (fMag fOne)) else m

/-- What the lower bound of the power `b ^ e` rounds to. -/
def powMagBelow (b e : F) : Nat :=
  powClamp b e (expMagBelow (scaleDown (fUnits e) (lnUnitsDown (magUnits (fMag b))) (lnUnitsUp (magUnits (fMag b)))))

/-- What the upper bound of the power `b ^ e` rounds to. -/
def powMagAbove (b e : F) : Nat :=
  powClamp b e (expMagAbove (scaleUp (fUnits e) (lnUnitsDown (magUnits (fMag b))) (lnUnitsUp (magUnits (fMag b)))))

/-- Halves a number while it is even, at most `fuel` times: what is left, and how often. -/
def stripTwos : Nat → Nat → Nat × Nat
  | 0, m => (m, 0)
  | fuel + 1, m => if m % 2 = 0 then ((stripTwos fuel (m / 2)).1, (stripTwos fuel (m / 2)).2 + 1) else (m, 0)

/-- `|b| ^ e = m · 2^-150` exactly, for finite `b` and `m` not zero. With `|b| = B·2^x` and the right side
`C·2^y`, `B` and `C` odd: a power of two (`B = 1`) gives powers of two only. Else, with `e = n / d` in
lowest terms, `d` a power of two, `B ^ n = C ^ d` makes `B` a `d`-th power of an odd number above 1, so
`B < 2^24` leaves `d ≤ 8`, and `C < 2^26` leaves `n ≤ 16`; a negative `e` gives no such number. -/
def exactPower (b e : F) (m : Nat) : Bool :=
  let B := stripTwos 300 (magUnits (fMag b))
  let C := stripTwos 300 m
  let x := (B.2 : Int) - 149
  let y := (C.2 : Int) - 150
  let g := Nat.gcd (fUnits e).natAbs (2 ^ 149)
  let n : Nat := (fUnits e).natAbs / g
  let d : Nat := 2 ^ 149 / g
  if B.1 = 1 then decide (C.1 = 1 ∧ x * fUnits e = y * 2 ^ 149)
  else if 0 < fUnits e ∧ d ≤ 8 ∧ n ≤ 16 then decide (B.1 ^ n = C.1 ^ d ∧ x * (n : Int) = y * (d : Int))
  else false

/-- The rounding of the real power `|b| ^ e`: where both bounds round to the same 31 bits, these; where the
power itself is the tie between the two, the even one (R6); else the one that is free (log entry 6). -/
def powMag (b e : F) : Nat :=
  let lo := powMagBelow b e
  let hi := powMagAbove b e
  if lo ≠ hi ∧ exactPower b e (magUnits lo + magUnits hi) = true then (if lo % 2 = 0 then lo else hi)
  else pickMag (Config.powRoundsUp b e) lo hi

/-- `e` is an integer. -/
def fIsInteger (e : F) : Bool := decide (fUnits e % 2 ^ 149 = 0)

/-- The integer `e` is odd. -/
def fIsOdd (e : F) : Bool := decide (floorZ e % 2 = 1)

/-- `|b|`. -/
def fAbs (b : F) : F := fPack false (fMag b)

/-- `fpow(b, e)` (R15): the real power of a finite base at a finite exponent, where it has a value: a base
that is not zero, at any exponent if positive and at an integer if negative; the base zero at a positive
exponent. `fpow(b, ONE) = b` for every `b` (`POW1`). Elsewhere R15 states no value: free (log entry 7). -/
def fpow (b e : F) : F :=
  if e = fOne then b
  else if !(fIsFinite b && fIsFinite e) then Config.powElsewhere b e
  else if fIsZero b then
    (if fLt fZero e then fPack (fSign b && fSign (Config.powElsewhere b e)) 0 else Config.powElsewhere b e)
  else if fIsZero e then fOne
  else if fSign b && !fIsInteger e then Config.powElsewhere b e
  else fPack (fSign b && fIsOdd e) (powMag (fAbs b) e)

end Sys2Proof.Machine
end

