-- ==== Sys2Proof/Machine/Filters.lean ====
section
/-! DEFINITION. The filter stages: History, Delta, OnePole, slew-rate limiter
(spec/43_filter_stages.md R120 to R125). -/

namespace Sys2Proof.Machine

/-- `HI.PROC` (R120): the words are moved, not computed. -/
def execHiProc (k : BitVec 8) (x : F) (s : State) : Result :=
  s.onInstance k s.hi.length fun k => (s.setHi k x).answer s.hi[k]

/-- `DE.PROC` (R121). -/
def execDeProc (k : BitVec 8) (x : F) (s : State) : Result :=
  s.onInstance k s.de.length fun k => (s.setDe k x).answer (fSub s.draw x s.de[k])

/-- The feedback coefficient of `OP.FREQ` (R122): `fexp(-((TWO_PI · fc) / sampleRate))`, with `exp` for
`fexp`. -/
def onePoleCoefficient (exp : Draw → F → F) (q : Draw) (fc sampleRate : F) : F :=
  exp (q.sub 2) (fNeg (fDiv (q.sub 1) (fMul (q.sub 0) fTwoPi fc) sampleRate))

/-- `OP.FREQ` (R122) with `exp` for `fexp`, which is a parameter (spec/10_state.md R33). The filter's memory
is kept. -/
def opFreqWith (exp : Draw → F → F) (k : BitVec 8) (fc sampleRate : F) (s : State) : Result :=
  s.onInstance k s.op.length fun k =>
    if !rateAccepted sampleRate then s.cfgError .errRate
    else if !frequencyAccepted (s.draw.sub 0) fc sampleRate then s.cfgError .errFreq
    else
      let a := onePoleCoefficient exp (s.draw.sub 1) fc sampleRate
      (s.setOp k { s.op[k] with a1 := a, b0 := fSub (s.draw.sub 2) fOne a }).answer fZero

/-- `OP.FREQ` with the default `fexp` (R15, R122). -/
def execOpFreq (k : BitVec 8) (fc sampleRate : F) (s : State) : Result := opFreqWith fexp k fc sampleRate s

/-- The output of a one-pole filter (R123): two products, one sum, nothing fused. -/
def onePoleOutput (q : Draw) (p : OnePole) (x : F) : F :=
  fAdd (q.sub 2) (fMul (q.sub 0) p.b0 x) (fMul (q.sub 1) p.a1 p.y1)

/-- `OP.PROC` (R123). -/
def execOpProc (k : BitVec 8) (x : F) (s : State) : Result :=
  s.onInstance k s.op.length fun k =>
    let y := onePoleOutput s.draw s.op[k] x
    (s.setOp k { s.op[k] with y1 := y }).answer y

/-- `SL.RATE` (R124). The held value is kept. -/
def execSlRate (k : BitVec 8) (rate sampleRate : F) (s : State) : Result :=
  s.onInstance k s.sl.length fun k =>
    if !rateAccepted sampleRate then s.cfgError .errRate
    else if !slewAccepted rate then s.cfgError .errParam
    else (s.setSl k { s.sl[k] with limit := fDiv s.draw rate sampleRate }).answer fZero

/-- The held value one step on (R125): toward `x` by at most `limit`, `x` itself when within reach. -/
def slewStep (q : Draw) (p : Slew) (x : F) : F :=
  let d := fSub (q.sub 0) x p.value
  if fGt d p.limit then fAdd (q.sub 1) p.value p.limit
  else if fLt d (fNeg p.limit) then fSub (q.sub 2) p.value p.limit
  else x

/-- `SL.PROC` (R125): answers the value held before. -/
def execSlProc (k : BitVec 8) (x : F) (s : State) : Result :=
  s.onInstance k s.sl.length fun k =>
    (s.setSl k { s.sl[k] with value := slewStep s.draw s.sl[k] x }).answer s.sl[k].value

end Sys2Proof.Machine
end

