-- ==== Sys2Proof/Machine/Phasor.lean ====
section
/-! DEFINITION. The phase accumulator and the wavetable oscillator (spec/41_phasor.md R100, R101;
spec/42_wavetable.md R110, R111). -/

namespace Sys2Proof.Machine

/-- The phase one step on (R101): one addition, and one subtraction of `ONE` if the sum reaches it
(spec/90_conflicts.md C1). -/
def phaseAdvance (q : Draw) (p : Phasor) : F :=
  let v := fAdd (q.sub 0) p.value p.increment
  if fGe v fOne then fSub (q.sub 1) v fOne else v

/-- `PH.FREQ` (R100). The phase is kept. -/
def execPhFreq (k : BitVec 8) (hz sampleRate : F) (s : State) : Result :=
  s.onInstance k s.ph.length fun k =>
    if !rateAccepted sampleRate then s.cfgError .errRate
    else if !frequencyAccepted (s.draw.sub 0) hz sampleRate then s.cfgError .errFreq
    else (s.setPh k { s.ph[k] with increment := fDiv (s.draw.sub 1) hz sampleRate }).answer fZero

/-- `PH.PROC` (R101): answers the phase before the advance. -/
def execPhProc (k : BitVec 8) (s : State) : Result :=
  s.onInstance k s.ph.length fun k =>
    (s.setPh k { s.ph[k] with value := phaseAdvance s.draw s.ph[k] }).answer s.ph[k].value

/-- `CY.FREQ` (R110). The phase is kept. -/
def execCyFreq (k : BitVec 8) (hz sampleRate : F) (s : State) : Result :=
  s.onInstance k s.cy.length fun k =>
    if !rateAccepted sampleRate then s.cfgError .errRate
    else if !frequencyAccepted (s.draw.sub 0) hz sampleRate then s.cfgError .errFreq
    else (s.setCy k { s.cy[k] with increment := fDiv (s.draw.sub 1) hz sampleRate }).answer fZero

/-- `CY.PROC` (R111) with the sine ROM `rom`, which is a parameter (spec/10_state.md R33): answers the table
at the phase before the advance (spec/90_conflicts.md C6). -/
def cyProcWith (rom : Nat → F) (k : BitVec 8) (s : State) : Result :=
  s.onInstance k s.cy.length fun k =>
    (s.setCy k { s.cy[k] with value := phaseAdvance s.draw s.cy[k] }).answer
      (tblPhasor rom (s.draw.sub 2) s.cy[k].value)

/-- `CY.PROC` with the ROM contents that spec/20_memory.md R52 fixes. -/
def execCyProc (k : BitVec 8) (s : State) : Result := cyProcWith romRead k s

end Sys2Proof.Machine
end

