-- ==== Sys2Proof/Machine/PluckedString.lean ====
section
/-! DEFINITION. The plucked string (spec/45_karplus_strong.md R151 to R155). -/

namespace Sys2Proof.Machine

/-- `KS.CONFIG` (R151): the voice after reset but for its rate and capacity. -/
def execKsConfig (k : BitVec 8) (sampleRate : F) (capacity : Word) (s : State) : Result :=
  s.onInstance k s.ks.length fun k =>
    if !voiceRateAccepted sampleRate then s.cfgError .errRate
    else if !capacityAccepted s.capMax (u32 capacity) then s.cfgError .errCap
    else (s.setKs k ⟨sampleRate, fZero, fZero, fZero, fZero, lineClear (u32 capacity)⟩).answer fZero

/-- The period `dt = ONE / A` of `KS.SET` (R152). -/
def stringPeriod (q : Draw) (frequency : F) : F := fDiv (q.sub 1) fOne frequency

/-- The read delay `d = sr · dt` of `KS.SET`, in samples. -/
def stringDelay (q : Draw) (v : Voice) (frequency : F) : F := fMul (q.sub 2) v.sr (stringPeriod q frequency)

/-- The periods `n = floorF(B / dt)` in a decay time. -/
def stringDecay (q : Draw) (frequency decayTime : F) : F :=
  floorF (q.sub 4) (fDiv (q.sub 3) decayTime (stringPeriod q frequency))

/-- The gain `fpow(DB60, ONE / n)`: the decay-gain solver, with `pow` for `fpow`. -/
def stringGain (pow : F → F → F) (q : Draw) (frequency decayTime : F) : F :=
  pow fDb60 (fDiv (q.sub 5) fOne (stringDecay q frequency decayTime))

/-- `KS.SET` (R152) with `pow` for `fpow`, which is a parameter (spec/10_state.md R33): the four checks in
its order; line and filter memory are kept. -/
def ksSetWith (pow : F → F → F) (k : BitVec 8) (frequency decayTime : F) (s : State) : Result :=
  s.onInstance k s.ks.length fun k =>
    if !rateAccepted s.ks[k].sr then s.cfgError .errRate
    else if !pitchAccepted (s.draw.sub 0) frequency s.ks[k].sr then s.cfgError .errFreq
    else if !fLt (stringDelay s.draw s.ks[k] frequency) (toF s.ks[k].line.capacity) then s.cfgError .errCap
    else if !decayAccepted (stringDecay s.draw frequency decayTime) then s.cfgError .errParam
    else
      (s.setKs k { s.ks[k] with
        delayTime := stringPeriod s.draw frequency
        t60 := decayTime
        gain := stringGain pow s.draw frequency decayTime }).answer fZero

/-- `KS.SET` with the default `fpow` (R15, R152). -/
def execKsSet (k : BitVec 8) (frequency decayTime : F) (s : State) : Result := ksSetWith fpow k frequency decayTime s

/-- The number of noise words of a pluck (R154): `ceilZ(delayTime · sr)`. The product is finite in
every state a run reaches (R153); elsewhere the number is free (log entry 9). -/
def fillLength (q : Draw) (v : Voice) : Nat :=
  let d := fMul (q.sub 0) v.delayTime v.sr
  if fIsFinite d then (ceilZ d).toNat else (q.sub 1).word.toNat

/-- `KS.PLUCK` (R154): writes each of its `L` noise words, times the gain, at the cursor. While it has taken
fewer from the noise port it stays in flight and nothing changes (spec/70_reset_and_hazards.md R206;
spec/93_implementation_defined.md U5); no write is seen before the last word is there (R58; log entry 5). -/
def execKsPluck (k : BitVec 8) (g : F) (s : State) : Result :=
  s.onInstance k s.ks.length fun k =>
    let L := fillLength (s.draw.sub 0) s.ks[k]
    if s.noise.length < L then .next s
    else
      ({ s with noise := s.noise.drop L }.setKs k
        { s.ks[k] with line := lineFill (s.draw.sub 1) g 0 (s.noise.take L) s.ks[k].line }).answer fZero

/-- The delay-line output of `KS.PROC` (R155). -/
def stringRead (q : Draw) (v : Voice) : F :=
  lineRead (q.sub 1) v.line (fMul (q.sub 0) v.sr v.delayTime)

/-- The sample of `KS.PROC` (R155): the average of two delay-line outputs, times the gain. -/
def stringOutput (q : Draw) (v : Voice) : F :=
  fMul (q.sub 4) (fMul (q.sub 3) (fAdd (q.sub 2) (stringRead q v) v.x1) fHalf) v.gain

/-- `KS.PROC` (R155): the read comes before the write. -/
def execKsProc (k : BitVec 8) (s : State) : Result :=
  s.onInstance k s.ks.length fun k =>
    (s.setKs k { s.ks[k] with
      x1 := stringRead s.draw s.ks[k]
      line := lineWrite s.ks[k].line (stringOutput s.draw s.ks[k]) }).answer (stringOutput s.draw s.ks[k])

end Sys2Proof.Machine
end

