-- ==== Sys2Proof/Machine/Reverberator.lean ====
section
/-! DEFINITION. The feedback-delay-network reverberator (spec/46_fdn.md R166 to R170). -/

namespace Sys2Proof.Machine

/-- Every configured read delay is below the capacity `c` (R166). -/
def delaysBelow (f : Reverb) (c : Nat) : Bool :=
  (List.finRange Config.fdnN).all fun i => fLt f.dly[i] (toF c)

/-- `FDN.CONFIG` (R166): clears all lines; matrix, gains and delays are kept. -/
def execFdnConfig (k : BitVec 8) (capacity : Word) (s : State) : Result :=
  s.onInstance k s.fdn.length fun k =>
    if !capacityAccepted s.capMax (u32 capacity) then s.cfgError .errCap
    else if !delaysBelow s.fdn[k] (u32 capacity) then s.cfgError .errCap
    else
      (s.setFdn k { s.fdn[k] with line := Vector.replicate _ (lineClear (u32 capacity)) }).answer fZero

/-- `FDN.SETM` (R167). -/
def execFdnSetM (k i j : BitVec 8) (coefficient : F) (s : State) : Result :=
  s.onInstance k s.fdn.length fun k =>
    if h : i.toNat < Config.fdnN ∧ j.toNat < Config.fdnN then
      if !fIsFinite coefficient then s.cfgError .errParam
      else
        (s.setFdn k { s.fdn[k] with
          M := s.fdn[k].M.set i.toNat ((s.fdn[k].M[i.toNat]'h.1).set j.toNat coefficient h.2) h.1 }).answer fZero
    else s.cfgError .errDim

/-- `FDN.SETG` (R168). -/
def execFdnSetG (k i : BitVec 8) (gain : F) (s : State) : Result :=
  s.onInstance k s.fdn.length fun k =>
    if h : i.toNat < Config.fdnN then
      if !fIsFinite gain then s.cfgError .errParam
      else (s.setFdn k { s.fdn[k] with g := s.fdn[k].g.set i.toNat gain h }).answer fZero
    else s.cfgError .errDim

/-- `FDN.SETD` (R169). -/
def execFdnSetD (k i : BitVec 8) (delay : F) (s : State) : Result :=
  s.onInstance k s.fdn.length fun k =>
    if h : i.toNat < Config.fdnN then
      if !delayAccepted delay (s.fdn[k].line[i.toNat]'h).capacity then s.cfgError .errCap
      else (s.setFdn k { s.fdn[k] with dly := s.fdn[k].dly.set i.toNat delay h }).answer fZero
    else s.cfgError .errDim

/-- `term 0 + term 1 + ..` from `+0` in ascending order, each sum rounded (R170). -/
def accumulate (q : Draw) {n : Nat} (term : Fin n → F) : F :=
  (List.finRange n).foldl (fun acc (i : Fin n) => fAdd (q.sub i) acc (term i)) fZero

/-- Step 1 of `FDN.PROC` (R170): the delay-line outputs. -/
def fdnRead (q : Draw) (f : Reverb) : Vector F Config.fdnN :=
  vecOf _ fun i => lineRead (q.sub i) f.line[i] f.dly[i]

/-- Step 2: mixed channel `i`, one row of the MAC array, products rounded before they are added. -/
def fdnMixed (q : Draw) (f : Reverb) (y : Vector F Config.fdnN) (i : Fin Config.fdnN) : F :=
  accumulate ((q.sub 0).sub i) fun j => fMul (((q.sub 1).sub i).sub j) f.M[i][j] y[j]

/-- Steps 3 and 4: what channel `i` writes back. -/
def fdnFeedback (q : Draw) (f : Reverb) (y : Vector F Config.fdnN) (x : F) (i : Fin Config.fdnN) : F :=
  fAdd ((q.sub 3).sub i) (fMul ((q.sub 2).sub i) (fdnMixed q f y i) f.g[i]) x

/-- Step 6: the wet sum and the dry component. -/
def fdnOutput (q : Draw) (y : Vector F Config.fdnN) (x : F) : F :=
  fAdd (q.sub 2) (accumulate (q.sub 0) fun i => y[i]) (fMul (q.sub 1) fDry x)

/-- `FDN.PROC` (R170): all reads, then all writes (step 5). -/
def execFdnProc (k : BitVec 8) (x : F) (s : State) : Result :=
  s.onInstance k s.fdn.length fun k =>
    let f := s.fdn[k]
    let y := fdnRead (s.draw.sub 0) f
    (s.setFdn k { f with line := vecOf _ fun i => lineWrite f.line[i] (fdnFeedback (s.draw.sub 1) f y x i) }).answer
      (fdnOutput (s.draw.sub 2) y x)

end Sys2Proof.Machine
end

