-- ==== Sys2Proof/Machine/Dispatch.lean ====
section
/-! DEFINITION. Executing a command: one meaning per row of the opcode map (spec/30_encoding.md R76). -/

namespace Sys2Proof.Machine

def exec (i : Instr) (s : State) : Host.Outcome State Fault Refusal :=
  match i with
  | .phFreq k hz sampleRate => Sys2Proof.Machine.execPhFreq k hz sampleRate s
  | .phProc k => Sys2Proof.Machine.execPhProc k s
  | .cyFreq k hz sampleRate => Sys2Proof.Machine.execCyFreq k hz sampleRate s
  | .cyProc k => Sys2Proof.Machine.execCyProc k s
  | .hiProc k x => Sys2Proof.Machine.execHiProc k x s
  | .deProc k x => Sys2Proof.Machine.execDeProc k x s
  | .opFreq k fc sampleRate => Sys2Proof.Machine.execOpFreq k fc sampleRate s
  | .opProc k x => Sys2Proof.Machine.execOpProc k x s
  | .slRate k rate sampleRate => Sys2Proof.Machine.execSlRate k rate sampleRate s
  | .slProc k x => Sys2Proof.Machine.execSlProc k x s
  | .dlConfig k capacity => Sys2Proof.Machine.execDlConfig k capacity s
  | .dlWrite k v => Sys2Proof.Machine.execDlWrite k v s
  | .dlRead k d => Sys2Proof.Machine.execDlRead k d s
  | .ksConfig k sampleRate capacity => Sys2Proof.Machine.execKsConfig k sampleRate capacity s
  | .ksSet k frequency decayTime => Sys2Proof.Machine.execKsSet k frequency decayTime s
  | .ksPluck k g => Sys2Proof.Machine.execKsPluck k g s
  | .ksProc k => Sys2Proof.Machine.execKsProc k s
  | .fdnConfig k capacity => Sys2Proof.Machine.execFdnConfig k capacity s
  | .fdnSetM k row column coefficient => Sys2Proof.Machine.execFdnSetM k row column coefficient s
  | .fdnSetG k channel gain => Sys2Proof.Machine.execFdnSetG k channel gain s
  | .fdnSetD k channel delay => Sys2Proof.Machine.execFdnSetD k channel delay s
  | .fdnProc k x => Sys2Proof.Machine.execFdnProc k x s

end Sys2Proof.Machine
end

