-- ==== Sys2Proof/Decode.lean ====
section
/-! DEFINITION. Decoding and encoding command words (spec/30_encoding.md R71, R72, R75 to R77). Decoding
makes the first two tests of R77; the third, the instance number, is `Instr.wellFormed`, made by
`State.onInstance` with the same answer, `ERR_OP`. -/

namespace Sys2Proof

/-- Field `op` (R72). -/
def Command.op (c : Command) : BitVec 8 := c.cw.extractLsb' 24 8
/-- Field `inst` (R72). -/
def Command.inst (c : Command) : BitVec 8 := c.cw.extractLsb' 16 8
/-- Field `i` (R72). -/
def Command.i (c : Command) : BitVec 8 := c.cw.extractLsb' 8 8
/-- Field `j` (R72). -/
def Command.j (c : Command) : BitVec 8 := c.cw.extractLsb' 0 8

/-- Why a command word is illegal (R77 tests 1 and 2). -/
inductive DecodeError where
  /-- `op` is none of the 22 values of R76 (test 1). -/
  | unassignedOpcode
  /-- A field the format marks "must be 0" is not zero (test 2). -/
  | reservedField
deriving DecidableEq, Repr

/-- What decoding answers: the command, or the test that failed. -/
inductive Decoded where
  | ok (i : Instr)
  | illegal (e : DecodeError)
deriving DecidableEq, Repr

/-- Formats N, S, P, U and M: fields `i` and `j` must be 0 (R75, R77 test 2). -/
def Command.noIndex (c : Command) (i : Instr) : Decoded :=
  if c.i = 0 ∧ c.j = 0 then .ok i else .illegal .reservedField

/-- Format X1: field `j` must be 0. -/
def Command.oneIndex (c : Command) (i : Instr) : Decoded :=
  if c.j = 0 then .ok i else .illegal .reservedField

/-- The command that three words stand for: total, by the opcode map R76 and tests 1 and 2 of R77. -/
def decode (c : Command) : Decoded :=
  match c.op.toNat with
  | 0x10 => c.noIndex (.phFreq c.inst c.a c.b)
  | 0x11 => c.noIndex (.phProc c.inst)
  | 0x20 => c.noIndex (.cyFreq c.inst c.a c.b)
  | 0x21 => c.noIndex (.cyProc c.inst)
  | 0x30 => c.noIndex (.hiProc c.inst c.a)
  | 0x31 => c.noIndex (.deProc c.inst c.a)
  | 0x32 => c.noIndex (.opFreq c.inst c.a c.b)
  | 0x33 => c.noIndex (.opProc c.inst c.a)
  | 0x34 => c.noIndex (.slRate c.inst c.a c.b)
  | 0x35 => c.noIndex (.slProc c.inst c.a)
  | 0x40 => c.noIndex (.dlConfig c.inst c.a)
  | 0x41 => c.noIndex (.dlWrite c.inst c.a)
  | 0x42 => c.noIndex (.dlRead c.inst c.a)
  | 0x50 => c.noIndex (.ksConfig c.inst c.a c.b)
  | 0x51 => c.noIndex (.ksSet c.inst c.a c.b)
  | 0x52 => c.noIndex (.ksPluck c.inst c.a)
  | 0x53 => c.noIndex (.ksProc c.inst)
  | 0x60 => c.noIndex (.fdnConfig c.inst c.a)
  | 0x61 => .ok (.fdnSetM c.inst c.i c.j c.a)
  | 0x62 => c.oneIndex (.fdnSetG c.inst c.i c.a)
  | 0x63 => c.oneIndex (.fdnSetD c.inst c.i c.a)
  | 0x64 => c.noIndex (.fdnProc c.inst c.a)
  | _ => .illegal .unassignedOpcode

/-- A command word from its four fields (R72). -/
def packWord (op k i j : BitVec 8) : Word := op ++ k ++ i ++ j

/-- The three words of a command (R72, R75, R76); an operand word its format ignores is zero (R80). -/
def encode : Instr → Command
  | .phFreq k hz sr => ⟨packWord 0x10 k 0 0, hz, sr⟩
  | .phProc k => ⟨packWord 0x11 k 0 0, 0, 0⟩
  | .cyFreq k hz sr => ⟨packWord 0x20 k 0 0, hz, sr⟩
  | .cyProc k => ⟨packWord 0x21 k 0 0, 0, 0⟩
  | .hiProc k x => ⟨packWord 0x30 k 0 0, x, 0⟩
  | .deProc k x => ⟨packWord 0x31 k 0 0, x, 0⟩
  | .opFreq k fc sr => ⟨packWord 0x32 k 0 0, fc, sr⟩
  | .opProc k x => ⟨packWord 0x33 k 0 0, x, 0⟩
  | .slRate k rate sr => ⟨packWord 0x34 k 0 0, rate, sr⟩
  | .slProc k x => ⟨packWord 0x35 k 0 0, x, 0⟩
  | .dlConfig k cap => ⟨packWord 0x40 k 0 0, cap, 0⟩
  | .dlWrite k v => ⟨packWord 0x41 k 0 0, v, 0⟩
  | .dlRead k d => ⟨packWord 0x42 k 0 0, d, 0⟩
  | .ksConfig k sr cap => ⟨packWord 0x50 k 0 0, sr, cap⟩
  | .ksSet k freq decay => ⟨packWord 0x51 k 0 0, freq, decay⟩
  | .ksPluck k g => ⟨packWord 0x52 k 0 0, g, 0⟩
  | .ksProc k => ⟨packWord 0x53 k 0 0, 0, 0⟩
  | .fdnConfig k cap => ⟨packWord 0x60 k 0 0, cap, 0⟩
  | .fdnSetM k i j m => ⟨packWord 0x61 k i j, m, 0⟩
  | .fdnSetG k i g => ⟨packWord 0x62 k i 0, g, 0⟩
  | .fdnSetD k i d => ⟨packWord 0x63 k i 0, d, 0⟩
  | .fdnProc k x => ⟨packWord 0x64 k 0 0, x, 0⟩

/-- The command whose bits, numbered from the least significant bit of `CW` on through `A` and `B`,
are `w`. -/
def commandOfBits (w : Nat) : Command :=
  ⟨BitVec.ofNat 32 w, BitVec.ofNat 32 (w / 2 ^ 32), BitVec.ofNat 32 (w / 2 ^ 64)⟩

/-- The instruction the decoder reads from the low `nbits` bits of `w`, the bits above them zero. -/
def decodeTableWord (nbits w : Nat) : Option Instr :=
  match decode (commandOfBits (w % 2 ^ nbits)) with
  | .ok i => some i
  | .illegal _ => none

end Sys2Proof
end

