-- ==== Sys2Proof/Machine/Port.lean ====
section
/-! DEFINITION. The ports (spec/30_encoding.md R70), `rst` (spec/70_reset_and_hazards.md R200), and the
sequencer's step: it takes what happens next at the ports, or executes the command in flight. The order
in which things happen is the environment's: `State.inputs` lists it. -/

namespace Sys2Proof.Machine

/-- The pluck in flight has not taken all its noise words (R154): the block requests one (`nz_req`). -/
def State.requestsNoise (s : State) : Bool :=
  match s.inflight.map decode with
  | some (.ok (.ksPluck k _)) =>
    if h : k.toNat < s.ks.length then decide (s.noise.length < fillLength (s.draw.sub 0) s.ks[k.toNat]) else false
  | _ => false

/-- The block takes `e` now. A command that is presented while one is in flight, and a noise word that is
presented while none is requested, are held by their sender and hold up nothing else (R70;
spec/93_implementation_defined.md U6; for the noise word DESIGN CHOICE, log entry 5). -/
def State.takes (s : State) : PortEvent → Bool
  | .command _ => s.inflight.isNone
  | .noise _ => s.requestsNoise
  | .rst => true
  | .time => true

/-- The first entry that `p` accepts, and the list without it. -/
def firstTaken (p : PortEvent → Bool) : List PortEvent → Option (PortEvent × List PortEvent)
  | [] => none
  | e :: es => if p e then some (e, es) else (firstTaken p es).map fun r => (r.1, e :: r.2)

/-- `rst` (R200): every element of the block at its reset value, a command in flight abandoned with no
response, the noise words it has taken gone with it. The build, what is still to happen at the ports, the
responses already given and the numbering of draws are not the block's (log entry 4). -/
def State.restart (s : State) : State :=
  { State.initial s.build with
    inputs := s.inputs
    responses := s.responses
    draws := s.draws }

/-- What the ports give the sequencer. -/
inductive Poll where
  /-- Nothing to execute: the step ends in this state. -/
  | settled (s : State)
  /-- Execute this command in this state, in which it is in flight. -/
  | run (c : Command) (s : State)
deriving DecidableEq, Repr

/-- Time passes: the command in flight is executed; with none the block idles, keeping all state
(spec/60_exceptions.md R189). -/
def State.pass (s : State) : Poll :=
  match s.inflight with
  | some c => .run c s
  | none => .settled s

/-- What the block does next: it takes the first thing at the ports that it takes now; when there is none,
nothing more happens there and time passes. So the list says whether a command in flight, a pluck whose last
noise word has just come as any other, answers before an `rst` or is abandoned by it: R70 and R207 leave the
time open, and it answers exactly if a `time` stands before (DESIGN CHOICE of the form, log entry 4). -/
def State.poll (s : State) : Poll :=
  match firstTaken s.takes s.inputs with
  | some (.command c, rest) => .settled { s with inputs := rest, inflight := some c }
  | some (.noise u, rest) => .settled { s with inputs := rest, noise := s.noise ++ [u] }
  | some (.rst, rest) => .settled { s with inputs := rest }.restart
  | some (.time, rest) => { s with inputs := rest }.pass
  | none => s.pass

/-- One step, with `execute` for the meanings of the commands. A command is decoded and executed whole
(spec/20_memory.md R58); an illegal command word answers `ERR_OP` and changes nothing (R77,
spec/60_exceptions.md R181). -/
def State.advance (execute : Instr → State → Result) (s : State) : Result :=
  match s.poll with
  | .settled t => .next t
  | .run c t =>
    match decode c with
    | .ok i => execute i t
    | .illegal _ => t.cfgError .errOp

/-- The state in which the command `c` has just been accepted and time passes before anything else happens:
the next step executes it. -/
def State.present (s : State) (c : Command) : State :=
  { s with inputs := .time :: s.inputs, inflight := some c }

end Sys2Proof.Machine
end

