-- ==== Sys2Proof/Machine/Step.lean ====
section
/-! DEFINITION. One step of the block (spec/30_encoding.md R70, R77), with the default numerics. -/

namespace Sys2Proof.Machine

/-- Takes what happens next at the ports, or executes the command in flight. -/
def step (s : State) : Host.Outcome State Fault Refusal := s.advance exec

/-- `s` with the instruction that the low `nbits` bits of `w` hold as the next one to execute (R71). -/
def State.withFetchWord (s : State) (nbits w : Nat) : State := s.present (commandOfBits (w % 2 ^ nbits))

end Sys2Proof.Machine
end

