-- ==== Sys2Proof/Machine/Parameters.lean ====
section
/-! DEFINITION. The step relation with the parameters that are functions as its arguments
(spec/10_state.md R33; spec/93_implementation_defined.md U4). The other parameters, the instance counts and
`CAPMAX`, it reads from the state's data, and the noise words from the noise port. -/

namespace Sys2Proof.Machine

/-- `exec` with `exp` for `fexp`, `pow` for `fpow` and `rom` for the sine ROM: only `OP.FREQ`, `KS.SET` and
`CY.PROC` use them (R15, R52). -/
def execWith (exp : Draw → F → F) (pow : F → F → F) (rom : Nat → F) (i : Instr) (s : State) : Result :=
  match i with
  | .opFreq k fc sampleRate => opFreqWith exp k fc sampleRate s
  | .ksSet k frequency decayTime => ksSetWith pow k frequency decayTime s
  | .cyProc k => cyProcWith rom k s
  | .phFreq .. | .phProc .. | .cyFreq .. | .hiProc .. | .deProc .. | .opProc .. | .slRate .. | .slProc ..
  | .dlConfig .. | .dlWrite .. | .dlRead .. | .ksConfig .. | .ksPluck .. | .ksProc .. | .fdnConfig .. | .fdnSetM ..
  | .fdnSetG .. | .fdnSetD .. | .fdnProc .. => exec i s

/-- `step` with these parameters. -/
def stepWith (exp : Draw → F → F) (pow : F → F → F) (rom : Nat → F) (s : State) : Result :=
  s.advance (execWith exp pow rom)

end Sys2Proof.Machine
end

