-- ==== Sys2Proof/WellFormed.lean ====
section
/-! DEFINITION. Which commands are legal: the third decode test, `inst` less than the instance count
of the unit type the opcode addresses (spec/30_encoding.md R77 test 3). -/

namespace Sys2Proof

/-- The `inst` field of a command (R72). -/
def Instr.inst : Instr → BitVec 8
  | .phFreq k _ _ => k
  | .phProc k => k
  | .cyFreq k _ _ => k
  | .cyProc k => k
  | .hiProc k _ => k
  | .deProc k _ => k
  | .opFreq k _ _ => k
  | .opProc k _ => k
  | .slRate k _ _ => k
  | .slProc k _ => k
  | .dlConfig k _ => k
  | .dlWrite k _ => k
  | .dlRead k _ => k
  | .ksConfig k _ _ => k
  | .ksSet k _ _ => k
  | .ksPluck k _ => k
  | .ksProc k => k
  | .fdnConfig k _ => k
  | .fdnSetM k _ _ _ => k
  | .fdnSetG k _ _ => k
  | .fdnSetD k _ _ => k
  | .fdnProc k _ => k

/-- The instance count, in a build, of the unit type a command addresses (R77 test 3). -/
def Instr.instances (b : Build) : Instr → Nat
  | .phFreq _ _ _ => b.nPH
  | .phProc _ => b.nPH
  | .cyFreq _ _ _ => b.nCY
  | .cyProc _ => b.nCY
  | .hiProc _ _ => b.nHI
  | .deProc _ _ => b.nDE
  | .opFreq _ _ _ => b.nOP
  | .opProc _ _ => b.nOP
  | .slRate _ _ _ => b.nSL
  | .slProc _ _ => b.nSL
  | .dlConfig _ _ => b.nDL
  | .dlWrite _ _ => b.nDL
  | .dlRead _ _ => b.nDL
  | .ksConfig _ _ _ => b.nKS
  | .ksSet _ _ _ => b.nKS
  | .ksPluck _ _ => b.nKS
  | .ksProc _ => b.nKS
  | .fdnConfig _ _ => b.nFDN
  | .fdnSetM _ _ _ _ => b.nFDN
  | .fdnSetG _ _ _ => b.nFDN
  | .fdnSetD _ _ _ => b.nFDN
  | .fdnProc _ _ => b.nFDN

/-- A command whose instance exists in a build (R77 test 3). The index fields are not tested here: their range
is part of the command's own rule and reports `ERR_DIM` (R77, last paragraph). -/
def Instr.wellFormed (b : Build) (i : Instr) : Bool :=
  decide (i.inst.toNat < i.instances b)

end Sys2Proof
end

