-- ==== Sys2Proof/Safety.lean ====
section
/-! DEFINITION. What a run keeps: the invariants that the rules derive for every state from reset on
(spec/10_state.md R23, R24, R29, R31; spec/41_phasor.md R102; spec/45_karplus_strong.md R153;
spec/46_fdn.md R166 to R169). No step faults or is refused, so a run is safe when it keeps them. -/

namespace Sys2Proof.Machine

/-- `+0 ≤ increment ≤ HALF` and `+0 ≤ value < ONE` (R102). -/
def Phasor.inRange (p : Phasor) : Prop :=
  fLe fZero p.increment ∧ fLe p.increment fHalf ∧ fLe fZero p.value ∧ fLt p.value fOne

/-- `+0`, or a positive finite number (R153). -/
def zeroOrPositive (x : F) : Prop := x = fZero ∨ (fLt fZero x ∧ fIsFinite x)

/-- The voice's registers (R153): its read delay `sr · delayTime` is finite, not negative and below the
capacity, whichever NaN the product would draw; its gain is in `[+0, ONE]`. -/
def Voice.inRange (v : Voice) : Prop :=
  zeroOrPositive v.sr ∧ zeroOrPositive v.delayTime ∧
  (∀ q : Draw, fIsFinite (fMul q v.sr v.delayTime) ∧ fLe fZero (fMul q v.sr v.delayTime) ∧
    fLt (fMul q v.sr v.delayTime) (toF v.line.capacity)) ∧
  fLe fZero v.gain ∧ fLe v.gain fOne

/-- Every read delay is not negative and below its line's capacity (R31). -/
def Reverb.delaysInRange (f : Reverb) : Prop :=
  ∀ i : Fin Config.fdnN, fLe fZero f.dly[i] ∧ fLt f.dly[i] (toF f.line[i].capacity)

/-- Every matrix coefficient and every gain is finite (R167, R168). -/
def Reverb.coefficientsFinite (f : Reverb) : Prop :=
  (∀ i j : Fin Config.fdnN, fIsFinite f.M[i][j]) ∧ ∀ i : Fin Config.fdnN, fIsFinite f.g[i]

/-- Every phasor and every oscillator keeps its phase and increment in range (R102, R24). -/
def State.phasesInRange (s : State) : Prop := (∀ p ∈ s.ph, p.inRange) ∧ ∀ p ∈ s.cy, p.inRange

/-- Every delay line of the block has its cursor below its capacity, its capacity at most `CAPMAX`, and
a RAM in canonical form (R29); `CAPMAX` is one that R8 allows. -/
def State.linesWellFormed (s : State) : Prop :=
  1 ≤ s.capMax ∧ s.capMax ≤ 2 ^ 24 ∧ (∀ l ∈ s.dl, l.wf s.capMax) ∧ (∀ v ∈ s.ks, v.line.wf s.capMax) ∧
    ∀ f ∈ s.fdn, ∀ i : Fin Config.fdnN, f.line[i].wf s.capMax

/-- Every voice is in range (R153); `CAPMAX` is at least 1 (R8), so that a voice after reset is. -/
def State.voicesInRange (s : State) : Prop := 1 ≤ s.capMax ∧ ∀ v ∈ s.ks, v.inRange

/-- Every reverberator has its read delays in range (R31) and its coefficients finite (R167, R168). The read
delays after reset go up to 3001, so R31's invariant presupposes a larger `CAPMAX` (log entry 16). -/
def State.reverbsInRange (s : State) : Prop :=
  3001 < s.capMax ∧ ∀ f ∈ s.fdn, f.delaysInRange ∧ f.coefficientsFinite

/-- Every slew limit is not negative and not a NaN (R124). -/
def State.limitsInRange (s : State) : Prop := ∀ p ∈ s.sl, fLe fZero p.limit

/-- All of them. -/
def State.inv (s : State) : Prop :=
  s.phasesInRange ∧ s.linesWellFormed ∧ s.voicesInRange ∧ s.reverbsInRange ∧ s.limitsInRange

/-! ### The numerics parameters (spec/00_scope.md R15) -/

/-- A function that may stand for `fexp`: it depends on its operand alone, but for which NaN it gives, and
has `EXP0`, `EXPRANGE`, `EXPMONO` and `EXPNAN`. -/
def admissibleExp (exp : Draw → F → F) : Prop :=
  (∀ q q' x, fIsNaN x = false → exp q x = exp q' x) ∧
  (∀ q, exp q fZero = fOne ∧ exp q (fNeg fZero) = fOne) ∧
  (∀ q x, fIsFinite x → fLt x fZero → fLe fZero (exp q x) ∧ fLe (exp q x) fOne) ∧
  (∀ q, exp q (fNeg fPosInf) = fZero) ∧
  (∀ q x y, fLe x y → fLe (exp q x) (exp q y)) ∧
  ∀ q x, fIsNaN x → fIsNaN (exp q x)

/-- A function that may stand for `fpow`: it has `POW1`, `POWRANGE` and `POWMONO`. -/
def admissiblePow (pow : F → F → F) : Prop :=
  (∀ b, pow b fOne = b) ∧
  (∀ b e, fLt fZero b → fLt b fOne → fLt fZero e → fLe e fOne → fLe b (pow b e) ∧ fLe (pow b e) fOne) ∧
  ∀ b e₁ e₂, fLt fZero b → fLt b fOne → fLt fZero e₁ → fLe e₁ e₂ → fLe e₂ fOne → fLe (pow b e₂) (pow b e₁)

/-! ### Which unit a command addresses -/

/-- The unit types (spec/00_scope.md R3). -/
inductive UnitKind where
  | ph
  | cy
  | hi
  | de
  | op
  | sl
  | dl
  | ks
  | fdn
deriving DecidableEq, Repr

/-- The unit type a command addresses (spec/30_encoding.md R76: the unit classes). -/
def unitOf : Instr → UnitKind
  | .phFreq _ _ _ | .phProc _ => .ph
  | .cyFreq _ _ _ | .cyProc _ => .cy
  | .hiProc _ _ => .hi
  | .deProc _ _ => .de
  | .opFreq _ _ _ | .opProc _ _ => .op
  | .slRate _ _ _ | .slProc _ _ => .sl
  | .dlConfig _ _ | .dlWrite _ _ | .dlRead _ _ => .dl
  | .ksConfig _ _ _ | .ksSet _ _ _ | .ksPluck _ _ | .ksProc _ => .ks
  | .fdnConfig _ _ | .fdnSetM _ _ _ _ | .fdnSetG _ _ _ | .fdnSetD _ _ _ | .fdnProc _ _ => .fdn

/-- A command addresses instance `k` of a unit type. -/
def addresses (i : Instr) (u : UnitKind) (k : Nat) : Prop := unitOf i = u ∧ i.inst.toNat = k

/-- Kind `smp` of the opcode map (R76): the per-sample commands. -/
def perSample : Instr → Bool
  | .phProc _ | .cyProc _ | .hiProc _ _ | .deProc _ _ | .opProc _ _ | .slProc _ _ | .dlWrite _ _ | .dlRead _ _
  | .ksPluck _ _ | .ksProc _ | .fdnProc _ _ => true
  | .phFreq _ _ _ | .cyFreq _ _ _ | .opFreq _ _ _ | .slRate _ _ _ | .dlConfig _ _ | .ksConfig _ _ _ | .ksSet _ _ _
  | .fdnConfig _ _ | .fdnSetM _ _ _ _ | .fdnSetG _ _ _ | .fdnSetD _ _ _ => false

/-- The block executes the command in flight next, and `rest` is left at the ports: before the first `time`
there, if there is one, stands nothing that the block takes. -/
def State.executesNext (s : State) (rest : List PortEvent) : Prop :=
  ∃ held, (∀ e ∈ held, s.takes e = false) ∧
    ((s.inputs = held ∧ rest = held) ∨ ∃ tail, s.inputs = held ++ .time :: tail ∧ rest = held ++ tail)

/-- A pluck that has not got all its noise words (spec/70_reset_and_hazards.md R206). -/
def awaitsNoise (i : Instr) (s : State) : Prop :=
  ∃ (k : BitVec 8) (g : F) (h : k.toNat < s.ks.length),
    i = .ksPluck k g ∧ s.noise.length < fillLength (s.draw.sub 0) s.ks[k.toNat]

end Sys2Proof.Machine
end

