-- ==== Sys2Proof/Certificates/Slice0/Obligations.lean ====
section
/-! DEFINITION. The statements for the provers. A draw that a statement names (`s.draw.sub 0` ..) only
matters where the operation gives a NaN or a free word. -/

open Sys2Proof Sys2Proof.Machine

/-! ### Encoding and decoding (spec/30_encoding.md R71 to R77) -/

/-- Decoding an encoded command gives it back, every field and operand at every value. -/
def Obligations.DecodeEncodeRoundTrip : Prop := ∀ i : Instr, decode (encode i) = .ok i

/-- A command word that decodes is the word the decoded command encodes to: no two words mean one command. -/
def Obligations.EncodeDecodeGivesTheWord : Prop :=
  ∀ (c : Command) (i : Instr), decode c = .ok i → (encode i).cw = c.cw

/-- R71: an operand word its format does not use is ignored, whatever its bits. -/
def Obligations.UnusedOperandWordsAreIgnored : Prop :=
  ∀ (c : Command) (a b : Word),
    (∀ k, decode c = .ok (.phProc k) → decode ⟨c.cw, a, b⟩ = .ok (.phProc k)) ∧
    (∀ k, decode c = .ok (.cyProc k) → decode ⟨c.cw, a, b⟩ = .ok (.cyProc k)) ∧
    (∀ k, decode c = .ok (.ksProc k) → decode ⟨c.cw, a, b⟩ = .ok (.ksProc k)) ∧
    (∀ i, decode c = .ok i → c.op ∉ [0x10#8, 0x20#8, 0x32#8, 0x34#8, 0x50#8, 0x51#8] →
      decode ⟨c.cw, c.a, b⟩ = .ok i)

/-- R77: a word that fails one of the three decode tests (an unassigned opcode; a reserved field that is
not zero; an instance number not below its unit's count), once accepted, ends with `ERR_OP`, `R = +0`, no
state change and no noise word taken. -/
def Obligations.IllegalWordAnswersErrOp : Prop :=
  ∀ (s : State) (c : Command) (rest : List PortEvent), s.inflight = some c → s.executesNext rest →
    ((c.op ∉ [0x10#8, 0x11#8, 0x20#8, 0x21#8, 0x30#8, 0x31#8, 0x32#8, 0x33#8, 0x34#8, 0x35#8, 0x40#8, 0x41#8,
        0x42#8, 0x50#8, 0x51#8, 0x52#8, 0x53#8, 0x60#8, 0x61#8, 0x62#8, 0x63#8, 0x64#8]) ∨
      (c.op ∉ [0x61#8, 0x62#8, 0x63#8] ∧ c.cw.extractLsb' 0 16 ≠ 0#16) ∨
      (c.op ∈ [0x62#8, 0x63#8] ∧ c.cw.extractLsb' 0 8 ≠ 0#8) ∨
      (c.op ∈ [0x10#8, 0x11#8] ∧ s.ph.length ≤ c.inst.toNat) ∨
      (c.op ∈ [0x20#8, 0x21#8] ∧ s.cy.length ≤ c.inst.toNat) ∨
      (c.op = 0x30#8 ∧ s.hi.length ≤ c.inst.toNat) ∨
      (c.op = 0x31#8 ∧ s.de.length ≤ c.inst.toNat) ∨
      (c.op ∈ [0x32#8, 0x33#8] ∧ s.op.length ≤ c.inst.toNat) ∨
      (c.op ∈ [0x34#8, 0x35#8] ∧ s.sl.length ≤ c.inst.toNat) ∨
      (c.op ∈ [0x40#8, 0x41#8, 0x42#8] ∧ s.dl.length ≤ c.inst.toNat) ∨
      (c.op ∈ [0x50#8, 0x51#8, 0x52#8, 0x53#8] ∧ s.ks.length ≤ c.inst.toNat) ∨
      (c.op ∈ [0x60#8, 0x61#8, 0x62#8, 0x63#8, 0x64#8] ∧ s.fdn.length ≤ c.inst.toNat)) →
    step s = .next { s with
      inputs := rest, inflight := none, responses := s.responses ++ [⟨fZero, .errOp⟩], draws := s.draws + 1 }

/-- R76, R77: a word that passes the three tests decodes, to a command that is legal, in every build. -/
def Obligations.LegalWordDecodes : Prop :=
  ∀ (b : Build) (c : Command),
    (∃ i, decode c = .ok i ∧ i.wellFormed b = true) ↔
      ((c.op ∈ [0x10#8, 0x11#8] ∧ c.inst.toNat < b.nPH ∧ c.cw.extractLsb' 0 16 = 0#16) ∨
       (c.op ∈ [0x20#8, 0x21#8] ∧ c.inst.toNat < b.nCY ∧ c.cw.extractLsb' 0 16 = 0#16) ∨
       (c.op = 0x30#8 ∧ c.inst.toNat < b.nHI ∧ c.cw.extractLsb' 0 16 = 0#16) ∨
       (c.op = 0x31#8 ∧ c.inst.toNat < b.nDE ∧ c.cw.extractLsb' 0 16 = 0#16) ∨
       (c.op ∈ [0x32#8, 0x33#8] ∧ c.inst.toNat < b.nOP ∧ c.cw.extractLsb' 0 16 = 0#16) ∨
       (c.op ∈ [0x34#8, 0x35#8] ∧ c.inst.toNat < b.nSL ∧ c.cw.extractLsb' 0 16 = 0#16) ∨
       (c.op ∈ [0x40#8, 0x41#8, 0x42#8] ∧ c.inst.toNat < b.nDL ∧ c.cw.extractLsb' 0 16 = 0#16) ∨
       (c.op ∈ [0x50#8, 0x51#8, 0x52#8, 0x53#8] ∧ c.inst.toNat < b.nKS ∧ c.cw.extractLsb' 0 16 = 0#16) ∨
       (c.op ∈ [0x60#8, 0x64#8] ∧ c.inst.toNat < b.nFDN ∧ c.cw.extractLsb' 0 16 = 0#16) ∨
       (c.op = 0x61#8 ∧ c.inst.toNat < b.nFDN) ∨
       (c.op ∈ [0x62#8, 0x63#8] ∧ c.inst.toNat < b.nFDN ∧ c.cw.extractLsb' 0 8 = 0#8))

/-- Words written out from the encodings of R72, R76 and R80 decode to the commands they stand for. -/
def Obligations.WrittenWordsDecode : Prop :=
  decode ⟨0x10000000#32, 0x43DC0000#32, 0x472C4400#32⟩ = .ok (.phFreq 0 0x43DC0000#32 0x472C4400#32) ∧
  decode ⟨0x21030000#32, 7, 9⟩ = .ok (.cyProc 3) ∧
  decode ⟨0x35000000#32, 0x3F800000#32, 1⟩ = .ok (.slProc 0 0x3F800000#32) ∧
  decode ⟨0x40000000#32, 4, 0⟩ = .ok (.dlConfig 0 4) ∧
  decode ⟨0x50000000#32, 0x41000000#32, 8⟩ = .ok (.ksConfig 0 0x41000000#32 8) ∧
  decode ⟨0x61000203#32, 0x3F000000#32, 0⟩ = .ok (.fdnSetM 0 2 3 0x3F000000#32) ∧
  decode ⟨0x62000001#32, 0x3F000000#32, 0⟩ = .illegal .reservedField ∧
  decode ⟨0xFF000000#32, 0, 0⟩ = .illegal .unassignedOpcode

/-! ### The step (R70; spec/70_reset_and_hazards.md R200; spec/60_exceptions.md R180 to R189) -/

/-- When none is in flight, the first command that the host presents is accepted; and the command in flight,
when it is executed, runs as `exec` of the command it decodes to, which sees the state as it is. That the
ports are one list of what happens there, that accepting and executing are two steps, that a pluck short of
noise is executed again, and when a command is executed (`executesNext`) are the model's choices: log entries 4
and 5. The last clause is the form in which one command is presented alone. -/
def Obligations.StepRunsTheDecodedCommand : Prop :=
  (∀ (s : State) (c : Command) (held tail : List PortEvent),
    s.inflight = none → s.inputs = held ++ .command c :: tail → (∀ e ∈ held, s.takes e = false) →
      step s = .next { s with inputs := held ++ tail, inflight := some c }) ∧
  (∀ (s : State) (c : Command) (i : Instr) (rest : List PortEvent),
    s.inflight = some c → s.executesNext rest → decode c = .ok i →
      step s = exec i { s with inputs := rest }) ∧
  (∀ (s : State) (c : Command) (i : Instr), decode c = .ok i →
    step (s.present c) = exec i { s with inflight := some c })

/-- R189: between commands the block idles and keeps all state, as long as nothing but noise words stands at
its ports. That these, which no pluck requests, are held there by their source is no rule of the spec: it is
the model's choice, log entry 5 (DESIGN CHOICE). That the ports are one list, and time passing an entry of it,
is the model's choice too, log entry 4. -/
def Obligations.IdleStepKeepsState : Prop :=
  (∀ s : State, s.inflight = none → (∀ e ∈ s.inputs, ∃ u, e = .noise u) → step s = .next s) ∧
  (∀ (s : State) (us : List F) (rest : List PortEvent), s.inflight = none →
    s.inputs = us.map .noise ++ .time :: rest → step s = .next { s with inputs := us.map .noise ++ rest })

/-- R200, R201: `rst` brings every element to its reset value and abandons whatever command is in flight, and
the noise words it has taken, with no response, and needs no state to do so. That it is one transaction
of a list, and that the responses given before and the rest of that list stay, is the model's choice, log
entry 4. -/
def Obligations.ResetBringsEveryElementToItsValue : Prop :=
  ∀ (s : State) (held rest : List PortEvent), s.inputs = held ++ .rst :: rest → (∀ e ∈ held, s.takes e = false) →
    ∃ t : State, step s = .next t ∧ t.build = s.build ∧
      (∀ p ∈ t.ph, p = ⟨0#32, 0#32⟩) ∧ (∀ p ∈ t.cy, p = ⟨0#32, 0#32⟩) ∧
      (∀ x ∈ t.hi, x = 0#32) ∧ (∀ x ∈ t.de, x = 0#32) ∧
      (∀ p ∈ t.op, p = ⟨0#32, 0x3F800000#32, 0#32⟩) ∧ (∀ p ∈ t.sl, p = ⟨0#32, 0#32⟩) ∧
      (∀ l ∈ t.dl, l.capacity = s.capMax ∧ l.index = 0 ∧ ∀ a, ramRead l a = 0#32) ∧
      (∀ v ∈ t.ks, v.sr = 0#32 ∧ v.delayTime = 0#32 ∧ v.t60 = 0#32 ∧ v.gain = 0#32 ∧ v.x1 = 0#32 ∧
        v.line.capacity = s.capMax ∧ v.line.index = 0 ∧ ∀ a, ramRead v.line a = 0#32) ∧
      (∀ f ∈ t.fdn, (∀ i j : Fin Config.fdnN, f.M[i][j] = 0#32) ∧
        (∀ i : Fin Config.fdnN, f.g[i] = 0x3F800000#32) ∧
        f.dly.toList = [toF 1009, toF 1511, toF 2003, toF 2503, toF 3001] ∧
        ∀ i : Fin Config.fdnN, f.line[i].capacity = s.capMax ∧ f.line[i].index = 0 ∧
          ∀ a, ramRead f.line[i] a = 0#32) ∧
      t.inflight = none ∧ t.noise = [] ∧ t.responses = s.responses ∧ t.inputs = held ++ rest

/-- Every step answers a next state: no command word, operand or state stops the block. -/
def Obligations.EveryStepAnswersANextState : Prop := ∀ s : State, ∃ t, step s = .next t

/-- R70: executing a command presents exactly one response and frees the command port, and touches
neither what is to happen at the ports nor the responses given; only a pluck short of noise waits, unchanged
(the form in which it waits is the model's choice, log entry 5). -/
def Obligations.OneResponsePerCommand : Prop :=
  ∀ (i : Instr) (s : State), (awaitsNoise i s → exec i s = .next s) ∧
    (¬ awaitsNoise i s → ∃ (t : State) (r : Response), exec i s = .next t ∧ t.responses = s.responses ++ [r] ∧
      t.inflight = none ∧ t.inputs = s.inputs)

/-- R180: a legal per-sample command answers `OK` for every operand and every state (a pluck, once its
noise words are there). -/
def Obligations.PerSampleCommandsNeverFail : Prop :=
  ∀ (i : Instr) (s : State), perSample i = true → i.wellFormed s.build = true → ¬ awaitsNoise i s →
    ∃ (t : State) (r : F), exec i s = .next t ∧ t.responses = s.responses ++ [⟨r, .ok⟩]

/-- R181: a command that answers another status than `OK` answers `R = +0` and changes nothing else: no
unit, no noise word. -/
def Obligations.ConfigErrorChangesNothing : Prop :=
  ∀ (i : Instr) (s t : State) (r : F) (st : Status), exec i s = .next t →
    t.responses = s.responses ++ [⟨r, st⟩] → st ≠ .ok →
    r = fZero ∧ t = { s with inflight := none, responses := s.responses ++ [⟨fZero, st⟩], draws := s.draws + 1 }

/-- The third test of R77, for every command: an instance that does not exist answers `ERR_OP`. -/
def Obligations.MissingInstanceAnswersErrOp : Prop :=
  ∀ (i : Instr) (s : State), i.wellFormed s.build = false →
    exec i s = .next { s with inflight := none, responses := s.responses ++ [⟨fZero, .errOp⟩], draws := s.draws + 1 }

/-- R34: no command writes the state of an instance it does not address, of any type; nor the build. -/
def Obligations.CommandsWriteOnlyTheirUnit : Prop :=
  ∀ (i : Instr) (s t : State), exec i s = .next t → t.build = s.build ∧
    (∀ k, ¬ addresses i .ph k → t.ph[k]? = s.ph[k]?) ∧
    (∀ k, ¬ addresses i .cy k → t.cy[k]? = s.cy[k]?) ∧
    (∀ k, ¬ addresses i .hi k → t.hi[k]? = s.hi[k]?) ∧
    (∀ k, ¬ addresses i .de k → t.de[k]? = s.de[k]?) ∧
    (∀ k, ¬ addresses i .op k → t.op[k]? = s.op[k]?) ∧
    (∀ k, ¬ addresses i .sl k → t.sl[k]? = s.sl[k]?) ∧
    (∀ k, ¬ addresses i .dl k → t.dl[k]? = s.dl[k]?) ∧
    (∀ k, ¬ addresses i .ks k → t.ks[k]? = s.ks[k]?) ∧
    (∀ k, ¬ addresses i .fdn k → t.fdn[k]? = s.fdn[k]?)

/-- R34: no command reads the state of an instance it does not address: changing that instance first
and executing the command, or executing it and changing that instance after, is one and the same. -/
def Obligations.CommandsReadOnlyTheirUnit : Prop :=
  ∀ (i : Instr) (s t : State), exec i s = .next t →
    (∀ k p, ¬ addresses i .ph k → exec i (s.setPh k p) = .next (t.setPh k p)) ∧
    (∀ k p, ¬ addresses i .cy k → exec i (s.setCy k p) = .next (t.setCy k p)) ∧
    (∀ k x, ¬ addresses i .hi k → exec i (s.setHi k x) = .next (t.setHi k x)) ∧
    (∀ k x, ¬ addresses i .de k → exec i (s.setDe k x) = .next (t.setDe k x)) ∧
    (∀ k p, ¬ addresses i .op k → exec i (s.setOp k p) = .next (t.setOp k p)) ∧
    (∀ k p, ¬ addresses i .sl k → exec i (s.setSl k p) = .next (t.setSl k p)) ∧
    (∀ k l, ¬ addresses i .dl k → exec i (s.setDl k l) = .next (t.setDl k l)) ∧
    (∀ k v, ¬ addresses i .ks k → exec i (s.setKs k v) = .next (t.setKs k v)) ∧
    (∀ k f, ¬ addresses i .fdn k → exec i (s.setFdn k f) = .next (t.setFdn k f))

/-! ### Phasor and oscillator (spec/41_phasor.md, spec/42_wavetable.md) -/

/-- R100: the three outcomes of `PH.FREQ`; when it accepts, the increment is `A / B`, rounded to nearest (log
entry 18), and the phase is kept. Where `B·HALF` is inexact the rule's pseudocode and its prose differ in which
frequencies are accepted; that the pseudocode is followed is the model's choice, log entry 17 (DEDUCED). -/
def Obligations.PhFreqFollowsItsRule : Prop :=
  ∀ (s : State) (k : BitVec 8) (a b : F) (h : k.toNat < s.ph.length),
    (fGt b fZero = false → exec (.phFreq k a b) s = .next (s.respond fZero .errRate)) ∧
    (fGt b fZero = true → (fGe a fZero && fLt a (fMul (s.draw.sub 0) b fHalf)) = false →
      exec (.phFreq k a b) s = .next (s.respond fZero .errFreq)) ∧
    (fGt b fZero = true → fGe a fZero = true → fLt a (fMul (s.draw.sub 0) b fHalf) = true →
      exec (.phFreq k a b) s = .next ({ s with
        ph := s.ph.set k.toNat ⟨fDiv (s.draw.sub 1) a b, s.ph[k.toNat].value⟩ }.respond fZero .ok))

/-- R101: `PH.PROC` answers the phase before the advance; the new phase is the sum, less `ONE` if the sum
reaches it. -/
def Obligations.PhProcFollowsItsRule : Prop :=
  ∀ (s : State) (k : BitVec 8) (h : k.toNat < s.ph.length) (v : F),
    v = fAdd (s.draw.sub 0) s.ph[k.toNat].value s.ph[k.toNat].increment →
    exec (.phProc k) s = .next ({ s with
      ph := s.ph.set k.toNat ⟨s.ph[k.toNat].increment, if fGe v fOne then fSub (s.draw.sub 1) v fOne else v⟩
      }.respond s.ph[k.toNat].value .ok)

/-- R110: the three outcomes of `CY.FREQ`, which are those of R100, with the same two choices of the model: log
entries 17 and 18 (DEDUCED). -/
def Obligations.CyFreqFollowsItsRule : Prop :=
  ∀ (s : State) (k : BitVec 8) (a b : F) (h : k.toNat < s.cy.length),
    (fGt b fZero = false → exec (.cyFreq k a b) s = .next (s.respond fZero .errRate)) ∧
    (fGt b fZero = true → (fGe a fZero && fLt a (fMul (s.draw.sub 0) b fHalf)) = false →
      exec (.cyFreq k a b) s = .next (s.respond fZero .errFreq)) ∧
    (fGt b fZero = true → fGe a fZero = true → fLt a (fMul (s.draw.sub 0) b fHalf) = true →
      exec (.cyFreq k a b) s = .next ({ s with
        cy := s.cy.set k.toNat ⟨fDiv (s.draw.sub 1) a b, s.cy[k.toNat].value⟩ }.respond fZero .ok))

/-- R111, R54, R55: in every state that keeps the phase in range, `CY.PROC` answers the interpolation
between the table entries at the integer part of `4096 · t` and the next, wrapping, at the phase `t`
before the advance. -/
def Obligations.CyProcInterpolatesTheTable : Prop :=
  ∀ (s : State) (k : BitVec 8) (h : k.toNat < s.cy.length) (v x fr : F), s.cy[k.toNat].inRange →
    v = fAdd (s.draw.sub 0) s.cy[k.toNat].value s.cy[k.toNat].increment →
    x = fMul ((s.draw.sub 2).sub 0) fTblLen s.cy[k.toNat].value →
    fr = fSub (((s.draw.sub 2).sub 1).sub 1) x (floorF (((s.draw.sub 2).sub 1).sub 0) x) →
    ∃ n : Nat, n < Config.tblLen ∧ floorZ x = n ∧
      exec (.cyProc k) s = .next ({ s with
        cy := s.cy.set k.toNat ⟨s.cy[k.toNat].increment, if fGe v fOne then fSub (s.draw.sub 1) v fOne else v⟩
        }.respond (lerp (((s.draw.sub 2).sub 1).sub 2) (romRead n) (romRead ((n + 1) % Config.tblLen)) fr) .ok)

/-- R102, one half: the invariant of the phases is kept by every step. -/
def Obligations.StepKeepsPhasesInRange : Prop :=
  ∀ s t : State, s.phasesInRange → step s = .next t → t.phasesInRange

/-- R101, derived: subtracting `ONE` from a value in `[1, 2)` is exact, so the wrap loses nothing. -/
def Obligations.PhaseWrapIsExact : Prop :=
  ∀ (q : Draw) (v : F), fGe v fOne = true → fLt v 0x40000000#32 = true →
    fUnits (fSub q v fOne) = fUnits v - 2 ^ 149 ∧ fIsFinite (fSub q v fOne) = true

/-- R102: every sample of `PH.PROC` lies in `[0, 1)` in a state that keeps the phases in range. -/
def Obligations.PhaseSamplesLieBelowOne : Prop :=
  ∀ (s : State) (k : BitVec 8), k.toNat < s.ph.length → s.phasesInRange →
    ∃ (t : State) (r : F), exec (.phProc k) s = .next t ∧ t.responses = s.responses ++ [⟨r, .ok⟩] ∧
      fLe fZero r = true ∧ fLt r fOne = true ∧ t.phasesInRange

/-- R111, derived: every sample of an oscillator in range is finite. -/
def Obligations.OscillatorSamplesAreFinite : Prop :=
  ∀ (s : State) (k : BitVec 8), k.toNat < s.cy.length → s.phasesInRange →
    ∃ (t : State) (r : F), exec (.cyProc k) s = .next t ∧ t.responses = s.responses ++ [⟨r, .ok⟩] ∧
      fIsFinite r = true

/-- R52: the exact entries of the sine ROM and the first symmetry; entries not beyond `ONE` in magnitude. The
second symmetry is stated of equal values, not of equal words: `TBL[2048]` is `+0`, as the rule's formula and
its exact entries say, and so is not the word `-TBL[2048]` (log entry 10, DEDUCED). -/
def Obligations.SineRomSymmetries : Prop :=
  romRead 0 = fZero ∧ romRead 1024 = fOne ∧ romRead 2048 = fZero ∧ romRead 3072 = fNeg fOne ∧
  (∀ k, k ≤ 2048 → romRead (2048 - k) = romRead k) ∧
  (∀ k, 1 ≤ k → k ≤ 4095 → fEq (romRead (4096 - k)) (fNeg (romRead k)) = true) ∧
  (∀ k, k ≤ 4095 → fMag (romRead k) ≤ fMag fOne)

/-! ### Filter stages (spec/43_filter_stages.md) -/

/-- R120: `HI.PROC` answers the word before and stores this one, bit for bit. -/
def Obligations.HiProcFollowsItsRule : Prop :=
  ∀ (s : State) (k : BitVec 8) (x : F) (h : k.toNat < s.hi.length),
    exec (.hiProc k x) s = .next ({ s with hi := s.hi.set k.toNat x }.respond s.hi[k.toNat] .ok)

/-- R121: `DE.PROC` answers the difference and stores the input. -/
def Obligations.DeProcFollowsItsRule : Prop :=
  ∀ (s : State) (k : BitVec 8) (x : F) (h : k.toNat < s.de.length),
    exec (.deProc k x) s = .next ({ s with de := s.de.set k.toNat x }.respond (fSub s.draw x s.de[k.toNat]) .ok)

/-- R122: the three outcomes of `OP.FREQ`; the filter's memory is kept. Where `B·HALF` is inexact the acceptance
is that of the pseudocode, the model's choice: log entry 17 (DEDUCED). `fexp` is the default one (log entry 6). -/
def Obligations.OpFreqFollowsItsRule : Prop :=
  ∀ (s : State) (k : BitVec 8) (fc b w a : F) (h : k.toNat < s.op.length),
    w = fDiv ((s.draw.sub 1).sub 1) (fMul ((s.draw.sub 1).sub 0) fTwoPi fc) b →
    a = fexp ((s.draw.sub 1).sub 2) (fNeg w) →
    (fGt b fZero = false → exec (.opFreq k fc b) s = .next (s.respond fZero .errRate)) ∧
    (fGt b fZero = true → (fGe fc fZero && fLt fc (fMul (s.draw.sub 0) b fHalf)) = false →
      exec (.opFreq k fc b) s = .next (s.respond fZero .errFreq)) ∧
    (fGt b fZero = true → fGe fc fZero = true → fLt fc (fMul (s.draw.sub 0) b fHalf) = true →
      exec (.opFreq k fc b) s = .next ({ s with
        op := s.op.set k.toNat ⟨a, fSub (s.draw.sub 2) fOne a, s.op[k.toNat].y1⟩ }.respond fZero .ok))

/-- R122, derived: for an accepted cutoff whose `TWO_PI · A` does not overflow, both coefficients lie in
`[+0, ONE]`, with the default `fexp` (log entry 6) and with every other that R15 admits (log entry 11 says why
the overflow is left out). -/
def Obligations.OnePoleCoefficientsLieBelowOne : Prop :=
  ∀ (s : State) (k : BitVec 8) (fc b : F), k.toNat < s.op.length →
    fGt b fZero = true → fGe fc fZero = true → fLt fc (fMul (s.draw.sub 0) b fHalf) = true →
    fIsFinite (fMul ((s.draw.sub 1).sub 0) fTwoPi fc) = true →
    (∃ (t : State) (p : OnePole), exec (.opFreq k fc b) s = .next t ∧ t.op[k.toNat]? = some p ∧
      fLe fZero p.a1 = true ∧ fLe p.a1 fOne = true ∧ fLe fZero p.b0 = true ∧ fLe p.b0 fOne = true) ∧
    ∀ exp pow rom, admissibleExp exp →
      ∃ (t : State) (p : OnePole), execWith exp pow rom (.opFreq k fc b) s = .next t ∧ t.op[k.toNat]? = some p ∧
        fLe fZero p.a1 = true ∧ fLe p.a1 fOne = true ∧ fLe fZero p.b0 = true ∧ fLe p.b0 fOne = true

/-- R123: `OP.PROC` answers and stores `(b0 · x) + (a1 · y1)`, each operation rounded. -/
def Obligations.OpProcFollowsItsRule : Prop :=
  ∀ (s : State) (k : BitVec 8) (x y : F) (h : k.toNat < s.op.length),
    y = fAdd (s.draw.sub 2) (fMul (s.draw.sub 0) s.op[k.toNat].b0 x)
      (fMul (s.draw.sub 1) s.op[k.toNat].a1 s.op[k.toNat].y1) →
    exec (.opProc k x) s = .next ({ s with
      op := s.op.set k.toNat ⟨s.op[k.toNat].a1, s.op[k.toNat].b0, y⟩ }.respond y .ok)

/-- R124: the three outcomes of `SL.RATE`; the held value is kept. -/
def Obligations.SlRateFollowsItsRule : Prop :=
  ∀ (s : State) (k : BitVec 8) (a b : F) (h : k.toNat < s.sl.length),
    (fGt b fZero = false → exec (.slRate k a b) s = .next (s.respond fZero .errRate)) ∧
    (fGt b fZero = true → (fGe a fZero && fLt a 0x7F800000#32) = false →
      exec (.slRate k a b) s = .next (s.respond fZero .errParam)) ∧
    (fGt b fZero = true → fGe a fZero = true → fLt a 0x7F800000#32 = true →
      exec (.slRate k a b) s = .next ({ s with
        sl := s.sl.set k.toNat ⟨fDiv s.draw a b, s.sl[k.toNat].value⟩ }.respond fZero .ok))

/-- R125: `SL.PROC` answers the value held before; the held value moves by the limit when the difference
is beyond it either way, and is the input itself otherwise. -/
def Obligations.SlProcFollowsItsRule : Prop :=
  ∀ (s : State) (k : BitVec 8) (x d v : F) (h : k.toNat < s.sl.length),
    d = fSub (s.draw.sub 0) x s.sl[k.toNat].value →
    ((fGt d s.sl[k.toNat].limit = true ∧ v = fAdd (s.draw.sub 1) s.sl[k.toNat].value s.sl[k.toNat].limit) ∨
     (fGt d s.sl[k.toNat].limit = false ∧ fLt d (fNeg s.sl[k.toNat].limit) = true ∧
        v = fSub (s.draw.sub 2) s.sl[k.toNat].value s.sl[k.toNat].limit) ∨
     (fGt d s.sl[k.toNat].limit = false ∧ fLt d (fNeg s.sl[k.toNat].limit) = false ∧ v = x)) →
    exec (.slProc k x) s = .next ({ s with
      sl := s.sl.set k.toNat ⟨s.sl[k.toNat].limit, v⟩ }.respond s.sl[k.toNat].value .ok)

/-- R124, derived: every slew limit stays a number that is not negative. -/
def Obligations.StepKeepsLimitsInRange : Prop :=
  ∀ s t : State, s.limitsInRange → step s = .next t → t.limitsInRange

/-! ### Delay lines (spec/44_delay_line.md, spec/20_memory.md) -/

/-- R140: `DL.CONFIG` refuses a capacity out of range; else the capacity is set, the cursor is 0 and every
word is `+0`. -/
def Obligations.DlConfigFollowsItsRule : Prop :=
  ∀ (s : State) (k : BitVec 8) (c : Word), k.toNat < s.dl.length →
    (¬ (1 ≤ c.toNat ∧ c.toNat ≤ s.capMax) → exec (.dlConfig k c) s = .next (s.respond fZero .errCap)) ∧
    (1 ≤ c.toNat → c.toNat ≤ s.capMax →
      ∃ l : DelayLine, l.capacity = c.toNat ∧ l.index = 0 ∧ (∀ a, ramRead l a = fZero) ∧
        exec (.dlConfig k c) s = .next ({ s with dl := s.dl.set k.toNat l }.respond fZero .ok))

/-- R141: `DL.WRITE` stores the word at the cursor, bit for bit, every other word as before, and advances
the cursor; `R = +0`. -/
def Obligations.DlWriteStoresAtTheCursor : Prop :=
  ∀ (s : State) (k : BitVec 8) (v : F) (h : k.toNat < s.dl.length), Memory.wf s.dl[k.toNat].buf = true →
    ∃ l : DelayLine, exec (.dlWrite k v) s = .next ({ s with dl := s.dl.set k.toNat l }.respond fZero .ok) ∧
      l.capacity = s.dl[k.toNat].capacity ∧ l.index = (s.dl[k.toNat].index + 1) % s.dl[k.toNat].capacity ∧
      ramRead l s.dl[k.toNat].index = v ∧
      (∀ a, a ≠ s.dl[k.toNat].index → ramRead l a = ramRead s.dl[k.toNat] a) ∧ Memory.wf l.buf = true

/-- R142, R54: `DL.READ` changes no state and answers the interpolation between the two words at the read
index, both addresses reduced by the Euclidean remainder, when the read index is finite. -/
def Obligations.DlReadInterpolates : Prop :=
  ∀ (s : State) (k : BitVec 8) (d r : F) (h : k.toNat < s.dl.length),
    r = (if fLt (fSub (s.draw.sub 0) (toF s.dl[k.toNat].index) d) fZero
      then fAdd (s.draw.sub 1) (fSub (s.draw.sub 0) (toF s.dl[k.toNat].index) d) (toF s.dl[k.toNat].capacity)
      else fSub (s.draw.sub 0) (toF s.dl[k.toNat].index) d) →
    fIsFinite r = true →
    exec (.dlRead k d) s = .next (s.respond (lerp ((s.draw.sub 2).sub 2)
      (ramRead s.dl[k.toNat] (floorZ r % (s.dl[k.toNat].capacity : Int)).toNat)
      (ramRead s.dl[k.toNat] ((floorZ r + 1) % (s.dl[k.toNat].capacity : Int)).toNat)
      (fSub ((s.draw.sub 2).sub 1) r (floorF ((s.draw.sub 2).sub 0) r))) .ok)

/-- R142 and U2: at an infinite or NaN operand `DL.READ` still completes with `OK` and changes no state;
which word it answers is open. -/
def Obligations.DlReadAtNonFiniteCompletes : Prop :=
  ∀ (s : State) (k : BitVec 8) (d : F), k.toNat < s.dl.length → fIsFinite d = false →
    ∃ r : F, exec (.dlRead k d) s = .next (s.respond r .ok)

/-- R29, R51: every step keeps every delay line well formed, its RAM in canonical form and nothing stored
at or above the capacity. -/
def Obligations.StepKeepsLinesWellFormed : Prop :=
  ∀ s t : State, s.linesWellFormed → step s = .next t → t.linesWellFormed

/-- R144: the exact round trip. In a well-formed line whose words are finite, a word that is no NaN is
written and then `d - 1` further finite words: reading at `d`, from 1 to the capacity, gives that word in
value. (An infinity in a line of capacity 1 is its own neighbour and is left out.) -/
def Obligations.DelayLineRoundTrip : Prop :=
  ∀ (q : Draw) (l : DelayLine) (v : F) (ws : List F) (capMax : Nat), capMax ≤ 2 ^ 24 → l.wf capMax = true →
    (∀ a, fIsFinite (ramRead l a) = true) →
    fIsNaN v = false → (fIsFinite v = true ∨ 1 < l.capacity) → (∀ w ∈ ws, fIsFinite w = true) →
    ws.length + 1 ≤ l.capacity →
    fEq (lineRead q (ws.foldl lineWrite (lineWrite l v)) (toF (ws.length + 1))) v = true

/-- R14: at the two ends the interpolation gives the end in value. -/
def Obligations.LerpGivesItsEnds : Prop :=
  ∀ (q : Draw) (a b : F), fIsFinite a = true → fIsFinite b = true →
    fEq (lerp q a b fZero) a = true ∧ fEq (lerp q a b fOne) b = true

/-- R54, derived: for a finite index that is not negative, splitting off the integer part is exact and the
fraction lies in `[+0, ONE)`. -/
def Obligations.LookupFractionIsExact : Prop :=
  ∀ (q : Draw) (x : F), fIsFinite x = true → fLe fZero x = true →
    fUnits (floorF q x) = floorZ x * 2 ^ 149 ∧
    fUnits (fSub q x (floorF q x)) = fUnits x - floorZ x * 2 ^ 149 ∧
    fLe fZero (fSub q x (floorF q x)) = true ∧ fLt (fSub q x (floorF q x)) fOne = true

/-! ### Plucked string (spec/45_karplus_strong.md) -/

/-- R151: the three outcomes of `KS.CONFIG`. -/
def Obligations.KsConfigFollowsItsRule : Prop :=
  ∀ (s : State) (k : BitVec 8) (a : F) (c : Word), k.toNat < s.ks.length →
    ((fGt a fZero && fLt a 0x7F800000#32) = false → exec (.ksConfig k a c) s = .next (s.respond fZero .errRate)) ∧
    (fGt a fZero = true → fLt a 0x7F800000#32 = true → ¬ (1 ≤ c.toNat ∧ c.toNat ≤ s.capMax) →
      exec (.ksConfig k a c) s = .next (s.respond fZero .errCap)) ∧
    (fGt a fZero = true → fLt a 0x7F800000#32 = true → 1 ≤ c.toNat → c.toNat ≤ s.capMax →
      ∃ l : DelayLine, l.capacity = c.toNat ∧ l.index = 0 ∧ (∀ x, ramRead l x = fZero) ∧
        exec (.ksConfig k a c) s = .next ({ s with
          ks := s.ks.set k.toNat ⟨a, fZero, fZero, fZero, fZero, l⟩ }.respond fZero .ok))

/-- R152: the refusals of `KS.SET`, in its order, and what it stores: the period `ONE / A`, the decay time
and the gain `fpow(DB60, ONE / n)` for the `n` periods of the decay. R15 and R152 leave `fpow` a parameter; that
it is the default one here is the model's choice, log entry 6 (DESIGN CHOICE). -/
def Obligations.KsSetFollowsItsRule : Prop :=
  ∀ (s : State) (k : BitVec 8) (a b dt d n : F) (h : k.toNat < s.ks.length),
    dt = fDiv (s.draw.sub 1) fOne a → d = fMul (s.draw.sub 2) s.ks[k.toNat].sr dt →
    n = floorF (s.draw.sub 4) (fDiv (s.draw.sub 3) b dt) →
    (fGt s.ks[k.toNat].sr fZero = false → exec (.ksSet k a b) s = .next (s.respond fZero .errRate)) ∧
    (fGt s.ks[k.toNat].sr fZero = true →
      (fGt a fZero && fLt a (fMul (s.draw.sub 0) s.ks[k.toNat].sr fHalf)) = false →
      exec (.ksSet k a b) s = .next (s.respond fZero .errFreq)) ∧
    (fGt s.ks[k.toNat].sr fZero = true → fGt a fZero = true →
      fLt a (fMul (s.draw.sub 0) s.ks[k.toNat].sr fHalf) = true →
      fLt d (toF s.ks[k.toNat].line.capacity) = false →
      exec (.ksSet k a b) s = .next (s.respond fZero .errCap)) ∧
    (fGt s.ks[k.toNat].sr fZero = true → fGt a fZero = true →
      fLt a (fMul (s.draw.sub 0) s.ks[k.toNat].sr fHalf) = true →
      fLt d (toF s.ks[k.toNat].line.capacity) = true → (fGe n fOne && fLt n 0x7F800000#32) = false →
      exec (.ksSet k a b) s = .next (s.respond fZero .errParam)) ∧
    (fGt s.ks[k.toNat].sr fZero = true → fGt a fZero = true →
      fLt a (fMul (s.draw.sub 0) s.ks[k.toNat].sr fHalf) = true →
      fLt d (toF s.ks[k.toNat].line.capacity) = true → fGe n fOne = true → fLt n 0x7F800000#32 = true →
      exec (.ksSet k a b) s = .next ({ s with
        ks := s.ks.set k.toNat { s.ks[k.toNat] with
          delayTime := dt, t60 := b, gain := fpow fDb60 (fDiv (s.draw.sub 5) fOne n) } }.respond fZero .ok))

/-- R154: with its `L = ceilZ(delayTime · sr)` noise words there, `KS.PLUCK` takes exactly these, stores the
`m`-th times the gain at the `m`-th address from the cursor on, leaves every other word and every other
register of the voice as they were, and moves the cursor on by `L`. -/
def Obligations.PluckStoresItsBurst : Prop :=
  ∀ (s : State) (k : BitVec 8) (g d : F) (L : Nat) (h : k.toNat < s.ks.length),
    s.ks[k.toNat].line.wf s.capMax = true → s.ks[k.toNat].inRange →
    d = fMul ((s.draw.sub 0).sub 0) s.ks[k.toNat].delayTime s.ks[k.toNat].sr → (L : Int) = ceilZ d →
    L ≤ s.noise.length →
    ∃ l : DelayLine, exec (.ksPluck k g) s = .next ({ s with
        noise := s.noise.drop L
        ks := s.ks.set k.toNat { s.ks[k.toNat] with line := l } }.respond fZero .ok) ∧
      l.capacity = s.ks[k.toNat].line.capacity ∧
      l.index = (s.ks[k.toNat].line.index + L) % s.ks[k.toNat].line.capacity ∧
      (∀ (m : Nat) (hm : m < s.noise.length), m < L →
        ramRead l ((s.ks[k.toNat].line.index + m) % s.ks[k.toNat].line.capacity) =
          fMul ((s.draw.sub 1).sub m) g s.noise[m]) ∧
      (∀ a, (∀ m, m < L → a ≠ (s.ks[k.toNat].line.index + m) % s.ks[k.toNat].line.capacity) →
        ramRead l a = ramRead s.ks[k.toNat].line a)

/-- R206 and U5: a pluck in flight that lacks noise words waits, whatever commands are held meanwhile; it takes
the next noise word past them; and once the noise source has delivered the `L` words it completes with `OK`,
in finite time (R207). That the ports are one list of which a step takes one entry, and that the pluck is
executed when nothing more in it is taken, so that it answers exactly one step after its last word, is the
model's choice and no promise of R207: log entry 4 (DESIGN CHOICE). That it stores its words only when the last
is there is the model's choice too, log entry 5. -/
def Obligations.StarvedPluckWaits : Prop :=
  ∀ (s : State) (c : Command) (k : BitVec 8) (g : F) (held : List Command) (us : List F)
    (h : k.toNat < s.ks.length), s.inflight = some c → decode c = .ok (.ksPluck k g) →
    (s.noise.length < fillLength (s.draw.sub 0) s.ks[k.toNat] → s.inputs = held.map .command → step s = .next s) ∧
    (∀ (u : F) (rest : List PortEvent), s.noise.length < fillLength (s.draw.sub 0) s.ks[k.toNat] →
      s.inputs = held.map .command ++ .noise u :: rest →
      step s = .next { s with inputs := held.map .command ++ rest, noise := s.noise ++ [u] }) ∧
    (s.noise.length + us.length = fillLength (s.draw.sub 0) s.ks[k.toNat] →
      s.inputs = held.map .command ++ us.map .noise →
      ∃ t : State, Sys2Proof.core.run (us.length + 1) s = .next t ∧ State.inflight t = none ∧
        State.inputs t = held.map .command ∧ State.responses t = s.responses ++ [⟨fZero, .ok⟩])

/-- R155: `KS.PROC` reads the line at `sr · delayTime`, averages with the output before, scales by the gain,
answers that and stores it at the cursor; every other word is as before. -/
def Obligations.KsProcFollowsItsRule : Prop :=
  ∀ (s : State) (k : BitVec 8) (r out : F) (h : k.toNat < s.ks.length),
    Memory.wf s.ks[k.toNat].line.buf = true →
    r = lineRead (s.draw.sub 1) s.ks[k.toNat].line (fMul (s.draw.sub 0) s.ks[k.toNat].sr s.ks[k.toNat].delayTime) →
    out = fMul (s.draw.sub 4) (fMul (s.draw.sub 3) (fAdd (s.draw.sub 2) r s.ks[k.toNat].x1) fHalf)
      s.ks[k.toNat].gain →
    ∃ l : DelayLine, exec (.ksProc k) s = .next ({ s with
        ks := s.ks.set k.toNat { s.ks[k.toNat] with x1 := r, line := l } }.respond out .ok) ∧
      l.capacity = s.ks[k.toNat].line.capacity ∧
      l.index = (s.ks[k.toNat].line.index + 1) % s.ks[k.toNat].line.capacity ∧
      ramRead l s.ks[k.toNat].line.index = out ∧
      (∀ a, a ≠ s.ks[k.toNat].line.index → ramRead l a = ramRead s.ks[k.toNat].line a)

/-- R153: every step keeps every voice in range, with the default `fpow` (log entry 6) and with every other
that R15 admits. -/
def Obligations.StepKeepsVoicesInRange : Prop :=
  ∀ s t : State, s.voicesInRange →
    (step s = .next t → t.voicesInRange) ∧
    ∀ exp pow rom, admissiblePow pow → stepWith exp pow rom s = .next t → t.voicesInRange

/-- R153: the fill length of a voice in range never exceeds its capacity, and the read of `KS.PROC` never
meets a non-finite index, whatever `CAPMAX` (R8) the build has. -/
def Obligations.StringNeverOverruns : Prop :=
  ∀ (q : Draw) (v : Voice) (capMax : Nat), capMax ≤ 2 ^ 24 → v.line.wf capMax = true → v.inRange →
    fillLength q v ≤ v.line.capacity ∧ fIsFinite (readIndex q v.line (fMul q v.sr v.delayTime)) = true

/-! ### Reverberator (spec/46_fdn.md) -/

/-- R166: `FDN.CONFIG` refuses a capacity out of range or not above every read delay; else it clears every
line and keeps matrix, gains and delays. -/
def Obligations.FdnConfigFollowsItsRule : Prop :=
  ∀ (s : State) (k : BitVec 8) (c : Word) (h : k.toNat < s.fdn.length),
    (¬ (1 ≤ c.toNat ∧ c.toNat ≤ s.capMax) → exec (.fdnConfig k c) s = .next (s.respond fZero .errCap)) ∧
    ((∃ i : Fin Config.fdnN, fLt s.fdn[k.toNat].dly[i] (toF c.toNat) = false) →
      exec (.fdnConfig k c) s = .next (s.respond fZero .errCap)) ∧
    (1 ≤ c.toNat → c.toNat ≤ s.capMax →
      (∀ i : Fin Config.fdnN, fLt s.fdn[k.toNat].dly[i] (toF c.toNat) = true) →
      ∃ ls : Vector DelayLine Config.fdnN,
        (∀ i : Fin Config.fdnN, ls[i].capacity = c.toNat ∧ ls[i].index = 0 ∧ ∀ a, ramRead ls[i] a = fZero) ∧
        exec (.fdnConfig k c) s = .next ({ s with
          fdn := s.fdn.set k.toNat { s.fdn[k.toNat] with line := ls } }.respond fZero .ok))

/-- R167: the three outcomes of `FDN.SETM`; it stores one coefficient and leaves every other. -/
def Obligations.FdnSetMFollowsItsRule : Prop :=
  ∀ (s : State) (k i j : BitVec 8) (a : F) (h : k.toNat < s.fdn.length),
    (¬ (i.toNat < Config.fdnN ∧ j.toNat < Config.fdnN) →
      exec (.fdnSetM k i j a) s = .next (s.respond fZero .errDim)) ∧
    (i.toNat < Config.fdnN → j.toNat < Config.fdnN → fIsFinite a = false →
      exec (.fdnSetM k i j a) s = .next (s.respond fZero .errParam)) ∧
    (i.toNat < Config.fdnN → j.toNat < Config.fdnN → fIsFinite a = true →
      ∃ m : Vector (Vector F Config.fdnN) Config.fdnN,
        exec (.fdnSetM k i j a) s = .next ({ s with
          fdn := s.fdn.set k.toNat { s.fdn[k.toNat] with M := m } }.respond fZero .ok) ∧
        ∀ i' j' : Fin Config.fdnN,
          m[i'][j'] = if i'.val = i.toNat ∧ j'.val = j.toNat then a else s.fdn[k.toNat].M[i'][j'])

/-- R168: the three outcomes of `FDN.SETG`; it stores one gain and leaves every other. -/
def Obligations.FdnSetGFollowsItsRule : Prop :=
  ∀ (s : State) (k i : BitVec 8) (a : F) (h : k.toNat < s.fdn.length),
    (Config.fdnN ≤ i.toNat → exec (.fdnSetG k i a) s = .next (s.respond fZero .errDim)) ∧
    (i.toNat < Config.fdnN → fIsFinite a = false →
      exec (.fdnSetG k i a) s = .next (s.respond fZero .errParam)) ∧
    (i.toNat < Config.fdnN → fIsFinite a = true →
      ∃ g : Vector F Config.fdnN,
        exec (.fdnSetG k i a) s = .next ({ s with
          fdn := s.fdn.set k.toNat { s.fdn[k.toNat] with g := g } }.respond fZero .ok) ∧
        ∀ i' : Fin Config.fdnN, g[i'] = if i'.val = i.toNat then a else s.fdn[k.toNat].g[i'])

/-- R169: the three outcomes of `FDN.SETD`; it stores one read delay and leaves every other. -/
def Obligations.FdnSetDFollowsItsRule : Prop :=
  ∀ (s : State) (k i : BitVec 8) (a : F) (h : k.toNat < s.fdn.length),
    (Config.fdnN ≤ i.toNat → exec (.fdnSetD k i a) s = .next (s.respond fZero .errDim)) ∧
    (∀ hi : i.toNat < Config.fdnN,
      (fGe a fZero && fLt a (toF s.fdn[k.toNat].line[i.toNat].capacity)) = false →
      exec (.fdnSetD k i a) s = .next (s.respond fZero .errCap)) ∧
    (∀ hi : i.toNat < Config.fdnN, fGe a fZero = true →
      fLt a (toF s.fdn[k.toNat].line[i.toNat].capacity) = true →
      ∃ d : Vector F Config.fdnN,
        exec (.fdnSetD k i a) s = .next ({ s with
          fdn := s.fdn.set k.toNat { s.fdn[k.toNat] with dly := d } }.respond fZero .ok) ∧
        ∀ i' : Fin Config.fdnN, d[i'] = if i'.val = i.toNat then a else s.fdn[k.toNat].dly[i'])

/-- R170: `FDN.PROC` reads all lines first; mixes them by the matrix, each row accumulated from `+0` in
ascending order; scales by the gain and adds the input; stores one word at each line's cursor, every
other word as before; and answers the wet sum plus `DRY · x`. -/
def Obligations.FdnProcFollowsItsRule : Prop :=
  ∀ (s : State) (k : BitVec 8) (x : F) (h : k.toNat < s.fdn.length) (y w : Vector F Config.fdnN),
    (∀ i : Fin Config.fdnN, Memory.wf s.fdn[k.toNat].line[i].buf = true) →
    (∀ i : Fin Config.fdnN,
      y[i] = lineRead ((s.draw.sub 0).sub i) s.fdn[k.toNat].line[i] s.fdn[k.toNat].dly[i]) →
    (∀ i : Fin Config.fdnN, w[i] = fAdd (((s.draw.sub 1).sub 3).sub i) (fMul (((s.draw.sub 1).sub 2).sub i)
      ((List.finRange Config.fdnN).foldl (fun acc (j : Fin Config.fdnN) =>
        fAdd ((((s.draw.sub 1).sub 0).sub i).sub j) acc
          (fMul ((((s.draw.sub 1).sub 1).sub i).sub j) s.fdn[k.toNat].M[i][j] y[j])) fZero)
      s.fdn[k.toNat].g[i]) x) →
    ∃ ls : Vector DelayLine Config.fdnN,
      (∀ i : Fin Config.fdnN, ls[i].capacity = s.fdn[k.toNat].line[i].capacity ∧
        ls[i].index = (s.fdn[k.toNat].line[i].index + 1) % s.fdn[k.toNat].line[i].capacity ∧
        ramRead ls[i] s.fdn[k.toNat].line[i].index = w[i] ∧
        ∀ a, a ≠ s.fdn[k.toNat].line[i].index → ramRead ls[i] a = ramRead s.fdn[k.toNat].line[i] a) ∧
      exec (.fdnProc k x) s = .next ({ s with
        fdn := s.fdn.set k.toNat { s.fdn[k.toNat] with line := ls } }.respond
          (fAdd ((s.draw.sub 2).sub 2)
            ((List.finRange Config.fdnN).foldl (fun acc (i : Fin Config.fdnN) =>
              fAdd (((s.draw.sub 2).sub 0).sub i) acc y[i]) fZero)
            (fMul ((s.draw.sub 2).sub 1) fDry x)) .ok)

/-- R31, R167, R168: in a build whose `CAPMAX` is above the read delays at reset, every step keeps every
reverberator's read delays below its capacities and its coefficients finite (log entry 16 says why this is
asked of `CAPMAX`). -/
def Obligations.StepKeepsReverbsInRange : Prop :=
  ∀ s t : State, s.reverbsInRange → step s = .next t → t.reverbsInRange

/-! ### Arithmetic (spec/00_scope.md) -/

/-- R6, R11: rounding is to nearest: no finite `F` magnitude is nearer to the exact `n / d` than the one
rounding gives, and of two equally near the even one is given. -/
def Obligations.RoundingIsToNearestEven : Prop :=
  ∀ n d m : Nat, 0 < d → roundMag n d < infMag → m < infMag →
    ((n : Int) - magUnits (roundMag n d) * d).natAbs ≤ ((n : Int) - magUnits m * d).natAbs ∧
    (((n : Int) - magUnits (roundMag n d) * d).natAbs = ((n : Int) - magUnits m * d).natAbs → m ≠ roundMag n d →
      roundMag n d % 2 = 0)

/-- R11, U1: an operation with a NaN operand gives a NaN, and a result that is no NaN does not depend on the
draw: nothing but the NaN itself is open. -/
def Obligations.OnlyNaNResultsAreOpen : Prop :=
  (∀ (q : Draw) (a b : F), (fIsNaN a || fIsNaN b) = true →
    fIsNaN (fAdd q a b) = true ∧ fIsNaN (fSub q a b) = true ∧ fIsNaN (fMul q a b) = true ∧
      fIsNaN (fDiv q a b) = true) ∧
  (∀ (q q' : Draw) (a b : F),
    (fIsNaN (fAdd q a b) = false → fAdd q' a b = fAdd q a b) ∧
    (fIsNaN (fSub q a b) = false → fSub q' a b = fSub q a b) ∧
    (fIsNaN (fMul q a b) = false → fMul q' a b = fMul q a b) ∧
    (fIsNaN (fDiv q a b) = false → fDiv q' a b = fDiv q a b))

/-- R15: the properties `EXP0`, `EXPRANGE`, `EXPNAN`, `POW1` and `POWRANGE` hold of the default functions
(which are the model's choice of the admissible ones, log entry 6); and the default power of a zero at a
positive exponent is a zero (log entry 7 says what of its sign is open). -/
def Obligations.ElementaryFunctionsKeepTheirRanges : Prop :=
  (∀ q, fexp q fZero = fOne ∧ fexp q (fNeg fZero) = fOne) ∧
  (∀ q x, fIsFinite x = true → fLt x fZero = true → fLe fZero (fexp q x) = true ∧ fLe (fexp q x) fOne = true) ∧
  (∀ q, fexp q 0xFF800000#32 = fZero) ∧
  (∀ q x, fIsNaN x = true → fIsNaN (fexp q x) = true) ∧
  (∀ b, fpow b fOne = b) ∧
  (∀ b e, fLt fZero b = true → fLt b fOne = true → fLt fZero e = true → fLe e fOne = true →
    fLe b (fpow b e) = true ∧ fLe (fpow b e) fOne = true) ∧
  (∀ b e, fIsZero b = true → fIsFinite e = true → fLt fZero e = true → fEq (fpow b e) fZero = true)

/-! ### The whole machine -/

/-- The invariants hold right after reset. -/
def Obligations.ResetStateKeepsTheInvariants : Prop := State.reset.inv

/-- From every state that keeps the invariants, every run of any length answers a next state, no fault and
no refusal, that keeps them. -/
def Obligations.EveryRunKeepsTheInvariants : Prop :=
  ∀ (n : Nat) (s : State), s.inv → ∃ t, Sys2Proof.core.run n s = .next t ∧ State.inv t

/-- R202: units at their reset values answer `+0` and stay as they are: phasor, oscillator, string. -/
def Obligations.UnconfiguredUnitsAreSilent : Prop :=
  ∀ s : State, s.capMax ≤ 2 ^ 24 →
    (∀ k : BitVec 8, ∀ h : k.toNat < s.ph.length, s.ph[k.toNat] = Phasor.reset →
      exec (.phProc k) s = .next (s.respond fZero .ok)) ∧
    (∀ k : BitVec 8, ∀ h : k.toNat < s.cy.length, s.cy[k.toNat] = Phasor.reset →
      exec (.cyProc k) s = .next (s.respond fZero .ok)) ∧
    (∀ k : BitVec 8, ∀ g : F, ∀ h : k.toNat < s.ks.length, s.ks[k.toNat] = Voice.reset s.capMax →
      exec (.ksPluck k g) s = .next (s.respond fZero .ok)) ∧
    (∀ k : BitVec 8, ∀ h : k.toNat < s.ks.length, ∀ n < s.capMax,
      s.ks[k.toNat] = { Voice.reset s.capMax with line := { DelayLine.reset s.capMax with index := n } } →
      exec (.ksProc k) s = .next ({ s with
        ks := s.ks.set k.toNat { Voice.reset s.capMax with
          line := { DelayLine.reset s.capMax with index := (n + 1) % s.capMax } } }.respond fZero .ok))
end

