-- ==== Sys2Proof/Laws/Arith.lean ====
section
/-! SUPPORT. Laws of the `F` arithmetic: rounding is monotone, exact on the values `F` holds, and so
keeps every bound that an `F` value states. -/

namespace Sys2Proof.Machine

/-! ### Fields of a packed word -/

theorem fMag_lt (x : F) : fMag x < 2 ^ 31 := Nat.mod_lt _ (by decide)

theorem fMag_pack (neg : Bool) {m : Nat} (h : m < 2 ^ 31) : fMag (fPack neg m) = m := by
  cases neg <;> simp [fMag, fPack] <;> omega

theorem fSign_pack (neg : Bool) {m : Nat} (h : m < 2 ^ 31) : fSign (fPack neg m) = neg := by
  cases neg <;> simp [fSign, fPack, BitVec.msb_eq_decide] <;> omega

theorem fPack_fields (x : F) : fPack (fSign x) (fMag x) = x := by
  have hx : x.toNat < 2 ^ 32 := x.isLt
  apply BitVec.eq_of_toNat_eq
  by_cases h : fSign x
  · have h' : 2 ^ 31 ≤ x.toNat := by simpa [fSign, BitVec.msb_eq_decide] using h
    simp only [fPack, h, fMag, BitVec.toNat_ofNat, if_true]
    omega
  · have h' : x.toNat < 2 ^ 31 := by simpa [fSign, BitVec.msb_eq_decide] using h
    simp only [fPack, h, fMag, BitVec.toNat_ofNat]
    simp
    omega

theorem fNeg_eq (x : F) : fNeg x = fPack (!fSign x) (fMag x) := by
  have h1 : fSign (fNeg x) = !fSign x := by
    simp only [fSign, fNeg, BitVec.msb_xor, show (0x80000000#32).msb = true from by decide]
    cases x.msb <;> rfl
  have h2 : fMag (fNeg x) = fMag x := by
    simp only [fMag, fNeg, BitVec.toNat_xor]
    rw [Nat.xor_mod_two_pow]
    simp
  rw [← fPack_fields (fNeg x), h1, h2]

@[simp] theorem fSign_neg (x : F) : fSign (fNeg x) = !fSign x := by
  rw [fNeg_eq, fSign_pack _ (fMag_lt x)]

@[simp] theorem fMag_neg (x : F) : fMag (fNeg x) = fMag x := by
  rw [fNeg_eq, fMag_pack _ (fMag_lt x)]

/-! ### NaN results -/

theorem infMag_lt : infMag < 2 ^ 31 := by decide

/-- The free NaN is a NaN, whatever is drawn. -/
@[simp] theorem fIsNaN_fNaN (q : Draw) : fIsNaN (fNaN q) = true := by
  have h : max 1 (q.word.toNat % 2 ^ 23) < 2 ^ 23 := by
    have := Nat.mod_lt q.word.toNat (show 2 ^ 23 > 0 by decide); omega
  have hm : fMag (fNaN q) = infMag + max 1 (q.word.toNat % 2 ^ 23) :=
    fMag_pack _ (by simp only [infMag]; omega)
  simp only [fIsNaN, hm, decide_eq_true_eq]
  omega

/-- A finite value is no NaN. -/
theorem not_nan_of_finite {x : F} (h : fIsFinite x = true) : fIsNaN x = false := by
  simp only [fIsFinite, fIsNaN, decide_eq_true_eq, decide_eq_false_iff_not] at *; omega

/-! ### Rounding to an integer -/

theorem roundHalfEven_le (n d : Nat) : roundHalfEven n d ≤ n / d + 1 := by
  unfold roundHalfEven; split <;> omega

theorem le_roundHalfEven (n d : Nat) : n / d ≤ roundHalfEven n d := by
  unfold roundHalfEven; split <;> omega

theorem roundHalfEven_mul {d : Nat} (m : Nat) (h : 0 < d) : roundHalfEven (m * d) d = m := by
  unfold roundHalfEven
  rw [Nat.mul_mod_left, Nat.mul_div_cancel _ h]
  split <;> omega

/-- The integer parts of two fractions are in their order. -/
theorem div_le_div_of_cross {n₁ d₁ n₂ d₂ : Nat} (h₁ : 0 < d₁) (h₂ : 0 < d₂) (h : n₁ * d₂ ≤ n₂ * d₁) :
    n₁ / d₁ ≤ n₂ / d₂ := by
  rw [Nat.le_div_iff_mul_le h₂]
  apply Nat.le_of_mul_le_mul_right _ h₁
  calc n₁ / d₁ * d₂ * d₁ = n₁ / d₁ * d₁ * d₂ := by ring
    _ ≤ n₁ * d₂ := Nat.mul_le_mul_right _ (Nat.div_mul_le_self n₁ d₁)
    _ ≤ n₂ * d₁ := h

/-- Rounding to an integer keeps the order of two fractions. -/
theorem roundHalfEven_mono {n₁ d₁ n₂ d₂ : Nat} (h₁ : 0 < d₁) (h₂ : 0 < d₂) (h : n₁ * d₂ ≤ n₂ * d₁) :
    roundHalfEven n₁ d₁ ≤ roundHalfEven n₂ d₂ := by
  have hq := div_le_div_of_cross h₁ h₂ h
  rcases Nat.lt_or_eq_of_le hq with hlt | heq
  · exact (roundHalfEven_le _ _).trans (hlt.trans_le (le_roundHalfEven _ _))
  · have e₁ := Nat.div_add_mod n₁ d₁
    have e₂ := Nat.div_add_mod n₂ d₂
    unfold roundHalfEven
    rw [heq] at e₁ ⊢
    generalize n₂ / d₂ = a at *
    generalize n₁ % d₁ = r₁ at *
    generalize n₂ % d₂ = r₂ at *
    have hr : r₁ * d₂ ≤ r₂ * d₁ := by subst e₁ e₂; nlinarith
    split
    · rename_i hup
      have : d₂ < 2 * r₂ ∨ d₂ = 2 * r₂ ∧ a % 2 = 1 := by
        rcases hup with hgt | ⟨heq', hodd⟩
        · left
          by_contra hc
          have : 2 * r₂ * d₁ ≤ d₂ * d₁ := Nat.mul_le_mul_right _ (by omega)
          have : d₁ * d₂ < 2 * r₁ * d₂ := Nat.mul_lt_mul_of_pos_right hgt h₂
          nlinarith
        · rcases Nat.lt_trichotomy d₂ (2 * r₂) with hl | he | hg
          · exact .inl hl
          · exact .inr ⟨he, hodd⟩
          · exfalso
            have : 2 * r₂ * d₁ < d₂ * d₁ := Nat.mul_lt_mul_of_pos_right hg h₁
            nlinarith
      rw [if_pos this]
    · split <;> omega

/-! ### Rounding to 24 significant bits -/

/-- The significand before rounding has at most 24 bits. -/
theorem significand_lt (n d : Nat) : n / d / 2 ^ (Nat.log2 (n / d) - 23) < 2 ^ 24 := by
  have h : n / d < 2 ^ (Nat.log2 (n / d) + 1) := Nat.lt_log2_self
  rw [Nat.div_lt_iff_lt_mul (by positivity), ← Nat.pow_add]
  exact h.trans_le (Nat.pow_le_pow_right (by decide) (by omega))

/-- Above the lowest range the significand has 24 bits. -/
theorem le_significand {n d : Nat} (h : 0 < Nat.log2 (n / d) - 23) :
    2 ^ 23 ≤ n / d / 2 ^ (Nat.log2 (n / d) - 23) := by
  have hne : n / d ≠ 0 := by intro h0; rw [h0] at h; simp at h
  rw [Nat.le_div_iff_mul_le (by positivity), ← Nat.pow_add,
    show 23 + (Nat.log2 (n / d) - 23) = Nat.log2 (n / d) from by omega]
  exact Nat.log2_self_le hne

/-- Rounding keeps the order of two fractions. -/
theorem roundMag_mono {n₁ d₁ n₂ d₂ : Nat} (h₁ : 0 < d₁) (h₂ : 0 < d₂) (h : n₁ * d₂ ≤ n₂ * d₁) :
    roundMag n₁ d₁ ≤ roundMag n₂ d₂ := by
  have hq := div_le_div_of_cross h₁ h₂ h
  have hlog : Nat.log2 (n₁ / d₁) ≤ Nat.log2 (n₂ / d₂) := by
    by_cases h0 : n₁ / d₁ = 0
    · rw [h0]; simp
    · rw [Nat.le_log2 ((Nat.pos_of_ne_zero h0).trans_le hq).ne']
      exact (Nat.log2_self_le h0).trans hq
  have up := roundHalfEven_le n₁ (d₁ * 2 ^ (Nat.log2 (n₁ / d₁) - 23))
  have lo := le_roundHalfEven n₂ (d₂ * 2 ^ (Nat.log2 (n₂ / d₂) - 23))
  have s₁ := significand_lt n₁ d₁
  have s₂ := @le_significand n₂ d₂
  rw [← Nat.div_div_eq_div_mul] at up lo
  apply min_le_min_right
  rcases Nat.lt_or_eq_of_le (Nat.sub_le_sub_right hlog 23) with hlt | heq
  · have s₂ := s₂ (by omega)
    omega
  · rw [heq]
    apply Nat.add_le_add_left
    apply roundHalfEven_mono (by positivity) (by positivity)
    calc n₁ * (d₂ * 2 ^ (Nat.log2 (n₂ / d₂) - 23)) = n₁ * d₂ * 2 ^ (Nat.log2 (n₂ / d₂) - 23) := by ring
      _ ≤ n₂ * d₁ * 2 ^ (Nat.log2 (n₂ / d₂) - 23) := Nat.mul_le_mul_right _ h
      _ = n₂ * (d₁ * 2 ^ (Nat.log2 (n₂ / d₂) - 23)) := by ring

theorem roundMag_le_infMag (n d : Nat) : roundMag n d ≤ infMag := min_le_right _ _

/-- The bits of a packed rounding. -/
@[simp] theorem fMag_pack_roundMag (neg : Bool) (n d : Nat) : fMag (fPack neg (roundMag n d)) = roundMag n d :=
  fMag_pack neg ((roundMag_le_infMag n d).trans_lt infMag_lt)

@[simp] theorem fSign_pack_roundMag (neg : Bool) (n d : Nat) : fSign (fPack neg (roundMag n d)) = neg :=
  fSign_pack neg ((roundMag_le_infMag n d).trans_lt infMag_lt)

/-- Rounding a value that `F` holds gives that value. -/
theorem roundMag_exact {m d : Nat} (hd : 0 < d) (hm : m ≤ infMag) : roundMag (magUnits m * d) d = m := by
  unfold roundMag
  rw [Nat.mul_div_cancel _ hd]
  by_cases h : m / 2 ^ 23 = 0
  · have hlt : m < 2 ^ 23 := by omega
    have hlog : Nat.log2 m ≤ 23 := by
      by_cases h0 : m = 0
      · subst h0; decide
      · exact ((Nat.log2_lt h0).2 hlt).le
    simp only [magUnits, h, if_true]
    rw [show Nat.log2 m - 23 = 0 from by omega]
    simp only [pow_zero, Nat.mul_one, Nat.zero_mul, Nat.zero_add, roundHalfEven_mul m hd]
    exact min_eq_left hm
  · simp only [magUnits, h, if_false]
    have hf := Nat.mod_lt m (show 2 ^ 23 > 0 by decide)
    have hlog : Nat.log2 ((2 ^ 23 + m % 2 ^ 23) * 2 ^ (m / 2 ^ 23 - 1)) = 23 + (m / 2 ^ 23 - 1) := by
      rw [Nat.log2_eq_iff (by positivity)]
      constructor
      · rw [Nat.pow_add]; exact Nat.mul_le_mul_right _ (by omega)
      · rw [show 23 + (m / 2 ^ 23 - 1) + 1 = 24 + (m / 2 ^ 23 - 1) from by omega, Nat.pow_add]
        exact Nat.mul_lt_mul_of_pos_right (by omega) (by positivity)
    rw [hlog, show 23 + (m / 2 ^ 23 - 1) - 23 = m / 2 ^ 23 - 1 from by omega,
      Nat.mul_assoc, Nat.mul_comm (2 ^ (m / 2 ^ 23 - 1)) d, roundHalfEven_mul _ (by positivity)]
    rw [min_eq_left] <;> omega

/-- A bound that `F` holds survives rounding. -/
theorem roundMag_le {n d m : Nat} (hd : 0 < d) (hm : m ≤ infMag) (h : n ≤ magUnits m * d) : roundMag n d ≤ m := by
  calc roundMag n d ≤ roundMag (magUnits m * d) d := roundMag_mono hd hd (Nat.mul_le_mul_right _ h)
    _ = m := roundMag_exact hd hm

/-- A lower bound that `F` holds survives rounding. -/
theorem le_roundMag {n d m : Nat} (hd : 0 < d) (hm : m ≤ infMag) (h : magUnits m * d ≤ n) : m ≤ roundMag n d := by
  calc m = roundMag (magUnits m * d) d := (roundMag_exact hd hm).symm
    _ ≤ roundMag n d := roundMag_mono hd hd (Nat.mul_le_mul_right _ h)

/-- Magnitudes in units are ordered as their bits are. -/
theorem magUnits_strictMono {m m' : Nat} (h : m < m') : magUnits m < magUnits m' := by
  unfold magUnits
  have hf := Nat.mod_lt m (show 2 ^ 23 > 0 by decide)
  have hf' := Nat.mod_lt m' (show 2 ^ 23 > 0 by decide)
  split <;> split
  · exact h
  · have : (2 ^ 23 + m' % 2 ^ 23) * 1 ≤ (2 ^ 23 + m' % 2 ^ 23) * 2 ^ (m' / 2 ^ 23 - 1) :=
      Nat.mul_le_mul_left _ Nat.one_le_two_pow
    omega
  · omega
  · rcases Nat.lt_or_eq_of_le (Nat.div_le_div_right (c := 2 ^ 23) h.le) with hlt | heq
    · have h1 : 2 ^ (m / 2 ^ 23 - 1) * 2 ≤ 2 ^ (m' / 2 ^ 23 - 1) := by
        rw [← Nat.pow_succ]; exact Nat.pow_le_pow_right (by decide) (by omega)
      calc (2 ^ 23 + m % 2 ^ 23) * 2 ^ (m / 2 ^ 23 - 1)
          < (2 ^ 23 * 2) * 2 ^ (m / 2 ^ 23 - 1) := Nat.mul_lt_mul_of_pos_right (by omega) (by positivity)
        _ = 2 ^ 23 * (2 ^ (m / 2 ^ 23 - 1) * 2) := by ring
        _ ≤ (2 ^ 23 + m' % 2 ^ 23) * 2 ^ (m' / 2 ^ 23 - 1) := Nat.mul_le_mul (by omega) h1
    · rw [heq]; exact Nat.mul_lt_mul_of_pos_right (by omega) (by positivity)

theorem magUnits_le_iff {m m' : Nat} : magUnits m ≤ magUnits m' ↔ m ≤ m' :=
  StrictMono.le_iff_le (fun _ _ h => magUnits_strictMono h)

theorem magUnits_lt_iff {m m' : Nat} : magUnits m < magUnits m' ↔ m < m' :=
  StrictMono.lt_iff_lt (fun _ _ h => magUnits_strictMono h)

/-! ### The order of values -/

/-- On values that are not NaN the order by bits is the order by units. -/
theorem fKey_le_iff (x y : F) : fKey x ≤ fKey y ↔ fUnits x ≤ fUnits y := by
  have h0 : magUnits 0 = 0 := by decide
  have hx : magUnits 0 ≤ magUnits (fMag x) := magUnits_le_iff.2 (Nat.zero_le _)
  have hy : magUnits 0 ≤ magUnits (fMag y) := magUnits_le_iff.2 (Nat.zero_le _)
  have zx : magUnits (fMag x) ≤ magUnits 0 ↔ fMag x ≤ 0 := magUnits_le_iff
  have zy : magUnits (fMag y) ≤ magUnits 0 ↔ fMag y ≤ 0 := magUnits_le_iff
  have xy : magUnits (fMag x) ≤ magUnits (fMag y) ↔ fMag x ≤ fMag y := magUnits_le_iff
  have yx : magUnits (fMag y) ≤ magUnits (fMag x) ↔ fMag y ≤ fMag x := magUnits_le_iff
  unfold fKey fUnits
  split <;> split <;> omega

theorem fKey_lt_iff (x y : F) : fKey x < fKey y ↔ fUnits x < fUnits y := by
  have := fKey_le_iff y x; omega

/-- `a ≤ b` of finite values, by units. -/
theorem fLe_iff_units {a b : F} (ha : fIsNaN a = false) (hb : fIsNaN b = false) :
    fLe a b = true ↔ fUnits a ≤ fUnits b := by
  simp [fLe, ha, hb, fKey_le_iff]

/-- `a < b` of finite values, by units. -/
theorem fLt_iff_units {a b : F} (ha : fIsNaN a = false) (hb : fIsNaN b = false) :
    fLt a b = true ↔ fUnits a < fUnits b := by
  simp [fLt, ha, hb, fKey_lt_iff]

end Sys2Proof.Machine
end

