-- ==== Sys2Proof/Laws/Bounds.lean ====
section
/-! SUPPORT. What the `F` operations answer on finite operands, and the bounds their results keep. -/

namespace Sys2Proof.Machine

/-! ### Kinds of values -/

theorem fIsFinite_iff (x : F) : fIsFinite x = true ↔ fMag x < infMag := by simp [fIsFinite]

theorem fIsNaN_iff (x : F) : fIsNaN x = true ↔ infMag < fMag x := by simp [fIsNaN]

theorem fIsNaN_false_iff (x : F) : fIsNaN x = false ↔ fMag x ≤ infMag := by simp [fIsNaN]

theorem not_inf_of_finite {x : F} (h : fIsFinite x = true) : fIsInf x = false := by
  simp only [fIsFinite, fIsInf, decide_eq_true_eq, decide_eq_false_iff_not] at *; omega

theorem fUnits_pack (neg : Bool) {m : Nat} (h : m < 2 ^ 31) :
    fUnits (fPack neg m) = if neg then -(magUnits m : Int) else (magUnits m : Int) := by
  simp [fUnits, fMag_pack neg h, fSign_pack neg h]

@[simp] theorem fUnits_neg (x : F) : fUnits (fNeg x) = -fUnits x := by
  simp only [fUnits, fSign_neg, fMag_neg]
  cases fSign x <;> simp

theorem fUnits_natAbs (x : F) : (fUnits x).natAbs = magUnits (fMag x) := by
  unfold fUnits; split <;> simp

theorem magUnits_eq_zero {m : Nat} : magUnits m = 0 ↔ m = 0 := by
  constructor
  · intro h
    by_contra hc
    have := magUnits_strictMono (show 0 < m by omega)
    omega
  · rintro rfl; decide

theorem fUnits_eq_zero (x : F) : fUnits x = 0 ↔ fIsZero x = true := by
  rw [← Int.natAbs_eq_zero, fUnits_natAbs, magUnits_eq_zero]
  simp [fIsZero]

/-! ### Addition -/

/-- The sum of finite values: no NaN is drawn. -/
theorem fAdd_finite (q : Draw) {a b : F} (ha : fIsFinite a = true) (hb : fIsFinite b = true) :
    fAdd q a b = if fUnits a + fUnits b = 0 then fPack (fSign a && fSign b) 0 else fOfUnits (fUnits a + fUnits b) := by
  simp [fAdd, not_nan_of_finite ha, not_nan_of_finite hb, not_inf_of_finite ha, not_inf_of_finite hb]

/-- The value of a rounded sum, at most an infinity. -/
theorem fOfUnits_notNaN (u : Int) : fIsNaN (fOfUnits u) = false := by
  rw [fIsNaN_false_iff, fOfUnits, fMag_pack_roundMag]
  exact roundMag_le_infMag _ _

theorem fOfUnits_le {u : Int} {c : F} (hc : fIsNaN c = false) (h : u ≤ fUnits c) : fUnits (fOfUnits u) ≤ fUnits c := by
  have hci := (fIsNaN_false_iff c).1 hc
  have hr := roundMag_le_infMag u.natAbs 1
  rw [fOfUnits, fUnits_pack _ (hr.trans_lt infMag_lt)]
  by_cases hu : u < 0
  · simp only [hu, decide_true, if_true]
    by_cases hs : fSign c
    · have hc' : fUnits c = -(magUnits (fMag c) : Int) := by simp [fUnits, hs]
      have : fMag c ≤ roundMag u.natAbs 1 := le_roundMag Nat.one_pos hci (by omega)
      have := magUnits_le_iff.2 this
      omega
    · have hc' : fUnits c = (magUnits (fMag c) : Int) := by simp [fUnits, hs]
      omega
  · simp only [hu, decide_false]
    by_cases hs : fSign c
    · have hc' : fUnits c = -(magUnits (fMag c) : Int) := by simp [fUnits, hs]
      have h0 : u = 0 := by omega
      subst h0
      have : roundMag 0 1 = 0 := by decide
      simp only [Int.natAbs_zero, this]
      have : magUnits 0 = 0 := by decide
      simp [this]
      omega
    · have hc' : fUnits c = (magUnits (fMag c) : Int) := by simp [fUnits, hs]
      have : roundMag u.natAbs 1 ≤ fMag c := roundMag_le Nat.one_pos hci (by omega)
      have := magUnits_le_iff.2 this
      simp
      omega

theorem fOfUnits_neg {u : Int} (h : u ≠ 0) : fUnits (fOfUnits (-u)) = -fUnits (fOfUnits u) := by
  have hr := (roundMag_le_infMag u.natAbs 1).trans_lt infMag_lt
  simp only [fOfUnits, Int.natAbs_neg, fUnits_pack _ hr]
  by_cases hu : u < 0
  · simp [hu, show ¬ 0 < u by omega]
  · simp [hu, show 0 < u by omega]

theorem le_fOfUnits {u : Int} {c : F} (hc : fIsNaN c = false) (h : fUnits c ≤ u) : fUnits c ≤ fUnits (fOfUnits u) := by
  by_cases h0 : u = 0
  · subst h0
    have : fUnits (fOfUnits 0) = 0 := by decide
    omega
  · have := fOfUnits_le (u := -u) (c := fNeg c) (by simpa [fIsNaN] using hc) (by simp; omega)
    rw [fOfUnits_neg h0, fUnits_neg] at this
    omega

/-- An exact sum that `F` holds is the sum. -/
theorem fOfUnits_exact {u : Int} {c : F} (hc : fIsNaN c = false) (h : u = fUnits c) :
    fUnits (fOfUnits u) = fUnits c :=
  Int.le_antisymm (fOfUnits_le hc h.le) (le_fOfUnits hc h.ge)

/-- A finite sum is no NaN. -/
theorem fAdd_notNaN (q : Draw) {a b : F} (ha : fIsFinite a = true) (hb : fIsFinite b = true) :
    fIsNaN (fAdd q a b) = false := by
  rw [fAdd_finite q ha hb]
  split
  · cases fSign a && fSign b <;> decide
  · exact fOfUnits_notNaN _

/-- The value of a finite sum is the rounding of the exact sum. -/
theorem fUnits_fAdd (q : Draw) {a b : F} (ha : fIsFinite a = true) (hb : fIsFinite b = true) :
    fUnits (fAdd q a b) = fUnits (fOfUnits (fUnits a + fUnits b)) := by
  rw [fAdd_finite q ha hb]
  split
  · rename_i h
    rw [h]
    cases fSign a && fSign b <;> decide
  · rfl

/-- A bound that `F` holds survives the addition. -/
theorem fAdd_le (q : Draw) {a b c : F} (ha : fIsFinite a = true) (hb : fIsFinite b = true) (hc : fIsNaN c = false)
    (h : fUnits a + fUnits b ≤ fUnits c) : fLe (fAdd q a b) c = true := by
  rw [fLe_iff_units (fAdd_notNaN q ha hb) hc, fUnits_fAdd q ha hb]
  exact fOfUnits_le hc h

/-- A lower bound that `F` holds survives the addition. -/
theorem le_fAdd (q : Draw) {a b c : F} (ha : fIsFinite a = true) (hb : fIsFinite b = true) (hc : fIsNaN c = false)
    (h : fUnits c ≤ fUnits a + fUnits b) : fLe c (fAdd q a b) = true := by
  rw [fLe_iff_units hc (fAdd_notNaN q ha hb), fUnits_fAdd q ha hb]
  exact le_fOfUnits hc h

/-! ### Multiplication and division -/

/-- The product of finite values: no NaN is drawn. -/
theorem fMul_finite (q : Draw) {a b : F} (ha : fIsFinite a = true) (hb : fIsFinite b = true) :
    fMul q a b = fPack (fSign a != fSign b) (roundMag (magUnits (fMag a) * magUnits (fMag b)) (2 ^ 149)) := by
  simp [fMul, not_nan_of_finite ha, not_nan_of_finite hb, not_inf_of_finite ha, not_inf_of_finite hb]

/-- The quotient of finite values, the divisor not zero. -/
theorem fDiv_finite (q : Draw) {a b : F} (ha : fIsFinite a = true) (hb : fIsFinite b = true) (h0 : fIsZero b = false) :
    fDiv q a b = fPack (fSign a != fSign b) (roundMag (magUnits (fMag a) * 2 ^ 149) (magUnits (fMag b))) := by
  simp [fDiv, not_nan_of_finite ha, not_nan_of_finite hb, not_inf_of_finite ha, not_inf_of_finite hb, h0]

end Sys2Proof.Machine
end

