-- ==== Sys2Proof/Laws/Encoding.lean ====
section
/-! SUPPORT. The fields of an encoded command word, and of the command a number stands for. -/

namespace Sys2Proof

@[simp] theorem op_packWord (op k i j : BitVec 8) (a b : Word) : Command.op ⟨packWord op k i j, a, b⟩ = op := by
  simp only [Command.op, packWord]
  apply BitVec.eq_of_getLsbD_eq
  intro n hn
  simp only [BitVec.getLsbD_extractLsb', BitVec.getLsbD_append]
  simp [hn, show ¬ 24 + n < 8 by omega, show ¬ 24 + n - 8 < 8 by omega, show ¬ 24 + n - 8 - 8 < 8 by omega,
    show 24 + n - 8 - 8 - 8 = n by omega]

@[simp] theorem inst_packWord (op k i j : BitVec 8) (a b : Word) : Command.inst ⟨packWord op k i j, a, b⟩ = k := by
  simp only [Command.inst, packWord]
  apply BitVec.eq_of_getLsbD_eq
  intro n hn
  simp only [BitVec.getLsbD_extractLsb', BitVec.getLsbD_append]
  simp [hn, show ¬ 16 + n < 8 by omega, show ¬ 16 + n - 8 < 8 by omega,
    show 16 + n - 8 - 8 = n by omega]

@[simp] theorem i_packWord (op k i j : BitVec 8) (a b : Word) : Command.i ⟨packWord op k i j, a, b⟩ = i := by
  simp only [Command.i, packWord]
  apply BitVec.eq_of_getLsbD_eq
  intro n hn
  simp only [BitVec.getLsbD_extractLsb', BitVec.getLsbD_append]
  simp [hn, show ¬ 8 + n < 8 by omega, show 8 + n - 8 = n by omega]

@[simp] theorem j_packWord (op k i j : BitVec 8) (a b : Word) : Command.j ⟨packWord op k i j, a, b⟩ = j := by
  simp only [Command.j, packWord]
  apply BitVec.eq_of_getLsbD_eq
  intro n hn
  simp only [BitVec.getLsbD_extractLsb', BitVec.getLsbD_append]
  simp [hn]

end Sys2Proof
end

