-- ==== Sys2Proof/Laws/Memory.lean ====
section
/-! SUPPORT. Laws of the sample RAMs and the delay lines: read after write, and that every operation
keeps the canonical form. -/

namespace Sys2Proof.Machine

/-! ### Sample RAMs -/

theorem Memory.wfFrom_mono {lo lo' : Nat} (h : lo' ≤ lo) {m : Memory} (hm : Memory.wfFrom lo m = true) :
    Memory.wfFrom lo' m = true := by
  cases m with
  | nil => rfl
  | cons e m =>
    obtain ⟨b, w⟩ := e
    simp only [Memory.wfFrom, Bool.and_eq_true, decide_eq_true_eq] at *
    exact ⟨⟨h.trans hm.1.1, hm.1.2⟩, hm.2⟩

/-- Below the first address there is nothing but `+0`. -/
theorem Memory.read_below {lo a : Nat} {m : Memory} (hm : Memory.wfFrom lo m = true) (h : a < lo) :
    Memory.read m a = fZero := by
  induction m generalizing lo with
  | nil => rfl
  | cons e m ih =>
    obtain ⟨b, w⟩ := e
    simp only [Memory.wfFrom, Bool.and_eq_true, decide_eq_true_eq] at hm
    simp only [Memory.read, if_neg (show a ≠ b by omega)]
    exact ih hm.2 (by omega)

theorem Memory.read_write_same_from {lo : Nat} {m : Memory} (hm : Memory.wfFrom lo m = true) (a : Nat) (v : F) :
    Memory.read (Memory.write m a v) a = v := by
  induction m generalizing lo with
  | nil => by_cases hv : v = fZero <;> simp [Memory.write, Memory.read, hv]
  | cons e m ih =>
    obtain ⟨b, w⟩ := e
    simp only [Memory.wfFrom, Bool.and_eq_true, decide_eq_true_eq] at hm
    simp only [Memory.write]
    split
    · rename_i hab
      split
      · rename_i hv
        rw [hv]
        exact Memory.read_below (lo := b) (by simp [Memory.wfFrom, hm.1.2, hm.2]) hab
      · simp [Memory.read]
    · split
      · rename_i hab
        split
        · rename_i hv
          rw [hv]
          exact Memory.read_below hm.2 (by omega)
        · simp [Memory.read]
      · rename_i hab
        simp only [Memory.read, if_neg hab]
        exact ih hm.2

/-- Reading the word just written gives it. -/
theorem Memory.read_write_same {m : Memory} (hm : Memory.wf m = true) (a : Nat) (v : F) :
    Memory.read (Memory.write m a v) a = v :=
  Memory.read_write_same_from hm a v

/-- A write leaves every other word as it was. -/
theorem Memory.read_write_other {m : Memory} {a a' : Nat} (h : a' ≠ a) (v : F) :
    Memory.read (Memory.write m a v) a' = Memory.read m a' := by
  induction m with
  | nil => by_cases hv : v = fZero <;> simp [Memory.write, Memory.read, hv, h]
  | cons e m ih =>
    obtain ⟨b, w⟩ := e
    simp only [Memory.write]
    split
    · split
      · rfl
      · simp [Memory.read, h]
    · split
      · rename_i hab
        subst hab
        split <;> simp [Memory.read, h]
      · simp only [Memory.read, ih]

theorem Memory.wfFrom_write {lo : Nat} {m : Memory} (hm : Memory.wfFrom lo m = true) {a : Nat} (ha : lo ≤ a) (v : F) :
    Memory.wfFrom lo (Memory.write m a v) = true := by
  induction m generalizing lo with
  | nil =>
    by_cases hv : v = fZero <;> simp [Memory.write, Memory.wfFrom, hv, ha]
  | cons e m ih =>
    obtain ⟨b, w⟩ := e
    have hm' := hm
    simp only [Memory.wfFrom, Bool.and_eq_true, decide_eq_true_eq] at hm
    simp only [Memory.write]
    split
    · rename_i hab
      split
      · exact hm'
      · rename_i hv
        have : a + 1 ≤ b := hab
        simp [Memory.wfFrom, ha, hv, hm.1.2, hm.2, this]
    · split
      · rename_i hab
        subst hab
        split
        · exact Memory.wfFrom_mono (by omega) hm.2
        · rename_i hv
          simp [Memory.wfFrom, ha, hv, hm.2]
      · simp only [Memory.wfFrom, Bool.and_eq_true, decide_eq_true_eq]
        exact ⟨hm.1, ih hm.2 (by omega)⟩

/-- A write keeps the canonical form. -/
theorem Memory.wf_write {m : Memory} (hm : Memory.wf m = true) (a : Nat) (v : F) :
    Memory.wf (Memory.write m a v) = true :=
  Memory.wfFrom_write hm (Nat.zero_le a) v

/-- A write below a bound lists no address at or above it. -/
theorem Memory.all_lt_write {m : Memory} {n a : Nat} (h : m.all (fun e => decide (e.1 < n)) = true) (ha : a < n)
    (v : F) : (Memory.write m a v).all (fun e => decide (e.1 < n)) = true := by
  induction m with
  | nil => by_cases hv : v = fZero <;> simp [Memory.write, hv, ha]
  | cons e m ih =>
    obtain ⟨b, w⟩ := e
    simp only [List.all_cons, Bool.and_eq_true, decide_eq_true_eq] at h
    simp only [Memory.write]
    split
    · split
      · simpa using h
      · simpa [ha] using h
    · split
      · split
        · exact h.2
        · simpa [ha] using h.2
      · simp only [List.all_cons, Bool.and_eq_true, decide_eq_true_eq]
        exact ⟨h.1, ih h.2⟩

/-- Two RAMs in canonical form with the same words are the same list. -/
theorem Memory.ext_of_read {lo : Nat} {m m' : Memory} (hm : Memory.wfFrom lo m = true) (hm' : Memory.wfFrom lo m' = true)
    (h : ∀ a, Memory.read m a = Memory.read m' a) : m = m' := by
  induction m generalizing lo m' with
  | nil =>
    cases m' with
    | nil => rfl
    | cons e m' =>
      obtain ⟨b, w⟩ := e
      simp only [Memory.wfFrom, Bool.and_eq_true, decide_eq_true_eq] at hm'
      have := h b
      simp only [Memory.read, if_true] at this
      exact absurd this.symm hm'.1.2
  | cons e m ih =>
    obtain ⟨b, w⟩ := e
    have hmc := hm
    simp only [Memory.wfFrom, Bool.and_eq_true, decide_eq_true_eq] at hm
    cases m' with
    | nil =>
      have := h b
      simp only [Memory.read, if_true] at this
      exact absurd this hm.1.2
    | cons e' m' =>
      obtain ⟨b', w'⟩ := e'
      have hmc' := hm'
      simp only [Memory.wfFrom, Bool.and_eq_true, decide_eq_true_eq] at hm'
      have hb : b = b' := by
        rcases Nat.lt_trichotomy b b' with hlt | heq | hgt
        · have := h b
          rw [Memory.read_below (lo := b') (m := (b', w') :: m')
            (by simp [Memory.wfFrom, hm'.1.2, hm'.2]) hlt] at this
          simp only [Memory.read, if_true] at this
          exact absurd this hm.1.2
        · exact heq
        · have := h b'
          rw [Memory.read_below (lo := b) (m := (b, w) :: m)
            (by simp [Memory.wfFrom, hm.1.2, hm.2]) hgt] at this
          simp only [Memory.read, if_true] at this
          exact absurd this.symm hm'.1.2
      subst hb
      have hw : w = w' := by simpa [Memory.read] using h b
      subst hw
      congr 1
      apply ih hm.2 hm'.2
      intro a
      by_cases ha : a = b
      · subst ha
        rw [Memory.read_below hm.2 (by omega), Memory.read_below hm'.2 (by omega)]
      · simpa [Memory.read, ha] using h a

/-! ### Delay lines -/

/-- What a well-formed line is. -/
theorem DelayLine.wf_iff (cm : Nat) (l : DelayLine) :
    l.wf cm = true ↔ l.index < l.capacity ∧ l.capacity ≤ cm ∧ Memory.wf l.buf = true ∧
      l.buf.all (fun e => decide (e.1 < l.capacity)) = true := by
  simp only [DelayLine.wf, Bool.and_eq_true, decide_eq_true_eq]
  tauto

@[simp] theorem lineWrite_capacity (l : DelayLine) (v : F) : (lineWrite l v).capacity = l.capacity := rfl

@[simp] theorem lineWrite_index (l : DelayLine) (v : F) :
    (lineWrite l v).index = (l.index + 1) % l.capacity := rfl

@[simp] theorem lineWrite_buf (l : DelayLine) (v : F) :
    (lineWrite l v).buf = Memory.write l.buf l.index v := rfl

@[simp] theorem lineClear_capacity (c : Nat) : (lineClear c).capacity = c := rfl
@[simp] theorem lineClear_index (c : Nat) : (lineClear c).index = 0 := rfl
@[simp] theorem lineClear_buf (c : Nat) : (lineClear c).buf = [] := rfl

/-- A cleared line of a capacity in range is well formed. -/
theorem lineClear_wf {cm c : Nat} (h1 : 1 ≤ c) (h2 : c ≤ cm) : (lineClear c).wf cm = true := by
  rw [DelayLine.wf_iff]
  exact ⟨h1, h2, rfl, rfl⟩

/-- A write keeps a line well formed. -/
theorem lineWrite_wf {cm : Nat} {l : DelayLine} (h : l.wf cm = true) (v : F) : (lineWrite l v).wf cm = true := by
  rw [DelayLine.wf_iff] at *
  obtain ⟨h1, h2, h3, h4⟩ := h
  exact ⟨Nat.mod_lt _ (by omega), h2, Memory.wf_write h3 _ v, Memory.all_lt_write h4 h1 v⟩

@[simp] theorem lineFill_capacity (q : Draw) (g : F) (m : Nat) (us : List F) (l : DelayLine) :
    (lineFill q g m us l).capacity = l.capacity := by
  induction us generalizing m l with
  | nil => rfl
  | cons u us ih => simp [lineFill, ih]

/-- Filling keeps a line well formed. -/
theorem lineFill_wf {cm : Nat} (q : Draw) (g : F) (m : Nat) (us : List F) {l : DelayLine} (h : l.wf cm = true) :
    (lineFill q g m us l).wf cm = true := by
  induction us generalizing m l with
  | nil => exact h
  | cons u us ih => exact ih (m + 1) (lineWrite_wf h _)

end Sys2Proof.Machine
end

