-- ==== Sys2Proof/Laws/State.lean ====
section
/-! SUPPORT. One lemma per field of the state for each of its updates. -/

namespace Sys2Proof.Machine

/-! ### `State.setPh` -/

@[simp] theorem State.setPh_ph (s : State) (k : Nat) (p : Phasor) : (s.setPh k p).ph = s.ph.set k p := rfl
@[simp] theorem State.setPh_cy (s : State) (k : Nat) (p : Phasor) : (s.setPh k p).cy = s.cy := rfl
@[simp] theorem State.setPh_hi (s : State) (k : Nat) (p : Phasor) : (s.setPh k p).hi = s.hi := rfl
@[simp] theorem State.setPh_de (s : State) (k : Nat) (p : Phasor) : (s.setPh k p).de = s.de := rfl
@[simp] theorem State.setPh_op (s : State) (k : Nat) (p : Phasor) : (s.setPh k p).op = s.op := rfl
@[simp] theorem State.setPh_sl (s : State) (k : Nat) (p : Phasor) : (s.setPh k p).sl = s.sl := rfl
@[simp] theorem State.setPh_dl (s : State) (k : Nat) (p : Phasor) : (s.setPh k p).dl = s.dl := rfl
@[simp] theorem State.setPh_ks (s : State) (k : Nat) (p : Phasor) : (s.setPh k p).ks = s.ks := rfl
@[simp] theorem State.setPh_fdn (s : State) (k : Nat) (p : Phasor) : (s.setPh k p).fdn = s.fdn := rfl
@[simp] theorem State.setPh_capMax (s : State) (k : Nat) (p : Phasor) : (s.setPh k p).capMax = s.capMax := rfl
@[simp] theorem State.setPh_inputs (s : State) (k : Nat) (p : Phasor) : (s.setPh k p).inputs = s.inputs := rfl
@[simp] theorem State.setPh_inflight (s : State) (k : Nat) (p : Phasor) : (s.setPh k p).inflight = s.inflight := rfl
@[simp] theorem State.setPh_noise (s : State) (k : Nat) (p : Phasor) : (s.setPh k p).noise = s.noise := rfl
@[simp] theorem State.setPh_responses (s : State) (k : Nat) (p : Phasor) : (s.setPh k p).responses = s.responses := rfl
@[simp] theorem State.setPh_draws (s : State) (k : Nat) (p : Phasor) : (s.setPh k p).draws = s.draws := rfl

/-! ### `State.setCy` -/

@[simp] theorem State.setCy_ph (s : State) (k : Nat) (p : Phasor) : (s.setCy k p).ph = s.ph := rfl
@[simp] theorem State.setCy_cy (s : State) (k : Nat) (p : Phasor) : (s.setCy k p).cy = s.cy.set k p := rfl
@[simp] theorem State.setCy_hi (s : State) (k : Nat) (p : Phasor) : (s.setCy k p).hi = s.hi := rfl
@[simp] theorem State.setCy_de (s : State) (k : Nat) (p : Phasor) : (s.setCy k p).de = s.de := rfl
@[simp] theorem State.setCy_op (s : State) (k : Nat) (p : Phasor) : (s.setCy k p).op = s.op := rfl
@[simp] theorem State.setCy_sl (s : State) (k : Nat) (p : Phasor) : (s.setCy k p).sl = s.sl := rfl
@[simp] theorem State.setCy_dl (s : State) (k : Nat) (p : Phasor) : (s.setCy k p).dl = s.dl := rfl
@[simp] theorem State.setCy_ks (s : State) (k : Nat) (p : Phasor) : (s.setCy k p).ks = s.ks := rfl
@[simp] theorem State.setCy_fdn (s : State) (k : Nat) (p : Phasor) : (s.setCy k p).fdn = s.fdn := rfl
@[simp] theorem State.setCy_capMax (s : State) (k : Nat) (p : Phasor) : (s.setCy k p).capMax = s.capMax := rfl
@[simp] theorem State.setCy_inputs (s : State) (k : Nat) (p : Phasor) : (s.setCy k p).inputs = s.inputs := rfl
@[simp] theorem State.setCy_inflight (s : State) (k : Nat) (p : Phasor) : (s.setCy k p).inflight = s.inflight := rfl
@[simp] theorem State.setCy_noise (s : State) (k : Nat) (p : Phasor) : (s.setCy k p).noise = s.noise := rfl
@[simp] theorem State.setCy_responses (s : State) (k : Nat) (p : Phasor) : (s.setCy k p).responses = s.responses := rfl
@[simp] theorem State.setCy_draws (s : State) (k : Nat) (p : Phasor) : (s.setCy k p).draws = s.draws := rfl

/-! ### `State.setHi` -/

@[simp] theorem State.setHi_ph (s : State) (k : Nat) (x : F) : (s.setHi k x).ph = s.ph := rfl
@[simp] theorem State.setHi_cy (s : State) (k : Nat) (x : F) : (s.setHi k x).cy = s.cy := rfl
@[simp] theorem State.setHi_hi (s : State) (k : Nat) (x : F) : (s.setHi k x).hi = s.hi.set k x := rfl
@[simp] theorem State.setHi_de (s : State) (k : Nat) (x : F) : (s.setHi k x).de = s.de := rfl
@[simp] theorem State.setHi_op (s : State) (k : Nat) (x : F) : (s.setHi k x).op = s.op := rfl
@[simp] theorem State.setHi_sl (s : State) (k : Nat) (x : F) : (s.setHi k x).sl = s.sl := rfl
@[simp] theorem State.setHi_dl (s : State) (k : Nat) (x : F) : (s.setHi k x).dl = s.dl := rfl
@[simp] theorem State.setHi_ks (s : State) (k : Nat) (x : F) : (s.setHi k x).ks = s.ks := rfl
@[simp] theorem State.setHi_fdn (s : State) (k : Nat) (x : F) : (s.setHi k x).fdn = s.fdn := rfl
@[simp] theorem State.setHi_capMax (s : State) (k : Nat) (x : F) : (s.setHi k x).capMax = s.capMax := rfl
@[simp] theorem State.setHi_inputs (s : State) (k : Nat) (x : F) : (s.setHi k x).inputs = s.inputs := rfl
@[simp] theorem State.setHi_inflight (s : State) (k : Nat) (x : F) : (s.setHi k x).inflight = s.inflight := rfl
@[simp] theorem State.setHi_noise (s : State) (k : Nat) (x : F) : (s.setHi k x).noise = s.noise := rfl
@[simp] theorem State.setHi_responses (s : State) (k : Nat) (x : F) : (s.setHi k x).responses = s.responses := rfl
@[simp] theorem State.setHi_draws (s : State) (k : Nat) (x : F) : (s.setHi k x).draws = s.draws := rfl

/-! ### `State.setDe` -/

@[simp] theorem State.setDe_ph (s : State) (k : Nat) (x : F) : (s.setDe k x).ph = s.ph := rfl
@[simp] theorem State.setDe_cy (s : State) (k : Nat) (x : F) : (s.setDe k x).cy = s.cy := rfl
@[simp] theorem State.setDe_hi (s : State) (k : Nat) (x : F) : (s.setDe k x).hi = s.hi := rfl
@[simp] theorem State.setDe_de (s : State) (k : Nat) (x : F) : (s.setDe k x).de = s.de.set k x := rfl
@[simp] theorem State.setDe_op (s : State) (k : Nat) (x : F) : (s.setDe k x).op = s.op := rfl
@[simp] theorem State.setDe_sl (s : State) (k : Nat) (x : F) : (s.setDe k x).sl = s.sl := rfl
@[simp] theorem State.setDe_dl (s : State) (k : Nat) (x : F) : (s.setDe k x).dl = s.dl := rfl
@[simp] theorem State.setDe_ks (s : State) (k : Nat) (x : F) : (s.setDe k x).ks = s.ks := rfl
@[simp] theorem State.setDe_fdn (s : State) (k : Nat) (x : F) : (s.setDe k x).fdn = s.fdn := rfl
@[simp] theorem State.setDe_capMax (s : State) (k : Nat) (x : F) : (s.setDe k x).capMax = s.capMax := rfl
@[simp] theorem State.setDe_inputs (s : State) (k : Nat) (x : F) : (s.setDe k x).inputs = s.inputs := rfl
@[simp] theorem State.setDe_inflight (s : State) (k : Nat) (x : F) : (s.setDe k x).inflight = s.inflight := rfl
@[simp] theorem State.setDe_noise (s : State) (k : Nat) (x : F) : (s.setDe k x).noise = s.noise := rfl
@[simp] theorem State.setDe_responses (s : State) (k : Nat) (x : F) : (s.setDe k x).responses = s.responses := rfl
@[simp] theorem State.setDe_draws (s : State) (k : Nat) (x : F) : (s.setDe k x).draws = s.draws := rfl

/-! ### `State.setOp` -/

@[simp] theorem State.setOp_ph (s : State) (k : Nat) (p : OnePole) : (s.setOp k p).ph = s.ph := rfl
@[simp] theorem State.setOp_cy (s : State) (k : Nat) (p : OnePole) : (s.setOp k p).cy = s.cy := rfl
@[simp] theorem State.setOp_hi (s : State) (k : Nat) (p : OnePole) : (s.setOp k p).hi = s.hi := rfl
@[simp] theorem State.setOp_de (s : State) (k : Nat) (p : OnePole) : (s.setOp k p).de = s.de := rfl
@[simp] theorem State.setOp_op (s : State) (k : Nat) (p : OnePole) : (s.setOp k p).op = s.op.set k p := rfl
@[simp] theorem State.setOp_sl (s : State) (k : Nat) (p : OnePole) : (s.setOp k p).sl = s.sl := rfl
@[simp] theorem State.setOp_dl (s : State) (k : Nat) (p : OnePole) : (s.setOp k p).dl = s.dl := rfl
@[simp] theorem State.setOp_ks (s : State) (k : Nat) (p : OnePole) : (s.setOp k p).ks = s.ks := rfl
@[simp] theorem State.setOp_fdn (s : State) (k : Nat) (p : OnePole) : (s.setOp k p).fdn = s.fdn := rfl
@[simp] theorem State.setOp_capMax (s : State) (k : Nat) (p : OnePole) : (s.setOp k p).capMax = s.capMax := rfl
@[simp] theorem State.setOp_inputs (s : State) (k : Nat) (p : OnePole) : (s.setOp k p).inputs = s.inputs := rfl
@[simp] theorem State.setOp_inflight (s : State) (k : Nat) (p : OnePole) : (s.setOp k p).inflight = s.inflight := rfl
@[simp] theorem State.setOp_noise (s : State) (k : Nat) (p : OnePole) : (s.setOp k p).noise = s.noise := rfl
@[simp] theorem State.setOp_responses (s : State) (k : Nat) (p : OnePole) : (s.setOp k p).responses = s.responses := rfl
@[simp] theorem State.setOp_draws (s : State) (k : Nat) (p : OnePole) : (s.setOp k p).draws = s.draws := rfl

/-! ### `State.setSl` -/

@[simp] theorem State.setSl_ph (s : State) (k : Nat) (p : Slew) : (s.setSl k p).ph = s.ph := rfl
@[simp] theorem State.setSl_cy (s : State) (k : Nat) (p : Slew) : (s.setSl k p).cy = s.cy := rfl
@[simp] theorem State.setSl_hi (s : State) (k : Nat) (p : Slew) : (s.setSl k p).hi = s.hi := rfl
@[simp] theorem State.setSl_de (s : State) (k : Nat) (p : Slew) : (s.setSl k p).de = s.de := rfl
@[simp] theorem State.setSl_op (s : State) (k : Nat) (p : Slew) : (s.setSl k p).op = s.op := rfl
@[simp] theorem State.setSl_sl (s : State) (k : Nat) (p : Slew) : (s.setSl k p).sl = s.sl.set k p := rfl
@[simp] theorem State.setSl_dl (s : State) (k : Nat) (p : Slew) : (s.setSl k p).dl = s.dl := rfl
@[simp] theorem State.setSl_ks (s : State) (k : Nat) (p : Slew) : (s.setSl k p).ks = s.ks := rfl
@[simp] theorem State.setSl_fdn (s : State) (k : Nat) (p : Slew) : (s.setSl k p).fdn = s.fdn := rfl
@[simp] theorem State.setSl_capMax (s : State) (k : Nat) (p : Slew) : (s.setSl k p).capMax = s.capMax := rfl
@[simp] theorem State.setSl_inputs (s : State) (k : Nat) (p : Slew) : (s.setSl k p).inputs = s.inputs := rfl
@[simp] theorem State.setSl_inflight (s : State) (k : Nat) (p : Slew) : (s.setSl k p).inflight = s.inflight := rfl
@[simp] theorem State.setSl_noise (s : State) (k : Nat) (p : Slew) : (s.setSl k p).noise = s.noise := rfl
@[simp] theorem State.setSl_responses (s : State) (k : Nat) (p : Slew) : (s.setSl k p).responses = s.responses := rfl
@[simp] theorem State.setSl_draws (s : State) (k : Nat) (p : Slew) : (s.setSl k p).draws = s.draws := rfl

/-! ### `State.setDl` -/

@[simp] theorem State.setDl_ph (s : State) (k : Nat) (l : DelayLine) : (s.setDl k l).ph = s.ph := rfl
@[simp] theorem State.setDl_cy (s : State) (k : Nat) (l : DelayLine) : (s.setDl k l).cy = s.cy := rfl
@[simp] theorem State.setDl_hi (s : State) (k : Nat) (l : DelayLine) : (s.setDl k l).hi = s.hi := rfl
@[simp] theorem State.setDl_de (s : State) (k : Nat) (l : DelayLine) : (s.setDl k l).de = s.de := rfl
@[simp] theorem State.setDl_op (s : State) (k : Nat) (l : DelayLine) : (s.setDl k l).op = s.op := rfl
@[simp] theorem State.setDl_sl (s : State) (k : Nat) (l : DelayLine) : (s.setDl k l).sl = s.sl := rfl
@[simp] theorem State.setDl_dl (s : State) (k : Nat) (l : DelayLine) : (s.setDl k l).dl = s.dl.set k l := rfl
@[simp] theorem State.setDl_ks (s : State) (k : Nat) (l : DelayLine) : (s.setDl k l).ks = s.ks := rfl
@[simp] theorem State.setDl_fdn (s : State) (k : Nat) (l : DelayLine) : (s.setDl k l).fdn = s.fdn := rfl
@[simp] theorem State.setDl_capMax (s : State) (k : Nat) (l : DelayLine) : (s.setDl k l).capMax = s.capMax := rfl
@[simp] theorem State.setDl_inputs (s : State) (k : Nat) (l : DelayLine) : (s.setDl k l).inputs = s.inputs := rfl
@[simp] theorem State.setDl_inflight (s : State) (k : Nat) (l : DelayLine) : (s.setDl k l).inflight = s.inflight := rfl
@[simp] theorem State.setDl_noise (s : State) (k : Nat) (l : DelayLine) : (s.setDl k l).noise = s.noise := rfl
@[simp] theorem State.setDl_responses (s : State) (k : Nat) (l : DelayLine) : (s.setDl k l).responses = s.responses := rfl
@[simp] theorem State.setDl_draws (s : State) (k : Nat) (l : DelayLine) : (s.setDl k l).draws = s.draws := rfl

/-! ### `State.setKs` -/

@[simp] theorem State.setKs_ph (s : State) (k : Nat) (v : Voice) : (s.setKs k v).ph = s.ph := rfl
@[simp] theorem State.setKs_cy (s : State) (k : Nat) (v : Voice) : (s.setKs k v).cy = s.cy := rfl
@[simp] theorem State.setKs_hi (s : State) (k : Nat) (v : Voice) : (s.setKs k v).hi = s.hi := rfl
@[simp] theorem State.setKs_de (s : State) (k : Nat) (v : Voice) : (s.setKs k v).de = s.de := rfl
@[simp] theorem State.setKs_op (s : State) (k : Nat) (v : Voice) : (s.setKs k v).op = s.op := rfl
@[simp] theorem State.setKs_sl (s : State) (k : Nat) (v : Voice) : (s.setKs k v).sl = s.sl := rfl
@[simp] theorem State.setKs_dl (s : State) (k : Nat) (v : Voice) : (s.setKs k v).dl = s.dl := rfl
@[simp] theorem State.setKs_ks (s : State) (k : Nat) (v : Voice) : (s.setKs k v).ks = s.ks.set k v := rfl
@[simp] theorem State.setKs_fdn (s : State) (k : Nat) (v : Voice) : (s.setKs k v).fdn = s.fdn := rfl
@[simp] theorem State.setKs_capMax (s : State) (k : Nat) (v : Voice) : (s.setKs k v).capMax = s.capMax := rfl
@[simp] theorem State.setKs_inputs (s : State) (k : Nat) (v : Voice) : (s.setKs k v).inputs = s.inputs := rfl
@[simp] theorem State.setKs_inflight (s : State) (k : Nat) (v : Voice) : (s.setKs k v).inflight = s.inflight := rfl
@[simp] theorem State.setKs_noise (s : State) (k : Nat) (v : Voice) : (s.setKs k v).noise = s.noise := rfl
@[simp] theorem State.setKs_responses (s : State) (k : Nat) (v : Voice) : (s.setKs k v).responses = s.responses := rfl
@[simp] theorem State.setKs_draws (s : State) (k : Nat) (v : Voice) : (s.setKs k v).draws = s.draws := rfl

/-! ### `State.setFdn` -/

@[simp] theorem State.setFdn_ph (s : State) (k : Nat) (f : Reverb) : (s.setFdn k f).ph = s.ph := rfl
@[simp] theorem State.setFdn_cy (s : State) (k : Nat) (f : Reverb) : (s.setFdn k f).cy = s.cy := rfl
@[simp] theorem State.setFdn_hi (s : State) (k : Nat) (f : Reverb) : (s.setFdn k f).hi = s.hi := rfl
@[simp] theorem State.setFdn_de (s : State) (k : Nat) (f : Reverb) : (s.setFdn k f).de = s.de := rfl
@[simp] theorem State.setFdn_op (s : State) (k : Nat) (f : Reverb) : (s.setFdn k f).op = s.op := rfl
@[simp] theorem State.setFdn_sl (s : State) (k : Nat) (f : Reverb) : (s.setFdn k f).sl = s.sl := rfl
@[simp] theorem State.setFdn_dl (s : State) (k : Nat) (f : Reverb) : (s.setFdn k f).dl = s.dl := rfl
@[simp] theorem State.setFdn_ks (s : State) (k : Nat) (f : Reverb) : (s.setFdn k f).ks = s.ks := rfl
@[simp] theorem State.setFdn_fdn (s : State) (k : Nat) (f : Reverb) : (s.setFdn k f).fdn = s.fdn.set k f := rfl
@[simp] theorem State.setFdn_capMax (s : State) (k : Nat) (f : Reverb) : (s.setFdn k f).capMax = s.capMax := rfl
@[simp] theorem State.setFdn_inputs (s : State) (k : Nat) (f : Reverb) : (s.setFdn k f).inputs = s.inputs := rfl
@[simp] theorem State.setFdn_inflight (s : State) (k : Nat) (f : Reverb) : (s.setFdn k f).inflight = s.inflight := rfl
@[simp] theorem State.setFdn_noise (s : State) (k : Nat) (f : Reverb) : (s.setFdn k f).noise = s.noise := rfl
@[simp] theorem State.setFdn_responses (s : State) (k : Nat) (f : Reverb) : (s.setFdn k f).responses = s.responses := rfl
@[simp] theorem State.setFdn_draws (s : State) (k : Nat) (f : Reverb) : (s.setFdn k f).draws = s.draws := rfl

/-! ### `State.respond` -/

@[simp] theorem State.respond_ph (s : State) (r : F) (st : Status) : (s.respond r st).ph = s.ph := rfl
@[simp] theorem State.respond_cy (s : State) (r : F) (st : Status) : (s.respond r st).cy = s.cy := rfl
@[simp] theorem State.respond_hi (s : State) (r : F) (st : Status) : (s.respond r st).hi = s.hi := rfl
@[simp] theorem State.respond_de (s : State) (r : F) (st : Status) : (s.respond r st).de = s.de := rfl
@[simp] theorem State.respond_op (s : State) (r : F) (st : Status) : (s.respond r st).op = s.op := rfl
@[simp] theorem State.respond_sl (s : State) (r : F) (st : Status) : (s.respond r st).sl = s.sl := rfl
@[simp] theorem State.respond_dl (s : State) (r : F) (st : Status) : (s.respond r st).dl = s.dl := rfl
@[simp] theorem State.respond_ks (s : State) (r : F) (st : Status) : (s.respond r st).ks = s.ks := rfl
@[simp] theorem State.respond_fdn (s : State) (r : F) (st : Status) : (s.respond r st).fdn = s.fdn := rfl
@[simp] theorem State.respond_capMax (s : State) (r : F) (st : Status) : (s.respond r st).capMax = s.capMax := rfl
@[simp] theorem State.respond_inputs (s : State) (r : F) (st : Status) : (s.respond r st).inputs = s.inputs := rfl
@[simp] theorem State.respond_inflight (s : State) (r : F) (st : Status) : (s.respond r st).inflight = none := rfl
@[simp] theorem State.respond_noise (s : State) (r : F) (st : Status) : (s.respond r st).noise = s.noise := rfl
@[simp] theorem State.respond_responses (s : State) (r : F) (st : Status) : (s.respond r st).responses = s.responses ++ [⟨r, st⟩] := rfl
@[simp] theorem State.respond_draws (s : State) (r : F) (st : Status) : (s.respond r st).draws = s.draws + 1 := rfl

/-! ### `State.restart` -/

@[simp] theorem State.restart_ph (s : State) : s.restart.ph = List.replicate s.ph.length Phasor.reset := rfl
@[simp] theorem State.restart_cy (s : State) : s.restart.cy = List.replicate s.cy.length Phasor.reset := rfl
@[simp] theorem State.restart_hi (s : State) : s.restart.hi = List.replicate s.hi.length fZero := rfl
@[simp] theorem State.restart_de (s : State) : s.restart.de = List.replicate s.de.length fZero := rfl
@[simp] theorem State.restart_op (s : State) : s.restart.op = List.replicate s.op.length OnePole.reset := rfl
@[simp] theorem State.restart_sl (s : State) : s.restart.sl = List.replicate s.sl.length Slew.reset := rfl
@[simp] theorem State.restart_dl (s : State) : s.restart.dl = List.replicate s.dl.length (DelayLine.reset s.capMax) := rfl
@[simp] theorem State.restart_ks (s : State) : s.restart.ks = List.replicate s.ks.length (Voice.reset s.capMax) := rfl
@[simp] theorem State.restart_fdn (s : State) : s.restart.fdn = List.replicate s.fdn.length (Reverb.reset s.capMax) := rfl
@[simp] theorem State.restart_capMax (s : State) : s.restart.capMax = s.capMax := rfl
@[simp] theorem State.restart_inputs (s : State) : s.restart.inputs = s.inputs := rfl
@[simp] theorem State.restart_inflight (s : State) : s.restart.inflight = none := rfl
@[simp] theorem State.restart_noise (s : State) : s.restart.noise = [] := rfl
@[simp] theorem State.restart_responses (s : State) : s.restart.responses = s.responses := rfl
@[simp] theorem State.restart_draws (s : State) : s.restart.draws = s.draws := rfl

/-- A reset keeps the build. -/
@[simp] theorem State.restart_build (s : State) : s.restart.build = s.build := by
  simp [State.build]

/-! ### `State.present` -/

@[simp] theorem State.present_ph (s : State) (c : Command) : (s.present c).ph = s.ph := rfl
@[simp] theorem State.present_cy (s : State) (c : Command) : (s.present c).cy = s.cy := rfl
@[simp] theorem State.present_hi (s : State) (c : Command) : (s.present c).hi = s.hi := rfl
@[simp] theorem State.present_de (s : State) (c : Command) : (s.present c).de = s.de := rfl
@[simp] theorem State.present_op (s : State) (c : Command) : (s.present c).op = s.op := rfl
@[simp] theorem State.present_sl (s : State) (c : Command) : (s.present c).sl = s.sl := rfl
@[simp] theorem State.present_dl (s : State) (c : Command) : (s.present c).dl = s.dl := rfl
@[simp] theorem State.present_ks (s : State) (c : Command) : (s.present c).ks = s.ks := rfl
@[simp] theorem State.present_fdn (s : State) (c : Command) : (s.present c).fdn = s.fdn := rfl
@[simp] theorem State.present_capMax (s : State) (c : Command) : (s.present c).capMax = s.capMax := rfl
@[simp] theorem State.present_inputs (s : State) (c : Command) : (s.present c).inputs = .time :: s.inputs := rfl
@[simp] theorem State.present_inflight (s : State) (c : Command) : (s.present c).inflight = some c := rfl
@[simp] theorem State.present_noise (s : State) (c : Command) : (s.present c).noise = s.noise := rfl
@[simp] theorem State.present_responses (s : State) (c : Command) : (s.present c).responses = s.responses := rfl
@[simp] theorem State.present_draws (s : State) (c : Command) : (s.present c).draws = s.draws := rfl

end Sys2Proof.Machine
end

