-- ==== Sys2Proof/Laws/Ops.lean ====
section
/-! SUPPORT. What each shared operation can do, said once. -/

namespace Sys2Proof.Machine

@[simp] theorem vecOf_getElem {α : Type} (n : Nat) (f : Fin n → α) (i : Nat) (h : i < n) :
    (vecOf n f)[i] = f ⟨i, h⟩ := by
  simp [vecOf]

/-- A command on an instance that exists runs. -/
theorem State.onInstance_legal (s : State) {k : BitVec 8} {n : Nat} (h : k.toNat < n) (run : Fin n → Result) :
    s.onInstance k n run = run ⟨k.toNat, h⟩ := dif_pos h

/-- A command on an instance that does not exist answers `ERR_OP`. -/
theorem State.onInstance_illegal (s : State) {k : BitVec 8} {n : Nat} (h : ¬ k.toNat < n) (run : Fin n → Result) :
    s.onInstance k n run = s.cfgError .errOp := dif_neg h

/-- If a command on an instance answers `t`, it ran there, or the instance does not exist. -/
theorem State.onInstance_cases {s t : State} {k : BitVec 8} {n : Nat} {run : Fin n → Result}
    (h : s.onInstance k n run = .next t) :
    (∃ hk : k.toNat < n, run ⟨k.toNat, hk⟩ = .next t) ∨ (¬ k.toNat < n ∧ t = s.respond fZero .errOp) := by
  by_cases hk : k.toNat < n
  · exact .inl ⟨hk, by rwa [s.onInstance_legal hk] at h⟩
  · rw [s.onInstance_illegal hk] at h
    injection h with h
    exact .inr ⟨hk, h.symm⟩

/-- A configuration error answers one state. -/
theorem State.cfgError_eq_next {s t : State} {code : Status} :
    s.cfgError code = .next t ↔ t = s.respond fZero code := by
  simp only [State.cfgError, Host.Outcome.next.injEq]
  exact eq_comm

/-- A normal end answers one state. -/
theorem State.answer_eq_next {s t : State} {r : F} : s.answer r = .next t ↔ t = s.respond r .ok := by
  simp only [State.answer, Host.Outcome.next.injEq]
  exact eq_comm

/-- The lookup at a finite index, its two taps in range. -/
theorem lookup_finite (q : Draw) (read : Nat → F) (len : Nat) {x : F} (h : fIsFinite x = true) :
    lookup q read len x = lerp (q.sub 2) (read (floorZ x % (len : Int)).toNat)
      (read ((floorZ x + 1) % (len : Int)).toNat) (fSub (q.sub 1) x (floorF (q.sub 0) x)) := by
  simp [lookup, h]

/-- The lookup at a non-finite index is the draw. -/
theorem lookup_free (q : Draw) (read : Nat → F) (len : Nat) {x : F} (h : fIsFinite x = false) :
    lookup q read len x = (q.sub 3).word := by
  simp [lookup, h]

/-- Both taps of a lookup lie in the memory. -/
theorem tap_lt (i : Int) {len : Nat} (h : 0 < len) : (i % (len : Int)).toNat < len := by
  have h1 := Int.emod_nonneg i (show (len : Int) ≠ 0 by omega)
  have h2 := Int.emod_lt_of_pos i (show (0 : Int) < len by omega)
  omega

/-! ### The ports -/

/-- What is taken first, all of it: what stands before it is not taken, and stays in order. -/
theorem firstTaken_eq_some {p : PortEvent → Bool} {es rest : List PortEvent} {e : PortEvent} :
    firstTaken p es = some (e, rest) ↔
      ∃ held tail, es = held ++ e :: tail ∧ rest = held ++ tail ∧ p e = true ∧ ∀ x ∈ held, p x = false := by
  induction es generalizing rest with
  | nil => simp [firstTaken]
  | cons x es ih =>
    by_cases hx : p x = true
    · simp only [firstTaken, hx, if_true, Option.some.injEq, Prod.mk.injEq]
      constructor
      · rintro ⟨rfl, rfl⟩
        exact ⟨[], es, rfl, rfl, hx, by simp⟩
      · rintro ⟨held, tail, h1, h2, h3, h4⟩
        cases held with
        | nil => simp_all
        | cons y held => simp_all
    · rw [firstTaken, if_neg hx]
      simp only [Option.map_eq_some_iff, Prod.exists, Prod.mk.injEq]
      constructor
      · rintro ⟨e', rest', h, rfl, rfl⟩
        obtain ⟨held, tail, rfl, rfl, h3, h4⟩ := ih.1 h
        exact ⟨x :: held, tail, rfl, rfl, h3, by simpa [hx] using h4⟩
      · rintro ⟨held, tail, h1, h2, h3, h4⟩
        cases held with
        | nil => simp_all
        | cons y held =>
          injection h1 with h1 h1'
          subst h1
          exact ⟨e, held ++ tail, ih.2 ⟨held, tail, h1', rfl, h3, fun z hz => h4 z (by simp [hz])⟩, rfl, h2.symm⟩

/-- Nothing is taken exactly when nothing that stands at the ports is. -/
theorem firstTaken_eq_none {p : PortEvent → Bool} {es : List PortEvent} :
    firstTaken p es = none ↔ ∀ x ∈ es, p x = false := by
  induction es with
  | nil => simp [firstTaken]
  | cons x es ih => by_cases hx : p x = true <;> simp [firstTaken, hx, ih]

/-- The taken entry, by what stands before and after it. -/
theorem firstTaken_append {p : PortEvent → Bool} {held tail : List PortEvent} {e : PortEvent}
    (h : ∀ x ∈ held, p x = false) (he : p e = true) : firstTaken p (held ++ e :: tail) = some (e, held ++ tail) :=
  firstTaken_eq_some.2 ⟨held, tail, rfl, rfl, he, h⟩

@[simp] theorem State.takes_command (s : State) (c : Command) : s.takes (.command c) = s.inflight.isNone := rfl
@[simp] theorem State.takes_noise (s : State) (u : F) : s.takes (.noise u) = s.requestsNoise := rfl
@[simp] theorem State.takes_rst (s : State) : s.takes .rst = true := rfl
@[simp] theorem State.takes_time (s : State) : s.takes .time = true := rfl

/-- With no command in flight no noise word is requested. -/
theorem State.requestsNoise_idle {s : State} (h : s.inflight = none) : s.requestsNoise = false := by
  simp [State.requestsNoise, h]

/-- What polling can do, all of it. -/
theorem State.poll_cases (s : State) :
    (∃ held tail, s.inputs = held ++ .rst :: tail ∧ (∀ x ∈ held, s.takes x = false) ∧
      s.poll = .settled { s with inputs := held ++ tail }.restart) ∨
    (∃ u held tail, s.inputs = held ++ .noise u :: tail ∧ (∀ x ∈ held, s.takes x = false) ∧ s.requestsNoise = true ∧
      s.poll = .settled { s with inputs := held ++ tail, noise := s.noise ++ [u] }) ∨
    (∃ c held tail, s.inputs = held ++ .command c :: tail ∧ (∀ x ∈ held, s.takes x = false) ∧ s.inflight = none ∧
      s.poll = .settled { s with inputs := held ++ tail, inflight := some c }) ∨
    (∃ held tail, s.inputs = held ++ .time :: tail ∧ (∀ x ∈ held, s.takes x = false) ∧
      s.poll = { s with inputs := held ++ tail }.pass) ∨
    ((∀ x ∈ s.inputs, s.takes x = false) ∧ s.poll = s.pass) := by
  rcases h : firstTaken s.takes s.inputs with _ | ⟨e, rest⟩
  · exact .inr (.inr (.inr (.inr ⟨firstTaken_eq_none.1 h, by simp [State.poll, h]⟩)))
  · obtain ⟨held, tail, h1, rfl, h3, h4⟩ := firstTaken_eq_some.1 h
    cases e with
    | rst => exact .inl ⟨held, tail, h1, h4, by simp [State.poll, h]⟩
    | noise u => exact .inr (.inl ⟨u, held, tail, h1, h4, h3, by simp [State.poll, h]⟩)
    | command c =>
      exact .inr (.inr (.inl ⟨c, held, tail, h1, h4, by simpa using h3, by simp [State.poll, h]⟩))
    | time => exact .inr (.inr (.inr (.inl ⟨held, tail, h1, h4, by simp [State.poll, h]⟩)))

/-- The next step executes a command that has been accepted and given time. -/
theorem State.poll_present (s : State) (c : Command) : (s.present c).poll = .run c { s with inflight := some c } := by
  simp [State.poll, State.present, firstTaken, State.pass]

/-- With a command in flight and nothing to take, it is executed. -/
theorem State.poll_inflight {s : State} {c : Command} (h : ∀ x ∈ s.inputs, s.takes x = false)
    (hi : s.inflight = some c) : s.poll = .run c s := by
  simp [State.poll, firstTaken_eq_none.2 h, State.pass, hi]

/-- When the block executes the command in flight next, polling gives it, and what is left at the ports. -/
theorem State.poll_executes {s : State} {c : Command} {rest : List PortEvent} (h : s.executesNext rest)
    (hi : s.inflight = some c) : s.poll = .run c { s with inputs := rest } := by
  obtain ⟨held, hh, ⟨h1, rfl⟩ | ⟨tail, h1, rfl⟩⟩ := h
  · rw [State.poll_inflight (h1 ▸ hh) hi, ← h1]
  · simp only [State.poll, h1, firstTaken_append hh (s.takes_time), State.pass, hi]

/-- What a step can do, all of it: the ports settle it, or a command is executed, or it is an illegal one. -/
theorem State.advance_cases {execute : Instr → State → Result} {s t : State} (h : s.advance execute = .next t) :
    s.poll = .settled t ∨
    (∃ c u i, s.poll = .run c u ∧ decode c = .ok i ∧ execute i u = .next t) ∨
    ∃ c u e, s.poll = .run c u ∧ decode c = .illegal e ∧ t = u.respond fZero .errOp := by
  rw [State.advance] at h
  cases hp : s.poll with
  | settled u =>
    rw [hp] at h
    injection h with h
    exact .inl (h ▸ rfl)
  | run c u =>
    rw [hp] at h
    cases hd : decode c with
    | ok i => exact .inr (.inl ⟨c, u, i, rfl, hd, by simpa [hd] using h⟩)
    | illegal e => exact .inr (.inr ⟨c, u, e, rfl, hd, State.cfgError_eq_next.1 (by simpa [hd] using h)⟩)

/-! ### The parameters -/

/-- With the defaults the parametric meanings are `exec`. -/
theorem execWith_default (i : Instr) (s : State) : execWith fexp fpow romRead i s = exec i s := by
  cases i <;> rfl

/-- With the defaults the parametric step is `step`. -/
theorem stepWith_default (s : State) : stepWith fexp fpow romRead s = step s := by
  simp only [stepWith, step, State.advance, execWith_default]

end Sys2Proof.Machine
end

