-- ==== Sys2Proof/Laws/PerInstr.lean ====
section
/-! SUPPORT. Laws stated for each command: its encoding selects its own row of the opcode map
(spec/30_encoding.md R76: `(CW AND mask) = match`). -/

namespace Sys2Proof.Laws

/-- The `match` column of the opcode map (R76). -/
def opcodeMatch : Instr → Word
  | .phFreq _ _ _ => 0x10000000#32
  | .phProc _ => 0x11000000#32
  | .cyFreq _ _ _ => 0x20000000#32
  | .cyProc _ => 0x21000000#32
  | .hiProc _ _ => 0x30000000#32
  | .deProc _ _ => 0x31000000#32
  | .opFreq _ _ _ => 0x32000000#32
  | .opProc _ _ => 0x33000000#32
  | .slRate _ _ _ => 0x34000000#32
  | .slProc _ _ => 0x35000000#32
  | .dlConfig _ _ => 0x40000000#32
  | .dlWrite _ _ => 0x41000000#32
  | .dlRead _ _ => 0x42000000#32
  | .ksConfig _ _ _ => 0x50000000#32
  | .ksSet _ _ _ => 0x51000000#32
  | .ksPluck _ _ => 0x52000000#32
  | .ksProc _ => 0x53000000#32
  | .fdnConfig _ _ => 0x60000000#32
  | .fdnSetM _ _ _ _ => 0x61000000#32
  | .fdnSetG _ _ _ => 0x62000000#32
  | .fdnSetD _ _ _ => 0x63000000#32
  | .fdnProc _ _ => 0x64000000#32

/-- The `mask` column of the opcode map (R76). -/
def opcodeMask : Instr → Word
  | .phFreq _ _ _ => 0xFF00FFFF#32
  | .phProc _ => 0xFF00FFFF#32
  | .cyFreq _ _ _ => 0xFF00FFFF#32
  | .cyProc _ => 0xFF00FFFF#32
  | .hiProc _ _ => 0xFF00FFFF#32
  | .deProc _ _ => 0xFF00FFFF#32
  | .opFreq _ _ _ => 0xFF00FFFF#32
  | .opProc _ _ => 0xFF00FFFF#32
  | .slRate _ _ _ => 0xFF00FFFF#32
  | .slProc _ _ => 0xFF00FFFF#32
  | .dlConfig _ _ => 0xFF00FFFF#32
  | .dlWrite _ _ => 0xFF00FFFF#32
  | .dlRead _ _ => 0xFF00FFFF#32
  | .ksConfig _ _ _ => 0xFF00FFFF#32
  | .ksSet _ _ _ => 0xFF00FFFF#32
  | .ksPluck _ _ => 0xFF00FFFF#32
  | .ksProc _ => 0xFF00FFFF#32
  | .fdnConfig _ _ => 0xFF00FFFF#32
  | .fdnSetM _ _ _ _ => 0xFF000000#32
  | .fdnSetG _ _ _ => 0xFF0000FF#32
  | .fdnSetD _ _ _ => 0xFF0000FF#32
  | .fdnProc _ _ => 0xFF00FFFF#32

/-- The encoded command word selects the command's row. -/
def OpcodeRow.Statement (i : Instr) : Prop := (encode i).cw &&& opcodeMask i = opcodeMatch i

theorem pack_and (op k i j m3 m2 m1 m0 : BitVec 8) :
    packWord op k i j &&& packWord m3 m2 m1 m0 = packWord (op &&& m3) (k &&& m2) (i &&& m1) (j &&& m0) := by
  apply BitVec.eq_of_getLsbD_eq
  intro n _
  simp only [packWord, BitVec.getLsbD_and, BitVec.getLsbD_append]
  split
  · rfl
  · split
    · rfl
    · split <;> rfl

theorem fixed_fields (op k : BitVec 8) :
    packWord op k 0 0 &&& 0xFF00FFFF#32 = packWord op 0 0 0 := by
  have h : op &&& 0xFF = op := BitVec.and_allOnes
  rw [show (0xFF00FFFF#32 : Word) = packWord 0xFF 0 0xFF 0xFF from by decide, pack_and, h]
  simp

theorem OpcodeRow.phFreq (k : BitVec 8) (a b : F) : OpcodeRow.Statement (.phFreq k a b) :=
  (fixed_fields _ k).trans rfl

theorem OpcodeRow.phProc (k : BitVec 8) : OpcodeRow.Statement (.phProc k) :=
  (fixed_fields _ k).trans rfl

theorem OpcodeRow.cyFreq (k : BitVec 8) (a b : F) : OpcodeRow.Statement (.cyFreq k a b) :=
  (fixed_fields _ k).trans rfl

theorem OpcodeRow.cyProc (k : BitVec 8) : OpcodeRow.Statement (.cyProc k) :=
  (fixed_fields _ k).trans rfl

theorem OpcodeRow.hiProc (k : BitVec 8) (x : F) : OpcodeRow.Statement (.hiProc k x) :=
  (fixed_fields _ k).trans rfl

theorem OpcodeRow.deProc (k : BitVec 8) (x : F) : OpcodeRow.Statement (.deProc k x) :=
  (fixed_fields _ k).trans rfl

theorem OpcodeRow.opFreq (k : BitVec 8) (a b : F) : OpcodeRow.Statement (.opFreq k a b) :=
  (fixed_fields _ k).trans rfl

theorem OpcodeRow.opProc (k : BitVec 8) (x : F) : OpcodeRow.Statement (.opProc k x) :=
  (fixed_fields _ k).trans rfl

theorem OpcodeRow.slRate (k : BitVec 8) (a b : F) : OpcodeRow.Statement (.slRate k a b) :=
  (fixed_fields _ k).trans rfl

theorem OpcodeRow.slProc (k : BitVec 8) (x : F) : OpcodeRow.Statement (.slProc k x) :=
  (fixed_fields _ k).trans rfl

theorem OpcodeRow.dlConfig (k : BitVec 8) (cap : Word) : OpcodeRow.Statement (.dlConfig k cap) :=
  (fixed_fields _ k).trans rfl

theorem OpcodeRow.dlWrite (k : BitVec 8) (x : F) : OpcodeRow.Statement (.dlWrite k x) :=
  (fixed_fields _ k).trans rfl

theorem OpcodeRow.dlRead (k : BitVec 8) (x : F) : OpcodeRow.Statement (.dlRead k x) :=
  (fixed_fields _ k).trans rfl

theorem OpcodeRow.ksConfig (k : BitVec 8) (sr : F) (cap : Word) : OpcodeRow.Statement (.ksConfig k sr cap) :=
  (fixed_fields _ k).trans rfl

theorem OpcodeRow.ksSet (k : BitVec 8) (a b : F) : OpcodeRow.Statement (.ksSet k a b) :=
  (fixed_fields _ k).trans rfl

theorem OpcodeRow.ksPluck (k : BitVec 8) (x : F) : OpcodeRow.Statement (.ksPluck k x) :=
  (fixed_fields _ k).trans rfl

theorem OpcodeRow.ksProc (k : BitVec 8) : OpcodeRow.Statement (.ksProc k) :=
  (fixed_fields _ k).trans rfl

theorem OpcodeRow.fdnConfig (k : BitVec 8) (cap : Word) : OpcodeRow.Statement (.fdnConfig k cap) :=
  (fixed_fields _ k).trans rfl

theorem OpcodeRow.fdnSetM (k i j : BitVec 8) (m : F) : OpcodeRow.Statement (.fdnSetM k i j m) := by
  have hm : opcodeMask (.fdnSetM k i j m) = packWord 0xFF 0 0 0 := by simp only [opcodeMask]; decide
  simp only [OpcodeRow.Statement, hm, encode, pack_and]
  simp [opcodeMatch, packWord]

theorem OpcodeRow.fdnSetG (k i : BitVec 8) (g : F) : OpcodeRow.Statement (.fdnSetG k i g) := by
  have hm : opcodeMask (.fdnSetG k i g) = packWord 0xFF 0 0 0xFF := by simp only [opcodeMask]; decide
  simp only [OpcodeRow.Statement, hm, encode, pack_and]
  simp [opcodeMatch, packWord]

theorem OpcodeRow.fdnSetD (k i : BitVec 8) (d : F) : OpcodeRow.Statement (.fdnSetD k i d) := by
  have hm : opcodeMask (.fdnSetD k i d) = packWord 0xFF 0 0 0xFF := by simp only [opcodeMask]; decide
  simp only [OpcodeRow.Statement, hm, encode, pack_and]
  simp [opcodeMatch, packWord]

theorem OpcodeRow.fdnProc (k : BitVec 8) (x : F) : OpcodeRow.Statement (.fdnProc k x) :=
  (fixed_fields _ k).trans rfl

end Sys2Proof.Laws
end

