-- ==== Sys2Proof/Tests/Slice0.lean ====
section
/-! SUPPORT. Tests: the smoke test of WellFormed, the decoding of written-out words, one-step tests whose
expected values are those of spec/95_test_vectors.md, and a witness for every statement that has
hypotheses. -/

namespace Sys2Proof.Tests

open Sys2Proof Sys2Proof.Machine

set_option Elab.async false

/-! ### Parameters (spec/00_scope.md R7, R8) -/

theorem test_parameters_in_range : let b := Config.build
    (∀ n ∈ [b.nPH, b.nCY, b.nHI, b.nDE, b.nOP, b.nSL, b.nDL, b.nKS, b.nFDN, Config.fdnN], 1 ≤ n ∧ n ≤ 256) ∧
    1 ≤ b.capMax ∧ b.capMax ≤ 2 ^ 24 := by decide

theorem test_build : State.reset.build = Config.build := by decide

/-! ### WellFormed: an instance that does not exist is refused, one that does is not -/

theorem test_wellFormed_ph : (Instr.phFreq 1 0 0).wellFormed Config.build = false ∧ (Instr.phProc 255).wellFormed Config.build = false ∧
    (Instr.phFreq 0 0 0).wellFormed Config.build = true ∧ (Instr.phProc 0).wellFormed Config.build = true := by decide
theorem test_wellFormed_cy : (Instr.cyFreq 1 0 0).wellFormed Config.build = false ∧ (Instr.cyProc 1).wellFormed Config.build = false ∧
    (Instr.cyFreq 0 0 0).wellFormed Config.build = true ∧ (Instr.cyProc 0).wellFormed Config.build = true := by decide
theorem test_wellFormed_hi_de : (Instr.hiProc 1 0).wellFormed Config.build = false ∧ (Instr.deProc 1 0).wellFormed Config.build = false ∧
    (Instr.hiProc 0 0).wellFormed Config.build = true ∧ (Instr.deProc 0 0).wellFormed Config.build = true := by decide
theorem test_wellFormed_op : (Instr.opFreq 1 0 0).wellFormed Config.build = false ∧ (Instr.opProc 2 0).wellFormed Config.build = false ∧
    (Instr.opFreq 0 0 0).wellFormed Config.build = true ∧ (Instr.opProc 0 0).wellFormed Config.build = true := by decide
theorem test_wellFormed_sl : (Instr.slRate 1 0 0).wellFormed Config.build = false ∧ (Instr.slProc 1 0).wellFormed Config.build = false ∧
    (Instr.slRate 0 0 0).wellFormed Config.build = true ∧ (Instr.slProc 0 0).wellFormed Config.build = true := by decide
theorem test_wellFormed_dl : (Instr.dlConfig 1 4).wellFormed Config.build = false ∧ (Instr.dlWrite 1 0).wellFormed Config.build = false ∧
    (Instr.dlRead 1 0).wellFormed Config.build = false ∧ (Instr.dlConfig 0 0).wellFormed Config.build = true ∧
    (Instr.dlWrite 0 0).wellFormed Config.build = true ∧ (Instr.dlRead 0 0).wellFormed Config.build = true := by decide
theorem test_wellFormed_ks : (Instr.ksConfig 1 0 0).wellFormed Config.build = false ∧ (Instr.ksSet 1 0 0).wellFormed Config.build = false ∧
    (Instr.ksPluck 1 0).wellFormed Config.build = false ∧ (Instr.ksProc 1).wellFormed Config.build = false ∧
    (Instr.ksConfig 0 0 0).wellFormed Config.build = true ∧ (Instr.ksSet 0 0 0).wellFormed Config.build = true ∧
    (Instr.ksPluck 0 0).wellFormed Config.build = true ∧ (Instr.ksProc 0).wellFormed Config.build = true := by decide
theorem test_wellFormed_fdn : (Instr.fdnConfig 1 0).wellFormed Config.build = false ∧
    (Instr.fdnSetM 1 0 0 0).wellFormed Config.build = false ∧ (Instr.fdnSetG 1 0 0).wellFormed Config.build = false ∧
    (Instr.fdnSetD 1 0 0).wellFormed Config.build = false ∧ (Instr.fdnProc 1 0).wellFormed Config.build = false ∧
    (Instr.fdnConfig 0 0).wellFormed Config.build = true ∧ (Instr.fdnSetM 0 9 9 0).wellFormed Config.build = true ∧
    (Instr.fdnSetG 0 9 0).wellFormed Config.build = true ∧ (Instr.fdnSetD 0 9 0).wellFormed Config.build = true ∧
    (Instr.fdnProc 0 0).wellFormed Config.build = true := by decide

/-! ### Decoding: words written out from R72 and R76; those with a vector's name are the spec's own -/

-- R80's example, and P1 step 1
theorem test_decode_phFreq : decode ⟨0x10000000#32, 0x43DC0000#32, 0x472C4400#32⟩ =
    .ok (.phFreq 0 0x43DC0000#32 0x472C4400#32) := by decide
theorem test_decode_phProc : decode ⟨0x11AB0000#32, 1, 2⟩ = .ok (.phProc 0xAB) := by decide
theorem test_decode_cyFreq : decode ⟨0x20010000#32, 3, 4⟩ = .ok (.cyFreq 1 3 4) := by decide
theorem test_decode_cyProc : decode ⟨0x21020000#32, 3, 4⟩ = .ok (.cyProc 2) := by decide
theorem test_decode_hiProc : decode ⟨0x30030000#32, 5, 6⟩ = .ok (.hiProc 3 5) := by decide
theorem test_decode_deProc : decode ⟨0x31040000#32, 5, 6⟩ = .ok (.deProc 4 5) := by decide
theorem test_decode_opFreq : decode ⟨0x32050000#32, 5, 6⟩ = .ok (.opFreq 5 5 6) := by decide
theorem test_decode_opProc : decode ⟨0x33060000#32, 5, 6⟩ = .ok (.opProc 6 5) := by decide
theorem test_decode_slRate : decode ⟨0x34070000#32, 5, 6⟩ = .ok (.slRate 7 5 6) := by decide
theorem test_decode_slProc : decode ⟨0x35080000#32, 5, 6⟩ = .ok (.slProc 8 5) := by decide
theorem test_decode_dlConfig : decode ⟨0x40090000#32, 4, 6⟩ = .ok (.dlConfig 9 4) := by decide
theorem test_decode_dlWrite : decode ⟨0x410A0000#32, 5, 6⟩ = .ok (.dlWrite 10 5) := by decide
theorem test_decode_dlRead : decode ⟨0x420B0000#32, 5, 6⟩ = .ok (.dlRead 11 5) := by decide
theorem test_decode_ksConfig : decode ⟨0x500C0000#32, 5, 6⟩ = .ok (.ksConfig 12 5 6) := by decide
theorem test_decode_ksSet : decode ⟨0x510D0000#32, 5, 6⟩ = .ok (.ksSet 13 5 6) := by decide
theorem test_decode_ksPluck : decode ⟨0x520E0000#32, 5, 6⟩ = .ok (.ksPluck 14 5) := by decide
theorem test_decode_ksProc : decode ⟨0x530F0000#32, 5, 6⟩ = .ok (.ksProc 15) := by decide
theorem test_decode_fdnConfig : decode ⟨0x60100000#32, 5, 6⟩ = .ok (.fdnConfig 16 5) := by decide
-- R80's example
theorem test_decode_fdnSetM : decode ⟨0x61000203#32, 0x3F000000#32, 0⟩ = .ok (.fdnSetM 0 2 3 0x3F000000#32) := by
  decide
theorem test_decode_fdnSetG : decode ⟨0x62120300#32, 5, 6⟩ = .ok (.fdnSetG 18 3 5) := by decide
theorem test_decode_fdnSetD : decode ⟨0x63130400#32, 5, 6⟩ = .ok (.fdnSetD 19 4 5) := by decide
theorem test_decode_fdnProc : decode ⟨0x64140000#32, 5, 6⟩ = .ok (.fdnProc 20 5) := by decide

-- V-ERR-1
theorem test_decode_illegal :
    decode ⟨0x00000000#32, 1, 2⟩ = .illegal .unassignedOpcode ∧ decode ⟨0x12000000#32, 1, 2⟩ = .illegal .unassignedOpcode ∧
    decode ⟨0xFF000000#32, 1, 2⟩ = .illegal .unassignedOpcode ∧ decode ⟨0x65000000#32, 1, 2⟩ = .illegal .unassignedOpcode ∧
    decode ⟨0x11000001#32, 1, 2⟩ = .illegal .reservedField ∧ decode ⟨0x11000100#32, 1, 2⟩ = .illegal .reservedField ∧
    decode ⟨0x62000001#32, 1, 2⟩ = .illegal .reservedField := by decide

/-! ### The two definitions the host evaluates -/

theorem test_tableWord_row : decodeTableWord 32 0x33000000 = some (.opProc 0 0) ∧
    decodeTableWord 96 (0x10000000 + 0x43DC0000 * 2 ^ 32 + 0x472C4400 * 2 ^ 64) =
      some (.phFreq 0 0x43DC0000#32 0x472C4400#32) ∧ decodeTableWord 32 0x11000001 = none := by decide

/-! ### One step -/

/-- The last response, its status as its code (R182). -/
def lastResponse (t : State) : Option (F × BitVec 4) := t.responses.getLast?.map fun r => (r.r, r.st.code)

/-- What `look` shows of the state after the step that executes the command `c`. -/
def after {α : Type} (c : Command) (s : State) (look : State → α) : Option α :=
  match step (s.present c) with
  | .next t => some (look t)
  | _ => none

/-- The response to `c`. -/
def answer (c : Command) (s : State) : Option (F × BitVec 4) := (after c s lastResponse).join

theorem test_fetch_runs_the_word :
    (match step (State.reset.withFetchWord 96 (0x30000000 + 0x40000000 * 2 ^ 32)) with
      | .next t => some (t.hi, lastResponse t)
      | _ => none) = some ([0x40000000#32], some (0x00000000#32, 0#4)) := by decide +kernel

-- V-ERR-1, V-ERR-2: an instance that does not exist
theorem test_missing_unit : answer ⟨0x11010000#32, 0, 0⟩ State.reset = some (0#32, 1#4) ∧
    answer ⟨0x61010500#32, 0, 0⟩ State.reset = some (0#32, 1#4) ∧
    answer ⟨0xFF000000#32, 0, 0⟩ State.reset = some (0#32, 1#4) := by decide +kernel

-- V-PH-4, V-PH-5
theorem test_phFreq : after ⟨0x10000000#32, 0x43DC0000#32, 0x472C4400#32⟩ State.reset (fun t => t.ph.map (·.increment)) =
    some [0x3C2377EE#32] := by decide +kernel
theorem test_phFreq_nyquist : answer ⟨0x10000000#32, 0x46AC4400#32, 0x472C4400#32⟩ State.reset = some (0#32, 3#4) := by
  decide +kernel

-- V-PH-3, the fourth call; R101's example
theorem test_phProc_wraps :
    after ⟨0x11000000#32, 0, 0⟩ { State.reset with ph := [⟨0x3E99999A#32, 0x3F666667#32⟩] }
      (fun t => (t.ph.map (·.value), lastResponse t)) = some ([0x3E4CCCD0#32], some (0x3F666667#32, 0#4)) := by decide +kernel
theorem test_phProc_wraps_at_one :
    after ⟨0x11000000#32, 0, 0⟩ { State.reset with ph := [⟨0x3E800000#32, 0x3F400000#32⟩] }
      (fun t => t.ph.map (·.value)) = some [0x00000000#32] := by decide +kernel

-- V-CY-3, V-CY-6
theorem test_cyFreq : after ⟨0x20000000#32, 0x3F800000#32, 0x46000000#32⟩ State.reset (fun t => t.cy.map (·.increment)) =
    some [0x39000000#32] := by decide +kernel
theorem test_cyFreq_rate_first : answer ⟨0x20000000#32, 0x7FC00000#32, 0x00000000#32⟩ State.reset = some (0#32, 2#4) := by
  decide +kernel

-- V-CY-4, the second sample; V-CY-5
theorem test_cyProc : answer ⟨0x21000000#32, 0, 0⟩ { State.reset with cy := [⟨0x3C2377EE#32, 0x3C2377EE#32⟩] } =
    some (0x3D804DC2#32, 0#4) := by decide +kernel
theorem test_cyProc_wraps : answer ⟨0x21000000#32, 0, 0⟩ { State.reset with cy := [⟨0#32, 0x3F7FF800#32⟩] } =
    some (0xBA490FD5#32, 0#4) := by decide +kernel

-- V-HI-1, V-DE-1
theorem test_hiProc_moves_a_nan : answer ⟨0x30000000#32, 0x3F800000#32, 0⟩ { State.reset with hi := [0x7FC00001#32] } =
    some (0x7FC00001#32, 0#4) := by decide +kernel
theorem test_deProc : after ⟨0x31000000#32, 0x40200000#32, 0⟩ { State.reset with de := [0x40800000#32] }
    (fun t => (t.de, lastResponse t)) = some ([0x40200000#32], some (0xBFC00000#32, 0#4)) := by decide +kernel

-- V-OP-3, V-OP-4
theorem test_opFreq : after ⟨0x32000000#32, 0x447A0000#32, 0x473B8000#32⟩ State.reset
    (fun t => t.op.map fun p => (p.a1, p.b0)) = some [(0x3F60971C#32, 0x3DFB4720#32)] := by decide +kernel
theorem test_opFreq_nyquist : answer ⟨0x32000000#32, 0x46BB8000#32, 0x473B8000#32⟩ State.reset = some (0#32, 3#4) := by
  decide +kernel

-- V-OP-3, the second sample; V-OP-2, the last
theorem test_opProc : answer ⟨0x33000000#32, 0x3F800000#32, 0⟩
    { State.reset with op := [⟨0x3F60971C#32, 0x3DFB4720#32, 0x3DFB4720#32⟩] } = some (0x3E6BDCD7#32, 0#4) := by
  decide +kernel
theorem test_opProc_decays : after ⟨0x33000000#32, 0x00000000#32, 0⟩
    { State.reset with op := [⟨0x3F000000#32, 0x3F000000#32, 0x3F700000#32⟩] } (fun t => t.op.map (·.y1)) =
      some [0x3EF00000#32] := by decide +kernel

-- V-SL-2, V-SL-3
theorem test_slRate : after ⟨0x34000000#32, 0x45960000#32, 0x473B8000#32⟩ State.reset (fun t => t.sl.map (·.limit)) =
    some [0x3DCCCCCD#32] := by decide +kernel
theorem test_slRate_negative : answer ⟨0x34000000#32, 0xBF800000#32, 0x473B8000#32⟩ State.reset = some (0#32, 6#4) := by
  decide +kernel

-- V-SL-1, the seventh input; V-SL-2, the third
theorem test_slProc_falls : after ⟨0x35000000#32, 0xBF800000#32, 0⟩
    { State.reset with sl := [⟨0x3E800000#32, 0x3F800000#32⟩] } (fun t => (t.sl.map (·.value), lastResponse t)) =
      some ([0x3F400000#32], some (0x3F800000#32, 0#4)) := by decide +kernel
theorem test_slProc_lands : after ⟨0x35000000#32, 0x3E800000#32, 0⟩
    { State.reset with sl := [⟨0x3DCCCCCD#32, 0x3E4CCCCD#32⟩] } (fun t => t.sl.map (·.value)) = some [0x3E800000#32] := by
  decide +kernel

-- V-DL-8, R140's example
theorem test_dlConfig_refuses : answer ⟨0x40000000#32, 65537, 0⟩ State.reset = some (0#32, 4#4) ∧
    answer ⟨0x40000000#32, 65536, 0⟩ State.reset = some (0#32, 0#4) := by decide +kernel
theorem test_dlConfig_clears : after ⟨0x40000000#32, 4, 0⟩ { State.reset with dl := [⟨8, 3, [(2, 0x3F800000#32)]⟩] }
    (fun t => t.dl) = some [⟨4, 0, []⟩] := by decide +kernel

/-- The line of V-DL-1: capacity 4, the words 1.0, 2.0, 3.0, +0, cursor 3. -/
def line123 : DelayLine := ⟨4, 3, [(0, 0x3F800000#32), (1, 0x40000000#32), (2, 0x40400000#32)]⟩

-- V-DL-2's first write, and a stored +0
theorem test_dlWrite : after ⟨0x41000000#32, 0x40800000#32, 0⟩ { State.reset with dl := [line123] } (fun t => t.dl) =
    some [⟨4, 0, [(0, 0x3F800000#32), (1, 0x40000000#32), (2, 0x40400000#32), (3, 0x40800000#32)]⟩] := by decide +kernel
theorem test_dlWrite_zero : after ⟨0x41000000#32, 0x00000000#32, 0⟩
    { State.reset with dl := [⟨2, 1, [(1, 0x40000000#32)]⟩] } (fun t => t.dl) = some [⟨2, 0, []⟩] := by decide +kernel

-- V-DL-1: d = 1.5 and d = 9
theorem test_dlRead_between : answer ⟨0x42000000#32, 0x3FC00000#32, 0⟩ { State.reset with dl := [line123] } =
    some (0x40200000#32, 0#4) := by decide +kernel
theorem test_dlRead_wraps_twice : answer ⟨0x42000000#32, 0x41100000#32, 0⟩ { State.reset with dl := [line123] } =
    some (0x40400000#32, 0#4) := by decide +kernel

-- R151's example, V-ERR-2
theorem test_ksConfig : after ⟨0x50000000#32, 0x41000000#32, 8⟩ State.reset (fun t => t.ks.map fun v => (v.sr, v.line)) =
    some [(0x41000000#32, ⟨8, 0, []⟩)] := by decide +kernel
theorem test_ksConfig_rate_first : answer ⟨0x50000000#32, 0x00000000#32, 0⟩ State.reset = some (0#32, 2#4) := by
  decide +kernel

/-- The voice of R154's example: rate 8.0, capacity 8, period 0.5, gain `DB60`. -/
def voice8 : Voice := ⟨0x41000000#32, 0x3F000000#32, 0x3F000000#32, 0x3A83126F#32, 0x00000000#32, ⟨8, 0, []⟩⟩

-- V-KS-3, the third setting; V-ERR-2
theorem test_ksSet : after ⟨0x51000000#32, 0x40400000#32, 0x3F800000#32⟩ { State.reset with ks := [voice8] }
    (fun t => t.ks.map fun v => (v.delayTime, v.gain)) = some [(0x3EAAAAAB#32, 0x3DCCCCCC#32)] := by decide +kernel
theorem test_ksSet_frequency_first : answer ⟨0x51000000#32, 0x40800000#32, 0x00000000#32⟩
    { State.reset with ks := [voice8] } = some (0#32, 3#4) := by decide +kernel

/-- The noise words of R154's example. -/
def noise4 : List F := [0x3F800000#32, 0xBF800000#32, 0x3F000000#32, 0x3E800000#32]

-- R154's example; R206: a pluck short of one word
theorem test_ksPluck : after ⟨0x52000000#32, 0x3F800000#32, 0⟩ { State.reset with ks := [voice8], noise := noise4 ++ [7] }
    (fun t => (t.ks.map (·.line), t.noise)) =
      some ([⟨8, 4, [(0, 0x3F800000#32), (1, 0xBF800000#32), (2, 0x3F000000#32), (3, 0x3E800000#32)]⟩], [7]) := by
  decide +kernel
theorem test_ksPluck_waits : after ⟨0x52000000#32, 0x3F800000#32, 0⟩
    { State.reset with ks := [voice8], noise := noise4.drop 1 } (fun t => (t.noise, t.responses, t.inflight)) =
      some (noise4.drop 1, [], some ⟨0x52000000#32, 0x3F800000#32, 0⟩) := by decide +kernel

-- R155's example; V-KS-6, the first step
theorem test_ksProc : after ⟨0x53000000#32, 0, 0⟩
    { State.reset with ks := [{ voice8 with line := ⟨8, 4, [(0, 0x3F800000#32), (1, 0xBF800000#32)]⟩ }] }
    (fun t => (lastResponse t, t.ks.map fun v => (v.x1, v.line.index, ramRead v.line 4))) =
      some (some (0x3A03126F#32, 0#4), [(0x3F800000#32, 5, 0x3A03126F#32)]) := by decide +kernel
theorem test_ksProc_fractional : answer ⟨0x53000000#32, 0, 0⟩
    { State.reset with ks := [⟨0x41000000#32, 0x3EAAAAAB#32, 0x3F800000#32, 0x3F800000#32, 0x00000000#32,
      ⟨8, 3, [(0, 0x3F800000#32), (1, 0xBF800000#32), (2, 0x40000000#32)]⟩⟩] } = some (0x3E2AAAB0#32, 0#4) := by
  decide +kernel

-- V-FDN-2
theorem test_fdnConfig_refuses : answer ⟨0x60000000#32, 3001, 0⟩ State.reset = some (0#32, 4#4) := by decide +kernel
theorem test_fdnConfig_accepts : after ⟨0x60000000#32, 3002, 0⟩ State.reset (fun t => t.fdn.map (·.line[4])) =
    some [⟨3002, 0, []⟩] := by decide +kernel
theorem test_fdnSetM_index_first : answer ⟨0x61000500#32, 0x7FC00000#32, 0⟩ State.reset = some (0#32, 5#4) := by
  decide +kernel
theorem test_fdnSetM : after ⟨0x61000400#32, 0x3F000000#32, 0⟩ State.reset
    (fun t => t.fdn.map fun f => (f.M[4][0], f.M[0][4])) = some [(0x3F000000#32, 0x00000000#32)] := by decide +kernel
theorem test_fdnSetG_refuses : answer ⟨0x62000000#32, 0x7FC00000#32, 0⟩ State.reset = some (0#32, 6#4) := by
  decide +kernel
theorem test_fdnSetG : after ⟨0x62000200#32, 0x3F400000#32, 0⟩ State.reset (fun t => t.fdn.map (·.g.toList)) =
    some [[0x3F800000#32, 0x3F800000#32, 0x3F400000#32, 0x3F800000#32, 0x3F800000#32]] := by decide +kernel
theorem test_fdnSetD_refuses : answer ⟨0x63000000#32, 0x47800000#32, 0⟩ State.reset = some (0#32, 4#4) := by
  decide +kernel
theorem test_fdnSetD : after ⟨0x63000000#32, 0x80000000#32, 0⟩ State.reset (fun t => t.fdn.map (·.dly[0])) =
    some [0x80000000#32] := by decide +kernel

-- V-FDN-1, sample 0
theorem test_fdnProc_dry : after ⟨0x64000000#32, 0x3F800000#32, 0⟩ State.reset
    (fun t => (lastResponse t, t.fdn.map (·.line[3]))) =
      some (some (0x3DCCCCCD#32, 0#4), [⟨65536, 1, [(0, 0x3F800000#32)]⟩]) := by decide +kernel

/-- The network of V-FDN-3 after sample 0. -/
def network : Reverb :=
  ⟨vecOf _ fun i => vecOf _ fun j => if (i.val + j.val) % 2 = 0 then 0x3E800000#32 else 0xBE800000#32,
    #v[0x3F000000#32, 0x3F800000#32, 0x3F800000#32, 0x3F800000#32, 0x3F400000#32],
    #v[0x3FC00000#32, 0x40000000#32, 0x40400000#32, 0x40800000#32, 0x40A00000#32],
    Vector.replicate _ ⟨8, 1, [(0, 0x3F800000#32)]⟩⟩

-- V-FDN-3, sample 1: the output, and the words written back
theorem test_fdnProc : after ⟨0x64000000#32, 0x00000000#32, 0⟩ { State.reset with fdn := [network] }
    (fun t => (lastResponse t, t.fdn.map fun f => f.line.toList.map fun l => ramRead l 1)) =
      some (some (0x3F000000#32, 0#4),
        [[0x3D800000#32, 0xBE000000#32, 0x3E000000#32, 0xBE000000#32, 0x3DC00000#32]]) := by decide +kernel

/-! ### The sine ROM: the check values and the sum that R52 states -/

theorem test_rom_values : romRead 1 = 0x3AC90FD5#32 ∧ romRead 2 = 0x3B490FC6#32 ∧ romRead 3 = 0x3B96CBC1#32 ∧
    romRead 512 = 0x3F3504F3#32 ∧ romRead 1023 = 0x3F7FFFEC#32 ∧ romRead 1025 = 0x3F7FFFEC#32 ∧
    romRead 2047 = 0x3AC90FD5#32 ∧ romRead 2049 = 0xBAC90FD5#32 ∧ romRead 4095 = 0xBAC90FD5#32 := by decide +kernel

theorem test_rom_sum : ((List.range 4096).foldl (fun acc k => acc + (romRead k).toNat) 0) % 2 ^ 32 = 0xA84F8C0C := by
  decide +kernel

/-! ### Arithmetic corners (R11; the sums and products of V-PH-3, R52 and R122) -/

-- the quotient of V-PH-5, by hand 16777214.514 times 2^-25 (log entry 18)
theorem test_quotient_to_nearest : fDiv ⟨0, []⟩ 0x46AC43FF#32 0x472C4400#32 = 0x3EFFFFFF#32 := by decide +kernel

-- R183's test where the product is inexact (log entry 17): the halves of 1 and of 5 units go to the even one
theorem test_frequency_at_inexact_halves : frequencyAccepted ⟨0, []⟩ 0x00000000#32 0x00000001#32 = false ∧
    frequencyAccepted ⟨0, []⟩ 0x80000000#32 0x00000001#32 = false ∧
    frequencyAccepted ⟨0, []⟩ 0x00000002#32 0x00000005#32 = false ∧
    frequencyAccepted ⟨0, []⟩ 0x00000000#32 0x00000002#32 = true := by decide +kernel

theorem test_rounding : fAdd ⟨0, []⟩ 0x3F666667#32 0x3E99999A#32 = 0x3F99999A#32 ∧
    fMul ⟨0, []⟩ fTwoPi 0x447A0000#32 = 0x45C4597C#32 ∧ fDiv ⟨0, []⟩ 0x43DC0000#32 0x472C4400#32 = 0x3C2377EE#32 ∧
    fAdd ⟨0, []⟩ 0x7F7FFFFF#32 0x7F7FFFFF#32 = 0x7F800000#32 ∧ fMul ⟨0, []⟩ 0x00000001#32 fHalf = 0x00000000#32 ∧
    fSub ⟨0, []⟩ fOne fOne = 0x00000000#32 := by decide +kernel

/-! ### The default `fpow` (R15): exact ties go to even, and the powers of a zero -/

-- 4097 squared is 16785409, midway between 16785408 and 16785410; 2^-150 is midway between 0 and 2^-149
theorem test_fpow_ties : fpow 0x45800800#32 0x40000000#32 = 0x4B801000#32 ∧
    fpow 0x1A000000#32 0x40000000#32 = 0x00000000#32 := by decide +kernel
theorem test_fpow_zero : fpow 0x00000000#32 0x3F000000#32 = 0x00000000#32 ∧
    fpow 0xC0000000#32 0x40400000#32 = 0xC1000000#32 := by decide +kernel

/-! ### The ports (R70, R200, R206, U6) -/

/-- What `look` shows after `n` steps. -/
def afterSteps {α : Type} (n : Nat) (s : State) (look : State → α) : Option α :=
  match Sys2Proof.core.run n s with
  | .next t => some (look t)
  | _ => none

/-- A pluck of `voice8` in flight, with `events` to happen at the ports. -/
def plucking (events : List PortEvent) : State :=
  { State.reset with ks := [voice8], inflight := some ⟨0x52000000#32, 0x3F800000#32, 0⟩, inputs := events }

-- R206: a held command does not keep the pluck from its noise words; it is accepted after the response
theorem test_pluck_takes_noise_past_a_held_command :
    afterSteps 6 (plucking (.command ⟨0x53000000#32, 0, 0⟩ :: noise4.map .noise))
      (fun t => (lastResponse t, t.ks.map (·.line.index), t.inflight, t.inputs)) =
      some (some (0#32, 0#4), [4], some ⟨0x53000000#32, 0, 0⟩, []) := by decide +kernel
-- R200: `rst` abandons a command in flight, a held command waits; `time` before it lets the command answer
theorem test_rst_abandons : afterSteps 2 (plucking [.command ⟨0x53000000#32, 0, 0⟩, .noise 5, .rst, .noise 7])
    (fun t => (t.responses, t.inflight, t.noise)) = some ([], none, []) ∧
    afterSteps 2 (plucking [.command ⟨0x53000000#32, 0, 0⟩, .noise 5, .rst, .noise 7]) State.inputs =
      some [.command ⟨0x53000000#32, 0, 0⟩, .noise 7] := by decide +kernel
theorem test_rst_after_time :
    afterSteps 3 { State.reset with inputs := [.command ⟨0x30000000#32, 0x3F800000#32, 0⟩, .time, .rst] }
      (fun t => (t.responses, t.hi)) = some ([⟨0#32, .ok⟩], [0#32]) ∧
    afterSteps 2 { State.reset with inputs := [.command ⟨0x30000000#32, 0x3F800000#32, 0⟩, .rst] }
      (fun t => (t.responses, t.inflight)) = some ([], none) := by decide +kernel

/-! ### Witnesses: a state and operands that meet the hypotheses of each statement that has any -/

/-- Every unit has an instance 0: the hypothesis `k.toNat < ..` of each command's statement. -/
theorem witness_instances : let s := State.reset; (0#8).toNat < s.ph.length ∧ (0#8).toNat < s.cy.length ∧
    (0#8).toNat < s.hi.length ∧ (0#8).toNat < s.de.length ∧ (0#8).toNat < s.op.length ∧ (0#8).toNat < s.sl.length ∧
    (0#8).toNat < s.dl.length ∧ (0#8).toNat < s.ks.length ∧ (0#8).toNat < s.fdn.length := by decide

/-- The state in which `c` is in flight. -/
def inFlight (c : Command) (s : State) : State := { s with inflight := some c }

theorem witness_EncodeDecodeGivesTheWord : decode ⟨0x62120300#32, 5, 6⟩ = .ok (.fdnSetG 18 3 5) := by decide

theorem witness_UnusedOperandWordsAreIgnored :
    decode ⟨0x11000000#32, 1, 2⟩ = .ok (.phProc 0) ∧ decode ⟨0x21000000#32, 1, 2⟩ = .ok (.cyProc 0) ∧
    decode ⟨0x53000000#32, 1, 2⟩ = .ok (.ksProc 0) ∧ decode ⟨0x64000000#32, 1, 2⟩ = .ok (.fdnProc 0 1) ∧
    (Command.op ⟨0x64000000#32, 1, 2⟩) ∉ [0x10#8, 0x20#8, 0x32#8, 0x34#8, 0x50#8, 0x51#8] := by decide

/-- A command in flight that is executed next: nothing stands at the ports, or only `time` does. -/
theorem witness_IllegalWordAnswersErrOp (c : Command) :
    (inFlight c State.reset).inflight = some c ∧ (inFlight c State.reset).executesNext [] ∧
    (State.reset.present c).inflight = some c ∧ (State.reset.present c).executesNext [] :=
  ⟨rfl, ⟨[], by simp, .inl ⟨rfl, rfl⟩⟩, rfl, ⟨[], by simp, .inr ⟨[], rfl, rfl⟩⟩⟩

/-- One word for each way to be illegal: the twelve of the statement, in its order. -/
theorem witness_IllegalWordAnswersErrOp_clauses :
    (Command.op ⟨0x65000000#32, 0, 0⟩) ∉ [0x10#8, 0x11#8, 0x20#8, 0x21#8, 0x30#8, 0x31#8, 0x32#8, 0x33#8, 0x34#8, 0x35#8,
      0x40#8, 0x41#8, 0x42#8, 0x50#8, 0x51#8, 0x52#8, 0x53#8, 0x60#8, 0x61#8, 0x62#8, 0x63#8, 0x64#8] ∧
    BitVec.extractLsb' 0 16 0x10000001#32 ≠ 0#16 ∧ BitVec.extractLsb' 0 8 0x62000001#32 ≠ 0#8 ∧
    [0x10010000#32, 0x20010000#32, 0x30010000#32, 0x31010000#32, 0x32010000#32, 0x34010000#32, 0x40010000#32,
      0x50010000#32, 0x60010000#32].all (fun w => decide (1 ≤ (Command.inst ⟨w, 0, 0⟩).toNat)) = true := by decide +kernel

/-- Accepting past a held noise word; executing (`witness_IllegalWordAnswersErrOp` for when). -/
theorem witness_StepRunsTheDecodedCommand :
    let s := { State.reset with inputs := [.noise 5, .command ⟨0x30000000#32, 7, 0⟩] }
    s.inflight = none ∧ s.inputs = [.noise 5] ++ .command ⟨0x30000000#32, 7, 0⟩ :: [] ∧
    (∀ e ∈ [PortEvent.noise 5], s.takes e = false) ∧ decode ⟨0x30000000#32, 7, 0⟩ = .ok (.hiProc 0 7) ∧
    decode ⟨0x52000000#32, 7, 0⟩ = .ok (.ksPluck 0 7) := by
  refine ⟨rfl, rfl, fun e he => ?_, by decide, by decide⟩
  rw [List.mem_singleton.1 he]; rfl

theorem witness_IdleStepKeepsState : State.reset.inflight = none ∧
    (∀ e ∈ { State.reset with inputs := [.noise 5] }.inputs, ∃ u, e = PortEvent.noise u) ∧
    { State.reset with inputs := [.noise 5, .time] }.inputs = [5#32].map .noise ++ .time :: [] :=
  ⟨rfl, by simp, rfl⟩

theorem witness_ResetBringsEveryElementToItsValue :
    let s := plucking [.command ⟨0x53000000#32, 0, 0⟩, .rst]
    s.inputs = [.command ⟨0x53000000#32, 0, 0⟩] ++ .rst :: [] ∧
    ∀ e ∈ [PortEvent.command ⟨0x53000000#32, 0, 0⟩], s.takes e = false := by
  refine ⟨rfl, fun e he => ?_⟩
  rw [List.mem_singleton.1 he]; rfl

theorem witness_awaitsNoise : awaitsNoise (.ksPluck 0 fOne) { State.reset with ks := [voice8] } :=
  ⟨0, fOne, by decide, rfl, by decide +kernel⟩

theorem witness_not_awaitsNoise : ¬ awaitsNoise (.ksPluck 0 fOne) State.reset := by
  rintro ⟨k, g, h, e, hn⟩
  cases e
  revert h hn
  decide +kernel

theorem witness_PerSampleCommandsNeverFail : perSample (.ksPluck 0 fOne) = true ∧ (Instr.ksPluck 0 fOne).wellFormed Config.build = true ∧
    ¬ awaitsNoise (.ksPluck 0 fOne) State.reset := ⟨rfl, by decide, witness_not_awaitsNoise⟩

theorem witness_ConfigErrorChangesNothing :
    exec (.dlConfig 0 0) State.reset = .next (State.reset.respond fZero .errCap) ∧
    (State.reset.respond fZero .errCap).responses = State.reset.responses ++ [⟨fZero, .errCap⟩] ∧
    Status.errCap ≠ Status.ok := ⟨rfl, rfl, by decide⟩

theorem witness_MissingInstanceAnswersErrOp : (Instr.fdnSetM 1 0 0 0).wellFormed Config.build = false := by decide

/-- Also for `CommandsReadOnlyTheirUnit`. -/
theorem witness_CommandsWriteOnlyTheirUnit : exec (.hiProc 0 7) State.reset = .next ((State.reset.setHi 0 7).respond fZero .ok) ∧
    ¬ addresses (.hiProc 0 7) .ph 0 ∧ ¬ addresses (.hiProc 1 7) .hi 0 := by
  refine ⟨rfl, fun h => ?_, fun h => ?_⟩
  · exact absurd h.1 (by decide)
  · exact absurd h.2 (by decide)

/-- The clauses of `PH.FREQ`, `CY.FREQ` and `OP.FREQ`: rate +0; frequency at and just below Nyquist. -/
theorem witness_frequency_clauses : let q := State.reset.draw.sub 0; (0#8).toNat < State.reset.ph.length ∧ (0#8).toNat < State.reset.cy.length ∧ (0#8).toNat < State.reset.op.length ∧
    fGt fZero fZero = false ∧ fGt fOne fZero = true ∧
    (fGe fHalf fZero && fLt fHalf (fMul q fOne fHalf)) = false ∧
    fGe 0x3EFFFFFF#32 fZero = true ∧ fLt 0x3EFFFFFF#32 (fMul q fOne fHalf) = true ∧
    fGe 0x80000000#32 fZero = true ∧ fLt 0x80000000#32 (fMul q fOne fHalf) = true ∧
    fIsFinite (fMul ((State.reset.draw.sub 1).sub 0) fTwoPi 0x3EFFFFFF#32) = true := by decide +kernel

theorem witness_PhProcFollowsItsRule : (0#8).toNat < State.reset.ph.length ∧
    fAdd (State.reset.draw.sub 0) (State.reset.ph[0]'(by decide)).value (State.reset.ph[0]'(by decide)).increment = 0x00000000#32 := ⟨by decide, rfl⟩

/-- A phase and an increment at the upper ends of their ranges. -/
theorem witness_phase_inRange : (⟨fHalf, 0x3F7FFFFF#32⟩ : Phasor).inRange ∧ Phasor.reset.inRange := by
  refine ⟨⟨?_, ?_, ?_, ?_⟩, ⟨?_, ?_, ?_, ?_⟩⟩ <;> rfl

/-- The state in which `c` is presented and the phases are at the upper ends. -/
def phasesAtTheEnd (c : Command) : State :=
  { State.reset with ph := [⟨fHalf, 0x3F7FFFFF#32⟩], cy := [⟨fHalf, 0x3F7FFFFF#32⟩] }.present c

/-- Also for `CyProcInterpolatesTheTable`, `PhaseSamplesLieBelowOne` and `OscillatorSamplesAreFinite`. -/
theorem witness_phasesInRange (c : Command) : (phasesAtTheEnd c).phasesInRange := by
  constructor <;> intro p hp <;> rw [List.mem_singleton.1 hp] <;> exact witness_phase_inRange.1

theorem witness_StepKeepsPhasesInRange :
    ∃ t, step (phasesAtTheEnd ⟨0x11000000#32, 0, 0⟩) = .next t ∧ t.ph.map (·.value) = [0x3F000000#32] := by
  refine ⟨_, rfl, ?_⟩
  decide +kernel

theorem witness_PhaseWrapIsExact : fGe fOne fOne = true ∧ fLt fOne 0x40000000#32 = true ∧ fGe 0x3FFFFFFF#32 fOne = true ∧
    fLt 0x3FFFFFFF#32 0x40000000#32 = true := by decide

/-- The clauses of `SL.RATE`: rate +0; a slew at +inf, at +0 and at the greatest finite value. -/
theorem witness_SlRateFollowsItsRule : (0#8).toNat < State.reset.sl.length ∧ fGt fZero fZero = false ∧ fGt fOne fZero = true ∧
    (fGe 0x7F800000#32 fZero && fLt 0x7F800000#32 0x7F800000#32) = false ∧ fGe fZero fZero = true ∧
    fLt fZero 0x7F800000#32 = true ∧ fLt 0x7F7FFFFF#32 0x7F800000#32 = true := by decide

/-- The three ways of `SL.PROC`, with the difference just beyond the limit 1, just beyond -1, and at it. -/
theorem witness_SlProcFollowsItsRule : let q := State.reset.draw.sub 0; (0#8).toNat < State.reset.sl.length ∧
    fGt (fSub q 0x3F800001#32 fZero) fOne = true ∧
    fGt (fSub q 0xBF800001#32 fZero) fOne = false ∧ fLt (fSub q 0xBF800001#32 fZero) (fNeg fOne) = true ∧
    fGt (fSub q fOne fZero) fOne = false ∧ fLt (fSub q fOne fZero) (fNeg fOne) = false := by decide +kernel

theorem witness_StepKeepsLimitsInRange : (State.reset.present ⟨0x34000000#32, 0, fOne⟩).limitsInRange ∧
    ∃ t, step (State.reset.present ⟨0x34000000#32, 0, fOne⟩) = .next t := by
  refine ⟨fun p hp => ?_, _, rfl⟩
  rw [List.mem_singleton.1 hp]; rfl

/-- Capacities at the ends: 0 and 65537 refused, 1 and 65536 accepted. -/
theorem witness_capacity_clauses : (0#8).toNat < State.reset.dl.length ∧ ¬ (1 ≤ (0#32).toNat ∧ (0#32).toNat ≤ State.reset.capMax) ∧
    ¬ (1 ≤ (65537#32).toNat ∧ (65537#32).toNat ≤ State.reset.capMax) ∧ 1 ≤ (1#32).toNat ∧ (65536#32).toNat ≤ State.reset.capMax := by
  decide

theorem witness_DlWriteStoresAtTheCursor : Memory.wf line123.buf = true := by decide

theorem witness_DlReadInterpolates : fIsFinite (readIndex ⟨0, []⟩ line123 0x3FC00000#32) = true ∧
    fIsFinite (readIndex ⟨0, []⟩ line123 0x41100000#32) = true := by decide +kernel

theorem witness_DlReadAtNonFiniteCompletes : (0#8).toNat < State.reset.dl.length ∧ fIsFinite 0x7F800000#32 = false ∧
    fIsFinite 0x7FC00000#32 = false := by decide

/-- The state in which `c` is presented and delay line 0 is `line123`. -/
def withLine (c : Command) : State := { State.reset with dl := [line123] }.present c

theorem witness_StepKeepsLinesWellFormed : (withLine ⟨0x41000000#32, fOne, 0⟩).linesWellFormed ∧
    ∃ t, step (withLine ⟨0x41000000#32, fOne, 0⟩) = .next t := by
  refine ⟨⟨by decide, by decide, fun l hl => ?_, fun v hv => ?_, fun f hf i => ?_⟩, _, rfl⟩
  · rw [List.mem_singleton.1 hl]; rfl
  · rw [List.mem_singleton.1 hv]; rfl
  · rw [List.mem_singleton.1 hf]; revert i; decide

/-- Every word of `line123` is finite; a delay of 1 and one of the capacity, 4; an infinity is no NaN. -/
theorem witness_DelayLineRoundTrip : 2 ^ 24 ≤ 2 ^ 24 ∧ line123.wf (2 ^ 24) = true ∧ (∀ a, fIsFinite (ramRead line123 a) = true) ∧
    fIsNaN 0x7F800000#32 = false ∧ 1 < line123.capacity ∧ (∀ w ∈ [fOne, fOne, fOne], fIsFinite w = true) ∧
    ([] : List F).length + 1 ≤ line123.capacity ∧ [fOne, fOne, fOne].length + 1 ≤ line123.capacity := by
  refine ⟨le_rfl, by decide, fun a => ?_, by decide, by decide, fun w hw => ?_, by decide, by decide⟩
  · simp only [ramRead, line123, Memory.read]
    split_ifs <;> decide
  · simp only [List.mem_cons, List.not_mem_nil, or_false, or_self] at hw
    subst hw; decide

theorem witness_LerpGivesItsEnds : fIsFinite 0x7F7FFFFF#32 = true ∧ fIsFinite 0x80000000#32 = true := by decide

theorem witness_LookupFractionIsExact : fIsFinite fZero = true ∧ fLe fZero fZero = true ∧ fIsFinite 0x7F7FFFFF#32 = true ∧
    fLe fZero 0x7F7FFFFF#32 = true := by decide

/-- The clauses of `KS.CONFIG`: rates +0 and +inf refused, the least and the greatest positive accepted. -/
theorem witness_KsConfigFollowsItsRule : (0#8).toNat < State.reset.ks.length ∧ (fGt fZero fZero && fLt fZero 0x7F800000#32) = false ∧
    (fGt 0x7F800000#32 fZero && fLt 0x7F800000#32 0x7F800000#32) = false ∧ fGt 0x00000001#32 fZero = true ∧
    fLt 0x7F7FFFFF#32 0x7F800000#32 = true := by decide

/-- The clauses of `KS.SET`, by its vectors V-KS-2 on a voice of rate 8.0 and capacity 8: no rate yet; the
pitch 4.0; the pitch 1.0 (delay 8.0); the decay 0.25 (no whole period) and 0.5 (one). -/
theorem witness_KsSetFollowsItsRule : let q := State.reset.draw; (0#8).toNat < State.reset.ks.length ∧ fGt (Voice.reset 8).sr fZero = false ∧
    fGt voice8.sr fZero = true ∧ (fGt 0x40800000#32 fZero && fLt 0x40800000#32 (fMul q voice8.sr fHalf)) = false ∧
    fGt fOne fZero = true ∧ fLt fOne (fMul q voice8.sr fHalf) = true ∧
    fLt (fMul q voice8.sr (fDiv q fOne fOne)) (toF voice8.line.capacity) = false ∧
    fGt 0x40000000#32 fZero = true ∧ fLt 0x40000000#32 (fMul q voice8.sr fHalf) = true ∧
    fLt (fMul q voice8.sr (fDiv q fOne 0x40000000#32)) (toF voice8.line.capacity) = true ∧
    floorF q (fDiv q 0x3E800000#32 (fDiv q fOne 0x40000000#32)) = fZero ∧
    (fGe fZero fOne && fLt fZero 0x7F800000#32) = false ∧
    floorF q (fDiv q 0x3F000000#32 (fDiv q fOne 0x40000000#32)) = fOne ∧
    fGe fOne fOne = true ∧ fLt fOne 0x7F800000#32 = true := by decide +kernel

/-- 8.0 times 0.5 is 4.0, and +0 times +0 is +0, whichever draw stands by. -/
theorem test_products (q : Draw) : fMul q voice8.sr voice8.delayTime = 0x40800000#32 ∧
    fMul q voice8.delayTime voice8.sr = 0x40800000#32 ∧ fMul q fZero fZero = fZero := by
  refine ⟨?_, ?_, ?_⟩ <;> simp only [fMul] <;>
    rw [if_neg (by decide), if_neg (by decide), if_neg (by decide)] <;> decide +kernel

theorem witness_voice_inRange : voice8.inRange ∧ (Voice.reset 65536).inRange := by
  refine ⟨⟨.inr (by decide), .inr (by decide), fun q => ?_, by decide, by decide⟩,
    ⟨.inl rfl, .inl rfl, fun q => ?_, by decide, by decide⟩⟩
  · rw [(test_products q).1]; decide +kernel
  · rw [show fMul q (Voice.reset 65536).sr (Voice.reset 65536).delayTime = fZero from (test_products q).2.2]; decide +kernel

/-- The burst of R154's example: four noise words, at the port one more. -/
theorem witness_PluckStoresItsBurst (q : Draw) : voice8.line.wf State.reset.capMax = true ∧ voice8.inRange ∧
    ((4 : Nat) : Int) = ceilZ (fMul q voice8.delayTime voice8.sr) ∧ 4 ≤ (noise4 ++ [7]).length :=
  ⟨by decide, witness_voice_inRange.1, by rw [(test_products q).2.1]; decide +kernel, by decide⟩

/-- The four words of the burst still to come, past a held command; `L` is 4. -/
theorem witness_StarvedPluckWaits :
    let s := plucking (.command ⟨0x53000000#32, 0, 0⟩ :: noise4.map .noise)
    s.inflight = some ⟨0x52000000#32, 0x3F800000#32, 0⟩ ∧
    decode ⟨0x52000000#32, 0x3F800000#32, 0⟩ = .ok (.ksPluck 0 fOne) ∧
    (plucking [.command ⟨0x53000000#32, 0, 0⟩]).inputs = [⟨0x53000000#32, 0, 0⟩].map .command ∧
    s.inputs = [⟨0x53000000#32, 0, 0⟩].map .command ++ .noise 0x3F800000#32 :: (noise4.drop 1).map .noise ∧
    s.inputs = [⟨0x53000000#32, 0, 0⟩].map .command ++ noise4.map .noise ∧
    s.noise.length < fillLength (s.draw.sub 0) voice8 ∧
    s.noise.length + noise4.length = fillLength (s.draw.sub 0) voice8 :=
  ⟨rfl, by decide, rfl, rfl, rfl, by decide +kernel, by decide +kernel⟩

theorem witness_KsProcFollowsItsRule : (0#8).toNat < State.reset.ks.length ∧ Memory.wf (State.reset.ks[0]'(by decide)).line.buf = true :=
  ⟨by decide, rfl⟩

/-- The state in which `c` is presented and voice 0 is `voice8`. -/
def withVoice (c : Command) : State := { State.reset with ks := [voice8] }.present c

theorem witness_StepKeepsVoicesInRange : (withVoice ⟨0x50000000#32, fOne, 1⟩).voicesInRange ∧
    (∃ t, step (withVoice ⟨0x50000000#32, fOne, 1⟩) = .next t) ∧
    ∀ exp pow rom, ∃ t, stepWith exp pow rom (withVoice ⟨0x50000000#32, fOne, 1⟩) = .next t := by
  refine ⟨⟨by decide, fun v hv => ?_⟩, ⟨_, rfl⟩, fun _ _ _ => ⟨_, rfl⟩⟩
  rw [List.mem_singleton.1 hv]; exact witness_voice_inRange.1

/-- A step: the coarsest function that may stand for `fexp`. -/
def coarseExp (q : Draw) (x : F) : F := if fIsNaN x then fNaN q else if fLt x fZero then fZero else fOne

/-- The coarsest function that may stand for `fpow`. -/
def coarsePow (b e : F) : F := if fLt e fOne then fOne else b

theorem witness_admissibleExp : admissibleExp coarseExp := by
  refine ⟨?_, ?_, ?_, ?_, ?_, ?_⟩
  · intro q q' x h; simp [coarseExp, h]
  · intro q; constructor <;> rfl
  · intro q x h1 h2
    simp only [coarseExp, h2, not_nan_of_finite h1, if_true, Bool.false_eq_true, if_false]; decide
  · intro q; rfl
  · intro q x y h
    have hn : fIsNaN x = false ∧ fIsNaN y = false := by
      simp only [fLe, Bool.and_eq_true, Bool.not_eq_true', decide_eq_true_eq] at h
      simpa using h.1
    simp only [coarseExp, hn.1, hn.2, Bool.false_eq_true, if_false]
    by_cases hx : fLt x fZero = true
    · simp only [hx, if_true]; split <;> decide
    · have hy : ¬ fLt y fZero = true := by
        rw [fLt_iff_units hn.2 (by decide)]; rw [fLt_iff_units hn.1 (by decide)] at hx
        rw [fLe_iff_units hn.1 hn.2] at h; omega
      simp only [hx, hy, if_false, Bool.false_eq_true]; decide
  · intro q x h; simp [coarseExp, h]

theorem witness_admissiblePow : admissiblePow coarsePow := by
  have self (b : F) (h : fLt b fOne = true) : fLe b b = true ∧ fLe b fOne = true := by
    have hb : fIsNaN b = false := by
      by_contra hc; simp [fLt, hc] at h
    rw [fLt_iff_units hb (by decide)] at h
    rw [fLe_iff_units hb hb, fLe_iff_units hb (by decide)]; omega
  refine ⟨?_, ?_, ?_⟩
  · intro b; simp [coarsePow, show fLt fOne fOne = false by decide]
  · intro b e _ h2 _ _
    simp only [coarsePow]; split
    · exact ⟨(self b h2).2, by decide⟩
    · exact self b h2
  · intro b e₁ e₂ _ h2 _ h4 _
    simp only [coarsePow]
    split_ifs with c₂ c₁ c₁
    · decide
    · simp only [fLe, fLt, Bool.and_eq_true, decide_eq_true_eq, not_and] at h4 c₂ c₁
      have := c₁ ⟨h4.1.1, c₂.1.2⟩
      omega
    · exact (self b h2).2
    · exact (self b h2).1

theorem witness_StringNeverOverruns : 65536 ≤ 2 ^ 24 ∧ voice8.line.wf 65536 = true ∧ voice8.inRange ∧
    (Voice.reset 65536).line.wf 65536 = true ∧ (Voice.reset 65536).inRange :=
  ⟨by decide, by decide, witness_voice_inRange.1, by decide, witness_voice_inRange.2⟩

/-- The clauses of `FDN.CONFIG` at reset: 3001 is not above every delay, 3002 and 65536 are. -/
theorem witness_FdnConfigFollowsItsRule : (0#8).toNat < State.reset.fdn.length ∧
    (∃ i : Fin Config.fdnN, fLt fdnDly0[i] (toF (3001#32).toNat) = false) ∧
    (∀ i : Fin Config.fdnN, fLt fdnDly0[i] (toF (3002#32).toNat) = true) ∧
    (∀ i : Fin Config.fdnN, fLt fdnDly0[i] (toF (65536#32).toNat) = true) := by decide +kernel

/-- The clauses of `FDN.SETM` and `FDN.SETG`: indices 5 and 4; a NaN; the greatest finite value. -/
theorem witness_FdnSet_clauses : (0#8).toNat < State.reset.fdn.length ∧ ¬ ((5#8).toNat < Config.fdnN ∧ (0#8).toNat < Config.fdnN) ∧
    Config.fdnN ≤ (5#8).toNat ∧ (4#8).toNat < Config.fdnN ∧ fIsFinite 0x7FC00000#32 = false ∧
    fIsFinite 0x7F7FFFFF#32 = true := by decide

/-- The clauses of `FDN.SETD` at reset: 65536.0 refused, -0 and the greatest delay below accepted. -/
theorem witness_FdnSetDFollowsItsRule :
    (fGe 0x47800000#32 fZero && fLt 0x47800000#32 (toF (State.reset.fdn[0]'(by decide)).line[4].capacity)) = false ∧
    fGe 0x80000000#32 fZero = true ∧ fLt 0x80000000#32 (toF (State.reset.fdn[0]'(by decide)).line[4].capacity) = true ∧
    fLt 0x477FFFFF#32 (toF (State.reset.fdn[0]'(by decide)).line[4].capacity) = true := by decide +kernel

/-- The outputs and the words written back exist: those that the two equations name. -/
theorem witness_FdnProcFollowsItsRule :
    (∀ i : Fin Config.fdnN, Memory.wf network.line[i].buf = true) ∧
    (∀ i : Fin Config.fdnN, (fdnRead ⟨0, []⟩ network)[i] = lineRead (Draw.sub ⟨0, []⟩ i) network.line[i] network.dly[i]) := by
  decide +kernel

theorem witness_reverb_inRange : network.delaysInRange ∧ network.coefficientsFinite := by
  refine ⟨?_, ?_, ?_⟩
  · unfold Reverb.delaysInRange; decide +kernel
  · decide +kernel
  · decide +kernel

theorem witness_StepKeepsReverbsInRange :
    ({ State.reset with fdn := [network] }.present ⟨0x60000000#32, 6, 0⟩).reverbsInRange ∧
    ∃ t, step ({ State.reset with fdn := [network] }.present ⟨0x60000000#32, 6, 0⟩) = .next t := by
  refine ⟨⟨by decide, fun f hf => ?_⟩, _, rfl⟩
  rw [List.mem_singleton.1 hf]; exact witness_reverb_inRange

/-- One third of a unit, a tie and an exact value: all below the infinity. -/
theorem witness_RoundingIsToNearestEven : roundMag 1 3 < infMag ∧ roundMag 1 2 < infMag ∧ roundMag 7 1 < infMag ∧
    0x7F7FFFFF < infMag := by decide

theorem witness_OnlyNaNResultsAreOpen (q : Draw) : (fIsNaN 0x7FC00000#32 || fIsNaN fOne) = true ∧
    fIsNaN (fAdd q fOne fOne) = false ∧ fIsNaN (fSub q fOne fOne) = false ∧ fIsNaN (fMul q fOne fOne) = false ∧
    fIsNaN (fDiv q fOne fOne) = false := by
  refine ⟨by decide, ?_, ?_, ?_, ?_⟩ <;> rfl

theorem witness_ElementaryFunctionsKeepTheirRanges : fIsFinite 0x80000001#32 = true ∧ fLt 0x80000001#32 fZero = true ∧
    fIsNaN 0x7FC00000#32 = true ∧ fLt fZero fDb60 = true ∧ fLt fDb60 fOne = true ∧ fLt fZero 0x00000001#32 = true ∧
    fLe fOne fOne = true ∧ fIsZero 0x80000000#32 = true ∧ fIsFinite 0x00000001#32 = true := by decide

theorem witness_EveryRunKeepsTheInvariants : (withVoice ⟨0x53000000#32, 0, 0⟩).inv := by
  refine ⟨⟨fun p hp => ?_, fun p hp => ?_⟩, ⟨by decide, by decide, fun l hl => ?_, fun v hv => ?_, fun f hf i => ?_⟩,
    ⟨by decide, fun v hv => ?_⟩, ⟨by decide, fun f hf => ?_⟩, fun p hp => ?_⟩
  · rw [List.mem_singleton.1 hp]; exact witness_phase_inRange.2
  · rw [List.mem_singleton.1 hp]; exact witness_phase_inRange.2
  · rw [List.mem_singleton.1 hl]; rfl
  · rw [List.mem_singleton.1 hv]; rfl
  · rw [List.mem_singleton.1 hf]; revert i; decide +kernel
  · rw [List.mem_singleton.1 hv]; exact witness_voice_inRange.1
  · rw [List.mem_singleton.1 hf]
    refine ⟨?_, ?_, ?_⟩
    · unfold Reverb.delaysInRange; decide +kernel
    · decide +kernel
    · decide +kernel
  · rw [List.mem_singleton.1 hp]; rfl

theorem witness_UnconfiguredUnitsAreSilent : State.reset.capMax ≤ 2 ^ 24 ∧ State.reset.ph = [Phasor.reset] ∧
    State.reset.cy = [Phasor.reset] ∧ State.reset.ks = [Voice.reset State.reset.capMax] ∧
    Voice.reset State.reset.capMax =
      { Voice.reset State.reset.capMax with line := { DelayLine.reset State.reset.capMax with index := 0 } } ∧
    65535 < State.reset.capMax := ⟨by decide, rfl, rfl, rfl, rfl, by decide⟩

end Sys2Proof.Tests
end

section
/-! The arithmetic of `F` (spec/00_scope.md R11, R14, R54, R101): what rounding gives, which exact results need
no rounding, and what is open in a result. -/

namespace Sys2Proof.Machine

/-! ### Rounding is to nearest, ties to even (R6, R11) -/

/-- No multiple of `D` is nearer to `n` than the rounded one, and of two equally near the even one is given. -/
theorem roundHalfEven_nearest {n D : Nat} (hD : 0 < D) (k : Nat) :
    ((n : Int) - (roundHalfEven n D * D : Nat)).natAbs ≤ ((n : Int) - (k * D : Nat)).natAbs ∧
    (((n : Int) - (roundHalfEven n D * D : Nat)).natAbs = ((n : Int) - (k * D : Nat)).natAbs →
      k ≠ roundHalfEven n D → roundHalfEven n D % 2 = 0) := by
  have hn : n / D * D + n % D = n := Nat.div_add_mod' n D
  have hr : n % D < D := Nat.mod_lt _ hD
  have hsucc : (n / D + 1) * D = n / D * D + D := by ring
  rcases Nat.lt_trichotomy k (n / D) with hk | rfl | hk
  · have : k * D + D ≤ n / D * D := by nlinarith
    unfold roundHalfEven; split <;> omega
  · unfold roundHalfEven; split <;> omega
  · obtain rfl | hk : k = n / D + 1 ∨ n / D + 1 < k := by omega
    · unfold roundHalfEven; split <;> omega
    · have : (n / D + 1) * D + D ≤ k * D := by nlinarith
      unfold roundHalfEven; split <;> omega

/-- The units of a magnitude whose last place is `2 ^ e` units and whose significand is `k`. -/
theorem magUnits_of_significand {e k : Nat} (hk : k ≤ 2 ^ 24) (h : e = 0 ∨ 2 ^ 23 ≤ k) :
    magUnits (e * 2 ^ 23 + k) = k * 2 ^ e := by
  rcases Nat.lt_or_ge k (2 ^ 23) with hlow | hnorm
  · obtain rfl : e = 0 := by omega
    rw [magUnits, if_pos (by omega)]; simp
  · rcases Nat.lt_or_eq_of_le hk with hlt | rfl
    · have hdiv : (e * 2 ^ 23 + k) / 2 ^ 23 = e + 1 := by omega
      have hmod : 2 ^ 23 + (e * 2 ^ 23 + k) % 2 ^ 23 = k := by omega
      rw [magUnits, hdiv, hmod, if_neg (Nat.succ_ne_zero _), Nat.add_sub_cancel]
    · have hdiv : (e * 2 ^ 23 + 2 ^ 24) / 2 ^ 23 = e + 2 := by omega
      have hmod : (e * 2 ^ 23 + 2 ^ 24) % 2 ^ 23 = 0 := by omega
      rw [magUnits, hdiv, hmod, if_neg (Nat.succ_ne_zero _), show e + 2 - 1 = e + 1 from rfl, pow_succ]; ring

/-- From the magnitude with the last place `2 ^ e` on, every magnitude is a whole number of such places. -/
theorem pow_dvd_magUnits {e m : Nat} (h : e = 0 ∨ (e + 1) * 2 ^ 23 ≤ m) : 2 ^ e ∣ magUnits m := by
  rcases h with rfl | h
  · exact one_dvd _
  · have hdiv : e + 1 ≤ m / 2 ^ 23 := (Nat.le_div_iff_mul_le (by decide)).2 h
    rw [magUnits, if_neg (by omega)]
    exact (Nat.pow_dvd_pow 2 (by omega)).mul_left _

/-- The rounding that does not overflow: the significand rounded to an integer, in units of its last place; a
last place above the least one goes with a full significand, of the exact value as of the rounding. -/
theorem roundMag_finite {n d : Nat} (hd : 0 < d) (h : roundMag n d < infMag) : ∃ e,
    roundMag n d = e * 2 ^ 23 + roundHalfEven n (d * 2 ^ e) ∧
    magUnits (roundMag n d) = roundHalfEven n (d * 2 ^ e) * 2 ^ e ∧
    (e = 0 ∨ 2 ^ 23 * (d * 2 ^ e) ≤ n) := by
  have hmag : roundMag n d = (Nat.log2 (n / d) - 23) * 2 ^ 23 +
      roundHalfEven n (d * 2 ^ (Nat.log2 (n / d) - 23)) := by
    unfold roundMag at h ⊢; dsimp only at h ⊢; omega
  have hlt := significand_lt n d
  have hle := @le_significand n d
  have hup := roundHalfEven_le n (d * 2 ^ (Nat.log2 (n / d) - 23))
  have hlo := le_roundHalfEven n (d * 2 ^ (Nat.log2 (n / d) - 23))
  rw [Nat.div_div_eq_div_mul] at hlt hle
  refine ⟨Nat.log2 (n / d) - 23, hmag, ?_, ?_⟩
  · rw [hmag]; exact magUnits_of_significand (by omega) (by omega)
  · rcases Nat.eq_zero_or_pos (Nat.log2 (n / d) - 23) with h0 | hpos
    · exact .inl h0
    · exact .inr ((Nat.le_div_iff_mul_le (by positivity)).1 (hle hpos))

/-- Below `least ≤ n` everything is farther from `n` than what is as near as `least`. -/
theorem natAbs_sub_lt_of_below {n x least r : Nat} (hx : x < least) (hn : least ≤ n)
    (hr : ((n : Int) - (r : Nat)).natAbs ≤ ((n : Int) - (least : Nat)).natAbs) :
    ((n : Int) - (r : Nat)).natAbs < ((n : Int) - (x : Nat)).natAbs := by omega

/-- Settles O55: the rounding is the nearest multiple of its last place, every magnitude above the binade is such a
multiple, and every magnitude below is farther than the binade's least value. -/
theorem roundingIsToNearestEven : Obligations.RoundingIsToNearestEven := by
  intro n d m hd hfin _
  obtain ⟨e, hmag, hunits, hrange⟩ := roundMag_finite hd hfin
  have hD : 0 < d * 2 ^ e := by positivity
  have hval : magUnits (roundMag n d) * d = roundHalfEven n (d * 2 ^ e) * (d * 2 ^ e) := by rw [hunits]; ring
  by_cases hm : e = 0 ∨ (e + 1) * 2 ^ 23 ≤ m
  · obtain ⟨k, hk⟩ := pow_dvd_magUnits hm
    have hkval : magUnits m * d = k * (d * 2 ^ e) := by rw [hk]; ring
    obtain ⟨hnear, htie⟩ := roundHalfEven_nearest (n := n) hD k
    rw [← hval, ← hkval] at hnear htie
    push_cast at hnear htie
    refine ⟨hnear, fun heq hne => ?_⟩
    have hkne : k ≠ roundHalfEven n (d * 2 ^ e) := by
      rintro rfl
      have hsame : magUnits m = magUnits (roundMag n d) := by rw [hk, hunits, Nat.mul_comm]
      exact hne (le_antisymm (magUnits_le_iff.1 hsame.le) (magUnits_le_iff.1 hsame.ge))
    have := htie heq hkne
    omega
  · obtain ⟨he, hm⟩ := not_or.1 hm
    have hbinade : magUnits (e * 2 ^ 23 + 2 ^ 23) = 2 ^ 23 * 2 ^ e :=
      magUnits_of_significand (by decide) (.inr le_rfl)
    have hbelow : magUnits m < 2 ^ 23 * 2 ^ e := hbinade ▸ magUnits_lt_iff.2 (by omega)
    have hbelow' : magUnits m * d < 2 ^ 23 * (d * 2 ^ e) := by
      calc magUnits m * d < 2 ^ 23 * 2 ^ e * d := Nat.mul_lt_mul_of_pos_right hbelow hd
        _ = 2 ^ 23 * (d * 2 ^ e) := by ring
    have hn := hrange.resolve_left he
    have hnear := (roundHalfEven_nearest (n := n) hD (2 ^ 23)).1
    rw [← hval] at hnear
    have hfar := natAbs_sub_lt_of_below hbelow' hn hnear
    push_cast at hfar
    exact ⟨hfar.le, fun heq => absurd heq hfar.ne⟩

/-! ### Exact results need no rounding (R11) -/

/-- A finite magnitude is a significand of 24 bits in units of its last place. -/
theorem exists_significand {m : Nat} (hm : m < infMag) : ∃ k e, k < 2 ^ 24 ∧ e < 254 ∧ magUnits m = k * 2 ^ e := by
  simp only [infMag] at hm
  by_cases h : m / 2 ^ 23 = 0
  · exact ⟨m, 0, by omega, by decide, by rw [magUnits, if_pos h]; simp⟩
  · exact ⟨2 ^ 23 + m % 2 ^ 23, m / 2 ^ 23 - 1, by omega, by omega, by rw [magUnits, if_neg h]⟩

/-- Every significand of 24 bits at a last place in range is a finite magnitude. -/
theorem exists_magUnits {k e : Nat} (hk : k < 2 ^ 24) (he : e < 254) : ∃ m < infMag, magUnits m = k * 2 ^ e := by
  induction e generalizing k with
  | zero =>
    have hunits := magUnits_of_significand (e := 0) hk.le (.inl rfl)
    exact ⟨k, by simp only [infMag]; omega, by simpa using hunits⟩
  | succ e ih =>
    by_cases hfull : 2 ^ 23 ≤ k
    · exact ⟨(e + 1) * 2 ^ 23 + k, by simp only [infMag]; omega, magUnits_of_significand hk.le (.inr hfull)⟩
    · obtain ⟨m, hm, hu⟩ := ih (k := k * 2) (by omega) (by omega)
      exact ⟨m, hm, by rw [hu, pow_succ]; ring⟩

/-- A sum of units that a magnitude holds is packed as it is. -/
theorem fOfUnits_magUnits {m : Nat} (hm : m ≤ infMag) : fOfUnits (magUnits m) = fPack false m := by
  have hround := roundMag_exact Nat.one_pos hm
  rw [Nat.mul_one] at hround
  have hsign : decide ((magUnits m : Int) < 0) = false := decide_eq_false (by omega)
  rw [fOfUnits, hsign, Int.natAbs_natCast, hround]

/-- A sum of units with a significand of 24 bits is exact and finite. -/
theorem fOfUnits_significand {u : Int} {k e : Nat} (hk : k < 2 ^ 24) (he : e < 254) (hu : u = (k * 2 ^ e : Nat)) :
    fUnits (fOfUnits u) = u ∧ fIsFinite (fOfUnits u) = true := by
  obtain ⟨m, hm, hunits⟩ := exists_magUnits hk he
  have hlt := hm.trans infMag_lt
  rw [hu, ← hunits, fOfUnits_magUnits hm.le, fIsFinite_iff, fMag_pack _ hlt, fUnits_pack _ hlt]
  exact ⟨by simp, hm⟩

/-- A sum of finite values with a significand of 24 bits is exact and finite. -/
theorem fAdd_significand (q : Draw) {a b : F} (ha : fIsFinite a = true) (hb : fIsFinite b = true) {k e : Nat}
    (hk : k < 2 ^ 24) (he : e < 254) (hu : fUnits a + fUnits b = (k * 2 ^ e : Nat)) :
    fUnits (fAdd q a b) = fUnits a + fUnits b ∧ fIsFinite (fAdd q a b) = true := by
  obtain ⟨hval, hfin⟩ := fOfUnits_significand hk he hu
  refine ⟨(fUnits_fAdd q ha hb).trans hval, ?_⟩
  rw [fAdd_finite q ha hb]
  split
  · cases fSign a && fSign b <;> decide
  · exact hfin

@[simp] theorem fIsFinite_neg (x : F) : fIsFinite (fNeg x) = fIsFinite x := by simp [fIsFinite]

@[simp] theorem fUnits_fOne : fUnits fOne = 2 ^ 149 := by decide

@[simp] theorem fUnits_fZero : fUnits fZero = 0 := by decide

/-- The values in `[1, 2)`: 24 significant bits at the last place `2 ^ -23`. -/
theorem fUnits_between_one_and_two {v : F} (h1 : fGe v fOne = true) (h2 : fLt v 0x40000000#32 = true) :
    fIsFinite v = true ∧ ∃ k, 2 ^ 23 ≤ k ∧ k < 2 ^ 24 ∧ fUnits v = (k * 2 ^ 126 : Nat) := by
  have hkey1 : fKey fOne = 0x3F800000 := by decide
  have hkey2 : fKey 0x40000000#32 = 0x40000000 := by decide
  simp only [fGe, fLe, fLt, Bool.and_eq_true, decide_eq_true_eq, hkey1, hkey2] at h1 h2
  obtain ⟨⟨_, hge⟩, _, hlt⟩ := And.intro h1 h2
  cases hsign : fSign v with
  | true =>
    simp only [fKey, hsign, if_true] at hge
    omega
  | false =>
    simp only [fKey, hsign, Bool.false_eq_true, if_false] at hge hlt
    have hunits := magUnits_of_significand (e := 126) (k := fMag v - 126 * 2 ^ 23) (by omega) (by omega)
    rw [Nat.add_sub_cancel' (by omega)] at hunits
    refine ⟨by rw [fIsFinite_iff, infMag]; omega, fMag v - 126 * 2 ^ 23, by omega, by omega, ?_⟩
    rw [← hunits, fUnits, hsign, if_neg Bool.false_ne_true]

/-- Settles O22: the difference keeps the last place of the operand, `2 ^ -23`. -/
theorem phaseWrapIsExact : Obligations.PhaseWrapIsExact := by
  intro q v h1 h2
  obtain ⟨hfin, k, hk1, hk2, hv⟩ := fUnits_between_one_and_two h1 h2
  have hsum : fUnits v + fUnits (fNeg fOne) = ((k - 2 ^ 23) * 2 ^ 126 : Nat) := by
    rw [hv, fUnits_neg, fUnits_fOne, Nat.cast_mul, Nat.cast_mul, Nat.cast_sub hk1]; push_cast; ring
  obtain ⟨hval, hfinite⟩ := fAdd_significand q hfin (b := fNeg fOne) (by decide) (by omega) (by decide) hsum
  exact ⟨by rw [fSub, hval, fUnits_neg, fUnits_fOne]; rfl, hfinite⟩

/-! ### The split of an index (R12, R54) -/

/-- The whole part and the rest of a significand are significands. -/
theorem significand_split {k e : Nat} (hk : k < 2 ^ 24) (he : e < 254) :
    (∃ k' e', k' < 2 ^ 24 ∧ e' < 254 ∧ k * 2 ^ e / 2 ^ 149 * 2 ^ 149 = k' * 2 ^ e') ∧
    (∃ k' e', k' < 2 ^ 24 ∧ e' < 254 ∧ k * 2 ^ e % 2 ^ 149 = k' * 2 ^ e') := by
  rcases Nat.lt_or_ge e 149 with hlt | hge
  · have hpow : 2 ^ 149 = 2 ^ (149 - e) * 2 ^ e := by rw [← Nat.pow_add]; congr 1; omega
    refine ⟨⟨k / 2 ^ (149 - e), 149, (Nat.div_le_self _ _).trans_lt hk, by decide, ?_⟩,
      k % 2 ^ (149 - e), e, (Nat.mod_le _ _).trans_lt hk, he, ?_⟩
    · rw [hpow, Nat.mul_div_mul_right _ _ (by positivity)]
    · rw [hpow, Nat.mul_mod_mul_right]
  · have hdvd : 2 ^ 149 ∣ k * 2 ^ e := (Nat.pow_dvd_pow 2 hge).mul_left _
    exact ⟨⟨k, e, hk, he, Nat.div_mul_cancel hdvd⟩, 0, 0, by decide, by decide,
      by rw [Nat.mod_eq_zero_of_dvd hdvd, Nat.zero_mul]⟩

/-- A finite value that is not negative, in units: a significand at its last place. -/
theorem fUnits_of_nonneg {x : F} (hx : fIsFinite x = true) (h0 : fLe fZero x = true) :
    ∃ k e, k < 2 ^ 24 ∧ e < 254 ∧ fUnits x = (k * 2 ^ e : Nat) := by
  obtain ⟨k, e, hk, he, hu⟩ := exists_significand ((fIsFinite_iff x).1 hx)
  rw [fLe_iff_units (by decide) (not_nan_of_finite hx), fUnits_fZero] at h0
  have habs := fUnits_natAbs x
  exact ⟨k, e, hk, he, by rw [← hu]; omega⟩

/-- The integer part of a finite value that is not negative is exact. -/
theorem floorF_exact (q : Draw) {x : F} (hx : fIsFinite x = true) (h0 : fLe fZero x = true) :
    fUnits (floorF q x) = floorZ x * 2 ^ 149 ∧ fIsFinite (floorF q x) = true := by
  have hnan := not_nan_of_finite hx
  have hinf := not_inf_of_finite hx
  by_cases hz : fIsZero x = true
  · simp [floorF, hnan, hz, hx, floorZ, (fUnits_eq_zero x).2 hz]
  · obtain ⟨k, e, hk, he, hu⟩ := fUnits_of_nonneg hx h0
    obtain ⟨k', e', hk', he', hfloor⟩ := (significand_split hk he).1
    have hint : floorZ x * 2 ^ 149 = (k' * 2 ^ e' : Nat) := by
      rw [← hfloor, floorZ, hu]; push_cast; rfl
    simp only [floorF, hnan, hinf, hz, Bool.or_self, Bool.false_eq_true, if_false, fOfInt]
    split
    · rename_i hi
      rw [hi]; decide
    · exact fOfUnits_significand hk' he' hint

/-- Settles O41: the fraction is the remainder of the index by 1 in units, a significand of 24 bits. -/
theorem lookupFractionIsExact : Obligations.LookupFractionIsExact := by
  intro q x hx h0
  obtain ⟨hfloor, hfin⟩ := floorF_exact q hx h0
  obtain ⟨k, e, hk, he, hu⟩ := fUnits_of_nonneg hx h0
  obtain ⟨k', e', hk', he', hrest⟩ := (significand_split hk he).2
  have hmod : fUnits x - floorZ x * 2 ^ 149 = fUnits x % 2 ^ 149 := by
    have := Int.emod_add_ediv_mul (fUnits x) (2 ^ 149)
    rw [floorZ]; linarith
  have hsum : fUnits x + fUnits (fNeg (floorF q x)) = fUnits x % 2 ^ 149 := by
    rw [fUnits_neg, hfloor, ← hmod]; rfl
  have hsig : fUnits x + fUnits (fNeg (floorF q x)) = (k' * 2 ^ e' : Nat) := by
    rw [hsum, ← hrest, hu]; push_cast; rfl
  obtain ⟨hval, hfinite⟩ := fAdd_significand q hx (b := fNeg (floorF q x)) (by rwa [fIsFinite_neg]) hk' he' hsig
  have hnan := not_nan_of_finite hfinite
  rw [hsum] at hval
  refine ⟨hfloor, hval.trans hmod.symm, ?_, ?_⟩
  · rw [fSub, fLe_iff_units (by decide) hnan, fUnits_fZero, hval]
    exact Int.emod_nonneg _ (by decide)
  · rw [fSub, fLt_iff_units hnan (by decide), fUnits_fOne, hval]
    exact Int.emod_lt_of_pos _ (by decide)

/-! ### The ends of the interpolation (R14) -/

/-- `a = b` of values that are not NaN, by units. -/
theorem fEq_iff_units {a b : F} (ha : fIsNaN a = false) (hb : fIsNaN b = false) :
    fEq a b = true ↔ fUnits a = fUnits b := by
  have hle := fKey_le_iff a b
  have hge := fKey_le_iff b a
  simp only [fEq, ha, hb, Bool.not_false, Bool.and_self, Bool.true_and, decide_eq_true_eq]
  omega

/-- A product with `ONE` is the other factor, bit for bit. -/
theorem fMul_fOne (q : Draw) {a : F} (ha : fIsFinite a = true) : fMul q fOne a = a := by
  have hround : roundMag (magUnits (fMag fOne) * magUnits (fMag a)) (2 ^ 149) = fMag a := by
    rw [show magUnits (fMag fOne) = 2 ^ 149 by decide, Nat.mul_comm]
    exact roundMag_exact (by decide) ((fIsFinite_iff a).1 ha).le
  rw [fMul_finite q (by decide) ha, hround, show fSign fOne = false by decide, Bool.false_bne, fPack_fields]

/-- A product of `+0` and a finite value is a zero. -/
theorem fMul_fZero (q : Draw) {a : F} (ha : fIsFinite a = true) :
    fIsFinite (fMul q fZero a) = true ∧ fUnits (fMul q fZero a) = 0 := by
  have hround : roundMag (magUnits (fMag fZero) * magUnits (fMag a)) (2 ^ 149) = 0 := by
    rw [show magUnits (fMag fZero) = 0 by decide, Nat.zero_mul]; decide
  rw [fMul_finite q (by decide) ha, hround]
  cases fSign fZero != fSign a <;> decide

/-- A finite sum whose exact value is that of a finite `c` equals `c`. -/
theorem fAdd_eq_of_units (q : Draw) {a b c : F} (ha : fIsFinite a = true) (hb : fIsFinite b = true)
    (hc : fIsFinite c = true) (h : fUnits a + fUnits b = fUnits c) : fEq (fAdd q a b) c = true := by
  rw [fEq_iff_units (fAdd_notNaN q ha hb) (not_nan_of_finite hc), fUnits_fAdd q ha hb]
  exact fOfUnits_exact (not_nan_of_finite hc) h

/-- Settles O40: at an end one weight is `ONE` and the other a zero. -/
theorem lerpGivesItsEnds : Obligations.LerpGivesItsEnds := by
  intro q a b ha hb
  have hweight0 : fSub (q.sub 0) fOne fZero = fOne := rfl
  have hweight1 : fSub (q.sub 0) fOne fOne = fZero := rfl
  obtain ⟨hfa, hua⟩ := fMul_fZero (q.sub 1) ha
  obtain ⟨hfb, hub⟩ := fMul_fZero (q.sub 2) hb
  constructor
  · rw [lerp, hweight0, fMul_fOne _ ha]
    exact fAdd_eq_of_units _ ha hfb ha (by rw [hub, add_zero])
  · rw [lerp, hweight1, fMul_fOne _ hb]
    exact fAdd_eq_of_units _ hfa hb hb (by rw [hua, zero_add])

/-! ### What is open in a result (R11, U1) -/

@[simp] theorem fIsNaN_neg (x : F) : fIsNaN (fNeg x) = fIsNaN x := by simp [fIsNaN]

theorem fAdd_nan (q : Draw) {a b : F} (h : (fIsNaN a || fIsNaN b) = true) : fAdd q a b = fNaN q := by
  rw [fAdd, if_pos h]

theorem fMul_nan (q : Draw) {a b : F} (h : (fIsNaN a || fIsNaN b) = true) : fMul q a b = fNaN q := by
  rw [fMul, if_pos h]

theorem fDiv_nan (q : Draw) {a b : F} (h : (fIsNaN a || fIsNaN b) = true) : fDiv q a b = fNaN q := by
  rw [fDiv, if_pos h]

/-- A sum that is no NaN does not depend on the draw: no branch's condition names it, and a branch that does gives a
NaN. -/
theorem fAdd_draw (q q' : Draw) {a b : F} (h : fIsNaN (fAdd q a b) = false) : fAdd q' a b = fAdd q a b := by
  unfold fAdd at h ⊢
  split_ifs at h ⊢ <;> simp_all

theorem fMul_draw (q q' : Draw) {a b : F} (h : fIsNaN (fMul q a b) = false) : fMul q' a b = fMul q a b := by
  unfold fMul at h ⊢
  split_ifs at h ⊢ <;> simp_all

theorem fDiv_draw (q q' : Draw) {a b : F} (h : fIsNaN (fDiv q a b) = false) : fDiv q' a b = fDiv q a b := by
  unfold fDiv at h ⊢
  split_ifs at h ⊢ <;> simp_all

/-- Settles O56, operation by operation; a difference is the sum with the sign flipped. -/
theorem onlyNaNResultsAreOpen : Obligations.OnlyNaNResultsAreOpen := by
  refine ⟨fun q a b h => ?_, fun q q' a b => ⟨fAdd_draw q q', fAdd_draw q q', fMul_draw q q', fDiv_draw q q'⟩⟩
  have hneg : (fIsNaN a || fIsNaN (fNeg b)) = true := by rwa [fIsNaN_neg]
  rw [fSub, fAdd_nan q h, fAdd_nan q hneg, fMul_nan q h, fDiv_nan q h]
  simp

end Sys2Proof.Machine
end

section
/-! The set-up commands with a frequency or a pitch (spec/41_phasor.md R100, spec/42_wavetable.md R110,
spec/43_filter_stages.md R122, spec/45_karplus_strong.md R152): their checks in order and what they store. -/

namespace Sys2Proof.Machine

/-- The two checks that R100, R110 and R122 share, before what the command does when both pass. -/
def afterFrequencyChecks (s : State) (a b : F) (accepted : Result) : Result :=
  if !rateAccepted b then s.cfgError .errRate
  else if !frequencyAccepted (s.draw.sub 0) a b then s.cfgError .errFreq
  else accepted

/-- When both checks pass, the command does what it does. -/
theorem afterFrequencyChecks_accepted {s : State} {a b : F} (accepted : Result) (hrate : fGt b fZero = true)
    (hlow : fGe a fZero = true) (hhigh : fLt a (fMul (s.draw.sub 0) b fHalf) = true) :
    afterFrequencyChecks s a b accepted = accepted := by
  unfold afterFrequencyChecks rateAccepted frequencyAccepted
  rw [hrate, hlow, hhigh]; rfl

/-- The three outcomes of the two checks. -/
theorem afterFrequencyChecks_outcomes (s : State) (a b : F) (accepted : Result) :
    (fGt b fZero = false → afterFrequencyChecks s a b accepted = .next (s.respond fZero .errRate)) ∧
    (fGt b fZero = true → (fGe a fZero && fLt a (fMul (s.draw.sub 0) b fHalf)) = false →
      afterFrequencyChecks s a b accepted = .next (s.respond fZero .errFreq)) ∧
    (fGt b fZero = true → fGe a fZero = true → fLt a (fMul (s.draw.sub 0) b fHalf) = true →
      afterFrequencyChecks s a b accepted = accepted) := by
  unfold afterFrequencyChecks rateAccepted frequencyAccepted
  refine ⟨fun hrate => ?_, fun hrate hfreq => ?_, afterFrequencyChecks_accepted accepted⟩
  · rw [hrate]; rfl
  · rw [hrate, hfreq]; rfl

theorem exec_phFreq (s : State) {k : BitVec 8} (a b : F) (h : k.toNat < s.ph.length) :
    exec (.phFreq k a b) s = afterFrequencyChecks s a b (.next ({ s with
      ph := s.ph.set k.toNat ⟨fDiv (s.draw.sub 1) a b, s.ph[k.toNat].value⟩ }.respond fZero .ok)) := by
  change execPhFreq k a b s = _
  exact s.onInstance_legal h _

theorem exec_cyFreq (s : State) {k : BitVec 8} (a b : F) (h : k.toNat < s.cy.length) :
    exec (.cyFreq k a b) s = afterFrequencyChecks s a b (.next ({ s with
      cy := s.cy.set k.toNat ⟨fDiv (s.draw.sub 1) a b, s.cy[k.toNat].value⟩ }.respond fZero .ok)) := by
  change execCyFreq k a b s = _
  exact s.onInstance_legal h _

theorem opFreqWith_eq (exp : Draw → F → F) (s : State) {k : BitVec 8} (fc b : F) (h : k.toNat < s.op.length) :
    opFreqWith exp k fc b s = afterFrequencyChecks s fc b (.next ({ s with
      op := s.op.set k.toNat ⟨onePoleCoefficient exp (s.draw.sub 1) fc b,
        fSub (s.draw.sub 2) fOne (onePoleCoefficient exp (s.draw.sub 1) fc b), s.op[k.toNat].y1⟩
        }.respond fZero .ok)) :=
  s.onInstance_legal h _

/-- Settles O17, by the outcomes of the two checks. -/
theorem phFreqFollowsItsRule : Obligations.PhFreqFollowsItsRule := by
  intro s k a b h
  rw [exec_phFreq s a b h]
  exact afterFrequencyChecks_outcomes s a b _

/-- Settles O19, by the same outcomes. -/
theorem cyFreqFollowsItsRule : Obligations.CyFreqFollowsItsRule := by
  intro s k a b h
  rw [exec_cyFreq s a b h]
  exact afterFrequencyChecks_outcomes s a b _

/-- Settles O28, by the same outcomes. -/
theorem opFreqFollowsItsRule : Obligations.OpFreqFollowsItsRule := by
  rintro s k fc b w a h rfl rfl
  rw [show exec (.opFreq k fc b) s = opFreqWith fexp k fc b s from rfl, opFreqWith_eq fexp s fc b h]
  exact afterFrequencyChecks_outcomes s fc b _

/-- The four checks of `KS.SET` on a voice, before what the command does when all pass. -/
def afterStringChecks (s : State) (v : Voice) (a b : F) (accepted : Result) : Result :=
  if !rateAccepted v.sr then s.cfgError .errRate
  else if !pitchAccepted (s.draw.sub 0) a v.sr then s.cfgError .errFreq
  else if !fLt (stringDelay s.draw v a) (toF v.line.capacity) then s.cfgError .errCap
  else if !decayAccepted (stringDecay s.draw a b) then s.cfgError .errParam
  else accepted

/-- The five outcomes of the four checks: each that passes leaves the next. -/
theorem afterStringChecks_outcomes (s : State) (v : Voice) (a b : F) (accepted : Result) :
    (fGt v.sr fZero = false → afterStringChecks s v a b accepted = .next (s.respond fZero .errRate)) ∧
    (fGt v.sr fZero = true → (fGt a fZero && fLt a (fMul (s.draw.sub 0) v.sr fHalf)) = false →
      afterStringChecks s v a b accepted = .next (s.respond fZero .errFreq)) ∧
    (fGt v.sr fZero = true → fGt a fZero = true → fLt a (fMul (s.draw.sub 0) v.sr fHalf) = true →
      fLt (stringDelay s.draw v a) (toF v.line.capacity) = false →
      afterStringChecks s v a b accepted = .next (s.respond fZero .errCap)) ∧
    (fGt v.sr fZero = true → fGt a fZero = true → fLt a (fMul (s.draw.sub 0) v.sr fHalf) = true →
      fLt (stringDelay s.draw v a) (toF v.line.capacity) = true →
      (fGe (stringDecay s.draw a b) fOne && fLt (stringDecay s.draw a b) fPosInf) = false →
      afterStringChecks s v a b accepted = .next (s.respond fZero .errParam)) ∧
    (fGt v.sr fZero = true → fGt a fZero = true → fLt a (fMul (s.draw.sub 0) v.sr fHalf) = true →
      fLt (stringDelay s.draw v a) (toF v.line.capacity) = true → fGe (stringDecay s.draw a b) fOne = true →
      fLt (stringDecay s.draw a b) fPosInf = true → afterStringChecks s v a b accepted = accepted) := by
  unfold afterStringChecks rateAccepted pitchAccepted decayAccepted
  refine ⟨fun hrate => ?_, fun hrate hpitch => ?_, fun hrate hlow hhigh hdelay => ?_,
    fun hrate hlow hhigh hdelay hdecay => ?_, fun hrate hlow hhigh hdelay hperiods hfinite => ?_⟩
  · rw [hrate]; rfl
  · rw [hrate, hpitch]; rfl
  · rw [hrate, hlow, hhigh, hdelay]; rfl
  · rw [hrate, hlow, hhigh, hdelay, hdecay]; rfl
  · rw [hrate, hlow, hhigh, hdelay, hperiods, hfinite]; rfl

theorem exec_ksSet (s : State) {k : BitVec 8} (a b : F) (h : k.toNat < s.ks.length) :
    exec (.ksSet k a b) s = afterStringChecks s s.ks[k.toNat] a b (.next ({ s with
      ks := s.ks.set k.toNat { s.ks[k.toNat] with
        delayTime := stringPeriod s.draw a, t60 := b, gain := stringGain fpow s.draw a b } }.respond fZero .ok)) := by
  change ksSetWith fpow k a b s = _
  exact s.onInstance_legal h _

/-- Settles O43, by the outcomes of the four checks. -/
theorem ksSetFollowsItsRule : Obligations.KsSetFollowsItsRule := by
  rintro s k a b _ _ _ h rfl rfl rfl
  rw [exec_ksSet s a b h]
  exact afterStringChecks_outcomes s s.ks[k.toNat] a b _

end Sys2Proof.Machine
end

section
/-! The default `fexp` and `fpow` (spec/00_scope.md R15) and the coefficients of `OP.FREQ`
(spec/43_filter_stages.md R122). -/

namespace Sys2Proof.Machine

/-! ### Comparisons taken apart -/

/-- Operands that compare are no NaNs. -/
theorem not_nan_of_fLe {a b : F} (h : fLe a b = true) : fIsNaN a = false ∧ fIsNaN b = false := by
  simp only [fLe, Bool.and_eq_true, Bool.not_eq_true'] at h
  exact h.1

theorem fLe_of_fLt {a b : F} (h : fLt a b = true) : fLe a b = true := by
  simp only [fLt, fLe, Bool.and_eq_true, decide_eq_true_eq] at h ⊢
  exact ⟨h.1, h.2.le⟩

/-- The positive values are the magnitudes above 0 with a clear sign. -/
theorem fZero_fLt_iff {x : F} : fLt fZero x = true ↔ fSign x = false ∧ 0 < fMag x ∧ fMag x ≤ infMag := by
  have hkey : fKey fZero = 0 := by decide
  have hnan : fIsNaN fZero = false := by decide
  simp only [fLt, hkey, hnan, Bool.and_eq_true, Bool.not_eq_true', decide_eq_true_eq, true_and, fIsNaN_false_iff]
  cases hs : fSign x with
  | true =>
    simp only [fKey, hs, if_true, Bool.true_eq_false, false_and, iff_false]
    omega
  | false =>
    simp only [fKey, hs, Bool.false_eq_true, if_false, true_and]
    omega

/-- The values from a zero up: the sign is clear, or it is that of a zero. -/
theorem fZero_fLe_iff {x : F} : fLe fZero x = true ↔ (fSign x = false ∨ fMag x = 0) ∧ fMag x ≤ infMag := by
  have hkey : fKey fZero = 0 := by decide
  have hnan : fIsNaN fZero = false := by decide
  simp only [fLe, hkey, hnan, Bool.and_eq_true, Bool.not_eq_true', decide_eq_true_eq, true_and, fIsNaN_false_iff]
  cases hs : fSign x with
  | true =>
    simp only [fKey, hs, if_true, Bool.true_eq_false, false_or]
    omega
  | false =>
    simp only [fKey, hs, Bool.false_eq_true, if_false, true_or, true_and]
    omega

/-- Packed magnitudes with a clear sign are ordered as their bits are. -/
theorem fLe_fPack_iff {m m' : Nat} (hm : m ≤ infMag) (hm' : m' ≤ infMag) :
    fLe (fPack false m) (fPack false m') = true ↔ m ≤ m' := by
  have hlt := hm.trans_lt infMag_lt
  have hlt' := hm'.trans_lt infMag_lt
  simp [fLe, fIsNaN, fKey, fMag_pack _ hlt, fMag_pack _ hlt', fSign_pack _ hlt, fSign_pack _ hlt', hm, hm']

theorem fPack_of_sign {x : F} (h : fSign x = false) : fPack false (fMag x) = x := by
  rw [← h, fPack_fields]

theorem fMag_fOne_le : fMag fOne ≤ infMag := by decide

/-- `+0` and `ONE` bound the packed magnitudes up to that of `ONE`. -/
theorem fPack_mem_unit {m : Nat} (h : m ≤ fMag fOne) :
    fLe fZero (fPack false m) = true ∧ fLe (fPack false m) fOne = true :=
  have hinf : m ≤ infMag := h.trans fMag_fOne_le
  ⟨(fLe_fPack_iff (Nat.zero_le _) hinf).2 (Nat.zero_le _), (fLe_fPack_iff hinf fMag_fOne_le).2 h⟩

/-! ### The default `fexp` -/

theorem fxOne_pos : 0 < fxOne := Nat.mul_pos (Nat.two_pow_pos 128) (Nat.two_pow_pos 128)

/-- `squareUp` with any fixed-point 1: a proof over it does not meet the 257 bits of `fxOne`, which the kernel would
count down one by one. -/
def squareUpBy (one : Nat) : Nat → Nat → Nat
  | 0, x => x
  | n + 1, x => squareUpBy one n ((x * x + (one - 1)) / one)

theorem squareUp_eq : squareUp = squareUpBy fxOne := by delta squareUp squareUpBy; rfl

theorem le_squareUpBy {one : Nat} (hone : 0 < one) (n : Nat) {x : Nat} (h : one ≤ x) : one ≤ squareUpBy one n x := by
  induction n generalizing x with
  | zero => exact h
  | succ n ih =>
    refine ih ((Nat.le_div_iff_mul_le hone).2 ?_)
    exact (Nat.mul_le_mul h h).trans (Nat.le_add_right _ _)

/-- Squaring up keeps a number at 1 or above. -/
theorem le_squareUp (n : Nat) {x : Nat} (h : fxOne ≤ x) : fxOne ≤ squareUp n x :=
  squareUp_eq ▸ le_squareUpBy fxOne_pos n h

/-- Squaring down keeps a number at 1 or above. -/
theorem le_squareDown (n : Nat) {x : Nat} (h : fxOne ≤ x) : fxOne ≤ squareDown n x := by
  induction n generalizing x with
  | zero => exact h
  | succ n ih => exact ih ((Nat.le_div_iff_mul_le fxOne_pos).2 (Nat.mul_le_mul h h))

/-- The bounds of an exponential at an operand that is not negative are 1 or above. -/
theorem le_expDown (a : Nat) : fxOne ≤ expDown a := le_squareDown 8 (Nat.le_add_right _ _)

theorem le_expUp (a : Nat) : fxOne ≤ expUp a :=
  le_squareUp 8 ((Nat.le_add_right _ _).trans (Nat.le_add_right _ _))

/-- The reciprocal of what is 1 or above rounds to `ONE` or below. -/
theorem roundMag_reciprocal_le {d : Nat} (h : fxOne ≤ d) : roundMag (fxOne * 2 ^ 149) d ≤ fMag fOne := by
  apply roundMag_le (fxOne_pos.trans_le h) fMag_fOne_le
  rw [show magUnits (fMag fOne) = 2 ^ 149 by decide, Nat.mul_comm]
  exact Nat.mul_le_mul_left _ h

theorem expMagBelow_le_one {a : Int} (h : a < 0) : expMagBelow a ≤ fMag fOne := by
  have hreach : ¬ (expReach : Int) < a := by omega
  rw [expMagBelow, if_neg hreach, expBelow, if_pos h]
  split
  · exact Nat.zero_le _
  · exact roundMag_reciprocal_le (le_expUp _)

theorem expMagAbove_le_one {a : Int} (h : a < 0) : expMagAbove a ≤ fMag fOne := by
  have hreach : ¬ (expReach : Int) < a := by omega
  rw [expMagAbove, if_neg hreach, expAbove, if_pos h]
  split
  · exact Nat.zero_le _
  · exact roundMag_reciprocal_le (le_expDown _)

/-- Whichever of two roundings is picked, it is one of them. -/
theorem pickMag_cases (up : Bool) (lo hi : Nat) : pickMag up lo hi = lo ∨ pickMag up lo hi = hi := by
  unfold pickMag; split_ifs <;> simp

/-- `EXPRANGE` of the default at a finite operand. -/
theorem fexp_of_negative (q : Draw) {x : F} (hx : fIsFinite x = true) (hneg : fLt x fZero = true) :
    fLe fZero (fexp q x) = true ∧ fLe (fexp q x) fOne = true := by
  have hnan := not_nan_of_finite hx
  rw [fLt_iff_units hnan (by decide), fUnits_fZero] at hneg
  have hzero : fIsZero x = false := by
    rw [← Bool.not_eq_true, ← fUnits_eq_zero]; exact hneg.ne
  have hfix : fUnits x * 2 ^ 107 < 0 := Int.mul_neg_of_neg_of_pos hneg (by positivity)
  simp only [fexp, hnan, not_inf_of_finite hx, hzero, Bool.false_eq_true, if_false]
  have hle : pickMag (Config.expRoundsUp x) (expMagBelow (fUnits x * 2 ^ 107)) (expMagAbove (fUnits x * 2 ^ 107)) ≤
      fMag fOne := by
    rcases pickMag_cases (Config.expRoundsUp x) (expMagBelow (fUnits x * 2 ^ 107))
      (expMagAbove (fUnits x * 2 ^ 107)) with h | h <;> rw [h]
    · exact expMagBelow_le_one hfix
    · exact expMagAbove_le_one hfix
  exact fPack_mem_unit hle

/-! ### The default `fpow` -/

/-- The clamp keeps a power of a base below 1 between the base and `ONE`. -/
theorem powClamp_mem {b e : F} (hb : fLt b fOne = true) (he0 : fLt fZero e = true) (he1 : fLe e fOne = true)
    (hmag : fMag b ≤ fMag fOne) (m : Nat) : fMag b ≤ powClamp b e m ∧ powClamp b e m ≤ fMag fOne := by
  rw [powClamp, hb, he0, he1]
  simp only [Bool.and_self, if_true]
  omega

/-- The rounded power is one of the two roundings of its bounds. -/
theorem powMag_cases (b e : F) : powMag b e = powMagBelow b e ∨ powMag b e = powMagAbove b e := by
  unfold powMag
  dsimp only
  split_ifs
  · exact .inl rfl
  · exact .inr rfl
  · exact pickMag_cases _ _ _

theorem fAbs_of_sign {b : F} (h : fSign b = false) : fAbs b = b := fPack_of_sign h

/-- A base and an exponent in the range of `POWRANGE`: the power is the rounding of the real one. -/
theorem fpow_of_positive {b e : F} (hb0 : fLt fZero b = true) (hb : fIsFinite b = true) (he0 : fLt fZero e = true)
    (he : fIsFinite e = true) (hne : e ≠ fOne) : fpow b e = fPack false (powMag b e) := by
  obtain ⟨hbs, hbpos, -⟩ := fZero_fLt_iff.1 hb0
  obtain ⟨-, hepos, -⟩ := fZero_fLt_iff.1 he0
  have hbz : fIsZero b = false := by simp only [fIsZero, decide_eq_false_iff_not]; omega
  have hez : fIsZero e = false := by simp only [fIsZero, decide_eq_false_iff_not]; omega
  simp [fpow, hne, hb, he, hbz, hez, hbs, fAbs_of_sign hbs]

/-- A positive value up to `ONE` is finite, its magnitude at most that of `ONE`. -/
theorem fMag_le_of_positive {x : F} (h0 : fLt fZero x = true) (h1 : fLe x fOne = true) :
    fMag x ≤ fMag fOne ∧ fIsFinite x = true := by
  obtain ⟨hs, -, hinf⟩ := fZero_fLt_iff.1 h0
  rw [← fPack_of_sign hs] at h1
  have hle := (fLe_fPack_iff hinf fMag_fOne_le).1 h1
  exact ⟨hle, (fIsFinite_iff x).2 (hle.trans_lt (by decide))⟩

theorem fLe_refl {x : F} (h : fIsNaN x = false) : fLe x x = true := by simp [fLe, h]

/-- `POWRANGE` of the default. -/
theorem fpow_mem {b e : F} (hb0 : fLt fZero b = true) (hb1 : fLt b fOne = true) (he0 : fLt fZero e = true)
    (he1 : fLe e fOne = true) : fLe b (fpow b e) = true ∧ fLe (fpow b e) fOne = true := by
  obtain ⟨hbs, -, hbinf⟩ := fZero_fLt_iff.1 hb0
  obtain ⟨hbmag, hb⟩ := fMag_le_of_positive hb0 (fLe_of_fLt hb1)
  by_cases hone : e = fOne
  · rw [fpow, if_pos hone]
    exact ⟨fLe_refl (not_nan_of_finite hb), fLe_of_fLt hb1⟩
  · obtain ⟨hlo, hhi⟩ : fMag b ≤ powMag b e ∧ powMag b e ≤ fMag fOne := by
      rcases powMag_cases b e with h | h <;> rw [h] <;> exact powClamp_mem hb1 he0 he1 hbmag _
    have hle := (fLe_fPack_iff hbinf (hhi.trans fMag_fOne_le)).2 hlo
    rw [fPack_of_sign hbs] at hle
    rw [fpow_of_positive hb0 hb he0 (fMag_le_of_positive he0 he1).2 hone]
    exact ⟨hle, (fPack_mem_unit hhi).2⟩

/-- The power of a zero at a positive finite exponent is a zero. -/
theorem fpow_of_zero {b e : F} (hb : fIsZero b = true) (he : fIsFinite e = true) (he0 : fLt fZero e = true) :
    fIsZero (fpow b e) = true := by
  by_cases hone : e = fOne
  · rwa [fpow, if_pos hone]
  · have hbfin : fIsFinite b = true := by
      simp only [fIsZero, decide_eq_true_eq] at hb
      rw [fIsFinite_iff, hb]; decide
    rw [fpow, if_neg hone, hbfin, he, if_neg (by decide), if_pos hb, if_pos he0]
    cases fSign b && fSign (Config.powElsewhere b e) <;> decide

theorem fEq_fZero_of_zero {x : F} (h : fIsZero x = true) : fEq x fZero = true := by
  have hmag : fMag x = 0 := by simpa [fIsZero] using h
  simp only [fEq, fKey, fIsNaN, hmag]
  cases fSign x <;> decide

/-- Settles O57: the bounds of `fexp` and the clamp of `fpow` keep the ranges, whichever rounding is free. -/
theorem elementaryFunctionsKeepTheirRanges : Obligations.ElementaryFunctionsKeepTheirRanges := by
  refine ⟨fun q => ⟨rfl, rfl⟩, fun q x => fexp_of_negative q, fun q => rfl, fun q x hx => ?_, fun b => ?_,
    fun b e => fpow_mem, fun b e hb he he0 => fEq_fZero_of_zero (fpow_of_zero hb he he0)⟩
  · rw [fexp, if_pos hx, fIsNaN_fNaN]
  · rw [fpow, if_pos rfl]

/-! ### The coefficients of `OP.FREQ` (R122) -/

/-- What the bound of the coefficients needs of `fexp`: it maps the values up to a zero, `-inf` among them, into
`[+0, ONE]`. -/
def mapsNonpositiveToUnit (exp : Draw → F → F) : Prop :=
  ∀ q x, fLe x fZero = true → fLe fZero (exp q x) = true ∧ fLe (exp q x) fOne = true

/-- The values up to a zero: the zeros, the negative finite ones and `-inf`. -/
theorem nonpositive_cases {x : F} (h : fLe x fZero = true) :
    x = fZero ∨ x = fNeg fZero ∨ (fIsFinite x = true ∧ fLt x fZero = true) ∨ x = fNeg fPosInf := by
  obtain ⟨hnan, -⟩ := not_nan_of_fLe h
  have hinf := (fIsNaN_false_iff x).1 hnan
  have hkey : fKey x ≤ 0 := by
    have hz : fKey fZero = 0 := by decide
    simp only [fLe, Bool.and_eq_true, decide_eq_true_eq, hz] at h
    exact h.2
  by_cases hz : fMag x = 0
  · rw [← fPack_fields x, hz]
    cases fSign x
    · exact .inl rfl
    · exact .inr (.inl rfl)
  · cases hs : fSign x with
    | false => simp only [fKey, hs, Bool.false_eq_true, if_false] at hkey; omega
    | true =>
      rcases Nat.lt_or_eq_of_le hinf with hlt | heq
      · have hfin := (fIsFinite_iff x).2 hlt
        refine .inr (.inr (.inl ⟨hfin, (fLt_iff_units hnan (by decide)).2 ?_⟩))
        have hpos : magUnits (fMag x) ≠ 0 := mt magUnits_eq_zero.1 hz
        rw [fUnits_fZero, fUnits, if_pos hs]
        omega
      · right; right; right
        rw [← fPack_fields x, hs, heq]; decide

/-- `EXP0`, `EXPRANGE` and its limit at `-inf` are all that is needed. -/
theorem mapsNonpositiveToUnit_of {exp : Draw → F → F}
    (hzero : ∀ q, exp q fZero = fOne ∧ exp q (fNeg fZero) = fOne)
    (hneg : ∀ q x, fIsFinite x = true → fLt x fZero = true →
      fLe fZero (exp q x) = true ∧ fLe (exp q x) fOne = true)
    (hinf : ∀ q, exp q (fNeg fPosInf) = fZero) : mapsNonpositiveToUnit exp := by
  intro q x h
  rcases nonpositive_cases h with rfl | rfl | ⟨hfin, hlt⟩ | rfl
  · rw [(hzero q).1]; decide
  · rw [(hzero q).2]; decide
  · exact hneg q x hfin hlt
  · rw [hinf q]; decide

theorem fexp_mapsNonpositiveToUnit : mapsNonpositiveToUnit fexp :=
  mapsNonpositiveToUnit_of (fun _ => ⟨rfl, rfl⟩) fexp_of_negative fun _ => rfl

theorem mapsNonpositiveToUnit_of_admissible {exp : Draw → F → F} (h : admissibleExp exp) :
    mapsNonpositiveToUnit exp :=
  have ⟨_, hzero, hneg, hinf, _, _⟩ := h
  mapsNonpositiveToUnit_of hzero hneg hinf

/-- The complement of a value in `[+0, ONE]` lies there too. -/
theorem fSub_fOne_mem_unit (q : Draw) {a : F} (h0 : fLe fZero a = true) (h1 : fLe a fOne = true) :
    fLe fZero (fSub q fOne a) = true ∧ fLe (fSub q fOne a) fOne = true := by
  obtain ⟨hnan, -⟩ := not_nan_of_fLe h1
  rw [fLe_iff_units (by decide) hnan, fUnits_fZero] at h0
  rw [fLe_iff_units hnan (by decide)] at h1
  have hmag : fMag a ≤ fMag fOne := by
    have hone := fUnits_natAbs fOne
    have ha := fUnits_natAbs a
    rw [← magUnits_le_iff]; omega
  have hfin : fIsFinite (fNeg a) = true := by
    rw [fIsFinite_neg, fIsFinite_iff]; exact hmag.trans_lt (by decide)
  constructor
  · exact le_fAdd q (by decide) hfin (by decide) (by rw [fUnits_neg, fUnits_fZero]; omega)
  · exact fAdd_le q (by decide) hfin (by decide) (by rw [fUnits_neg]; omega)

/-- The sign of a rounded magnitude counts unless the magnitude is 0. -/
theorem fZero_fLe_fPack {neg : Bool} {m : Nat} (hm : m ≤ infMag) (h : neg = false ∨ m = 0) :
    fLe fZero (fPack neg m) = true := by
  rw [fZero_fLe_iff, fSign_pack _ (hm.trans_lt infMag_lt), fMag_pack _ (hm.trans_lt infMag_lt)]
  exact ⟨h, hm⟩

theorem roundMag_zero_left (d : Nat) : roundMag 0 d = 0 := by simp [roundMag, roundHalfEven]

/-- A product of finite values that are not negative is not negative. -/
theorem fZero_fLe_fMul (q : Draw) {a c : F} (ha : fIsFinite a = true) (ha0 : fSign a = false)
    (hc : fIsFinite c = true) (hc0 : fLe fZero c = true) : fLe fZero (fMul q a c) = true := by
  rw [fMul_finite q ha hc, ha0, Bool.false_bne]
  refine fZero_fLe_fPack (roundMag_le_infMag _ _) ((fZero_fLe_iff.1 hc0).1.imp_right fun hzero => ?_)
  rw [hzero, magUnits_eq_zero.2 rfl, Nat.mul_zero, roundMag_zero_left]

/-- The quotient of a finite value that is not negative by a rate, an infinite one too, is not negative. -/
theorem fZero_fLe_fDiv (q : Draw) {a b : F} (ha : fIsFinite a = true) (ha0 : fLe fZero a = true)
    (hb : fLt fZero b = true) : fLe fZero (fDiv q a b) = true := by
  obtain ⟨hsign, hpos, hinf⟩ := fZero_fLt_iff.1 hb
  have hbnan : fIsNaN b = false := (fIsNaN_false_iff b).2 hinf
  have hbzero : fIsZero b = false := by simp only [fIsZero, decide_eq_false_iff_not]; omega
  have hneg := (fZero_fLe_iff.1 ha0).1
  by_cases hbinf : fIsInf b = true
  · simp only [fDiv, not_nan_of_finite ha, not_inf_of_finite ha, hbnan, hbzero, hbinf, hsign, Bool.or_self,
      Bool.false_and, Bool.and_false, Bool.false_eq_true, if_false, if_true]
    exact fZero_fLe_fPack (Nat.zero_le _) (.inr rfl)
  · have hbfin : fIsFinite b = true := by
      simp only [fIsInf, decide_eq_true_eq] at hbinf
      rw [fIsFinite_iff]; omega
    rw [fDiv_finite q ha hbfin hbzero, hsign, Bool.bne_false]
    refine fZero_fLe_fPack (roundMag_le_infMag _ _) (hneg.imp_right fun hzero => ?_)
    rw [hzero, magUnits_eq_zero.2 rfl, Nat.zero_mul, roundMag_zero_left]

/-- Flipping the sign of what is not negative gives what is at most a zero. -/
theorem fNeg_fLe_fZero {x : F} (h : fLe fZero x = true) : fLe (fNeg x) fZero = true := by
  obtain ⟨-, hnan⟩ := not_nan_of_fLe h
  rw [fLe_iff_units (by decide) hnan, fUnits_fZero] at h
  rw [fLe_iff_units (by rwa [fIsNaN_neg]) (by decide), fUnits_neg, fUnits_fZero]
  omega

/-- A factor of a finite product with `TWO_PI` that is not negative is finite. -/
theorem finite_of_fMul_fTwoPi (q : Draw) {c : F} (hc0 : fLe fZero c = true) (h : fIsFinite (fMul q fTwoPi c) = true) :
    fIsFinite c = true := by
  by_contra hfin
  obtain ⟨-, hnan⟩ := not_nan_of_fLe hc0
  have hinf : fIsInf c = true := by
    have hle := (fIsNaN_false_iff c).1 hnan
    rw [fIsFinite_iff] at hfin
    simp only [fIsInf, decide_eq_true_eq]; omega
  have hpack : fMul q fTwoPi c = fPack (fSign fTwoPi != fSign c) infMag := by
    have htwoPi : fIsNaN fTwoPi = false ∧ fIsInf fTwoPi = false ∧ fIsZero fTwoPi = false := by decide
    simp [fMul, htwoPi, hnan, hinf]
  rw [hpack, fIsFinite_iff, fMag_pack _ infMag_lt] at h
  exact lt_irrefl _ h

/-- The feedback coefficient of an accepted cutoff lies in `[+0, ONE]`. -/
theorem onePoleCoefficient_mem_unit {exp : Draw → F → F} (hexp : mapsNonpositiveToUnit exp) (q : Draw) {fc b : F}
    (hb : fGt b fZero = true) (hfc : fGe fc fZero = true) (hfin : fIsFinite (fMul (q.sub 0) fTwoPi fc) = true) :
    fLe fZero (onePoleCoefficient exp q fc b) = true ∧ fLe (onePoleCoefficient exp q fc b) fOne = true := by
  have hproduct := fZero_fLe_fMul (q.sub 0) (a := fTwoPi) (by decide) (by decide)
    (finite_of_fMul_fTwoPi _ hfc hfin) hfc
  exact hexp _ _ (fNeg_fLe_fZero (fZero_fLe_fDiv _ hfin hproduct hb))

/-- `OP.FREQ` at an accepted cutoff leaves both coefficients in `[+0, ONE]`. -/
theorem opFreqWith_coefficients {exp : Draw → F → F} (hexp : mapsNonpositiveToUnit exp) {s : State} {k : BitVec 8}
    {fc b : F} (h : k.toNat < s.op.length) (hb : fGt b fZero = true) (hfc : fGe fc fZero = true)
    (hlt : fLt fc (fMul (s.draw.sub 0) b fHalf) = true)
    (hfin : fIsFinite (fMul ((s.draw.sub 1).sub 0) fTwoPi fc) = true) :
    ∃ (t : State) (p : OnePole), opFreqWith exp k fc b s = .next t ∧ t.op[k.toNat]? = some p ∧
      fLe fZero p.a1 = true ∧ fLe p.a1 fOne = true ∧ fLe fZero p.b0 = true ∧ fLe p.b0 fOne = true := by
  obtain ⟨ha0, ha1⟩ := onePoleCoefficient_mem_unit hexp (s.draw.sub 1) hb hfc hfin
  obtain ⟨hb0, hb1⟩ := fSub_fOne_mem_unit (s.draw.sub 2) ha0 ha1
  rw [opFreqWith_eq exp s fc b h, afterFrequencyChecks_accepted _ hb hfc hlt]
  exact ⟨_, _, rfl, List.getElem?_set_self h, ha0, ha1, hb0, hb1⟩

/-- Settles O29, for the default `fexp` and for every admissible function. -/
theorem onePoleCoefficientsLieBelowOne : Obligations.OnePoleCoefficientsLieBelowOne := by
  intro s k fc b h hb hfc hlt hfin
  exact ⟨opFreqWith_coefficients fexp_mapsNonpositiveToUnit h hb hfc hlt hfin, fun _ _ _ hexp =>
    opFreqWith_coefficients (mapsNonpositiveToUnit_of_admissible hexp) h hb hfc hlt hfin⟩

end Sys2Proof.Machine
end

section
/-! The commands seen from the unit they address (spec/10_state.md R34): each is a local rule, which reads its unit and
what no unit holds, and gives the unit's new value and the response. That `exec` is the local rule carried out says once
what a command reads and writes; the statements on R34 and on what every step keeps are drawn from it. -/

namespace Sys2Proof.Machine

/-! ### The units of a state, by unit type -/

/-- What a unit of a type holds (R23 to R31). -/
abbrev UnitKind.Elem : UnitKind → Type
  | .ph | .cy => Phasor
  | .hi | .de => F
  | .op => OnePole
  | .sl => Slew
  | .dl => DelayLine
  | .ks => Voice
  | .fdn => Reverb

/-- The units of a type. -/
def UnitKind.units : (u : UnitKind) → State → List u.Elem
  | .ph, s => s.ph
  | .cy, s => s.cy
  | .hi, s => s.hi
  | .de, s => s.de
  | .op, s => s.op
  | .sl, s => s.sl
  | .dl, s => s.dl
  | .ks, s => s.ks
  | .fdn, s => s.fdn

/-- The state with other units of a type. -/
def UnitKind.put : (u : UnitKind) → State → List u.Elem → State
  | .ph, s, l => { s with ph := l }
  | .cy, s, l => { s with cy := l }
  | .hi, s, l => { s with hi := l }
  | .de, s, l => { s with de := l }
  | .op, s, l => { s with op := l }
  | .sl, s, l => { s with sl := l }
  | .dl, s, l => { s with dl := l }
  | .ks, s, l => { s with ks := l }
  | .fdn, s, l => { s with fdn := l }

/-- Stores unit `k` of a type: `State.setPh` to `State.setFdn`, by unit type. -/
def UnitKind.set (u : UnitKind) (s : State) (k : Nat) (x : u.Elem) : State := u.put s ((u.units s).set k x)

/-- A unit after reset (R23 to R31), in a build of `capMax` words. -/
def UnitKind.reset : (u : UnitKind) → Nat → u.Elem
  | .ph, _ | .cy, _ => Phasor.reset
  | .hi, _ | .de, _ => fZero
  | .op, _ => OnePole.reset
  | .sl, _ => Slew.reset
  | .dl, capMax => DelayLine.reset capMax
  | .ks, capMax => Voice.reset capMax
  | .fdn, capMax => Reverb.reset capMax

@[simp] theorem UnitKind.units_put_same (u : UnitKind) (s : State) (l : List u.Elem) : u.units (u.put s l) = l := by
  cases u <;> rfl

theorem UnitKind.units_put_other {u v : UnitKind} (h : v ≠ u) (s : State) (l : List u.Elem) :
    v.units (u.put s l) = v.units s := by
  revert h
  cases u <;> cases v <;> simp [units, put]

theorem UnitKind.put_put_same (u : UnitKind) (s : State) (l l' : List u.Elem) : u.put (u.put s l) l' = u.put s l' := by
  cases u <;> rfl

theorem UnitKind.put_put_other {u v : UnitKind} (h : v ≠ u) (s : State) (l : List u.Elem) (l' : List v.Elem) :
    v.put (u.put s l) l' = u.put (v.put s l') l := by
  revert h
  cases u <;> cases v <;> simp [put]

theorem UnitKind.put_units (u : UnitKind) (s : State) : u.put s (u.units s) = s := by
  cases u <;> rfl

@[simp] theorem UnitKind.units_respond (u : UnitKind) (s : State) (r : F) (st : Status) :
    u.units (s.respond r st) = u.units s := by
  cases u <;> rfl

@[simp] theorem UnitKind.units_ports (u : UnitKind) (s : State) (inputs : List PortEvent) (inflight : Option Command)
    (noise : List F) :
    u.units { s with inputs := inputs, inflight := inflight, noise := noise } = u.units s := by
  cases u <;> rfl

@[simp] theorem UnitKind.units_restart (u : UnitKind) (s : State) :
    u.units s.restart = List.replicate (u.units s).length (u.reset s.capMax) := by
  cases u <;> rfl

/-! ### One unit read and stored -/

@[simp] theorem UnitKind.units_set_same (u : UnitKind) (s : State) (k : Nat) (x : u.Elem) :
    u.units (u.set s k x) = (u.units s).set k x := u.units_put_same s _

/-- Storing a unit leaves every other one, of the same type and of any other. -/
theorem UnitKind.getElem?_set_other {u v : UnitKind} {j k : Nat} (h : ¬ (u = v ∧ j = k)) (s : State) (x : u.Elem) :
    (v.units (u.set s j x))[k]? = (v.units s)[k]? := by
  by_cases huv : u = v
  · subst huv
    rw [units_set_same, List.getElem?_set_ne fun hjk => h ⟨rfl, hjk⟩]
  · rw [set, units_put_other (Ne.symm huv)]

/-- Storing a unit leaves the number of units of every type. -/
@[simp] theorem UnitKind.length_units_set (u v : UnitKind) (s : State) (k : Nat) (x : u.Elem) :
    (v.units (u.set s k x)).length = (v.units s).length := by
  by_cases huv : u = v
  · subst huv; simp
  · rw [set, units_put_other (Ne.symm huv)]

/-- Two units can be stored in either order. -/
theorem UnitKind.set_set_other {u v : UnitKind} {j k : Nat} (h : ¬ (u = v ∧ j = k)) (s : State) (x : u.Elem)
    (y : v.Elem) : v.set (u.set s j x) k y = u.set (v.set s k y) j x := by
  by_cases huv : u = v
  · subst huv
    have hjk : k ≠ j := fun hkj => h ⟨rfl, hkj.symm⟩
    simp only [set, put_put_same, units_put_same, List.set_comm _ _ hjk]
  · simp only [set, units_put_other huv, units_put_other (Ne.symm huv), put_put_other (Ne.symm huv)]

theorem UnitKind.set_getElem (u : UnitKind) (s : State) {k : Nat} (h : k < (u.units s).length) :
    u.set s k (u.units s)[k] = s := by
  rw [set, List.set_getElem_self, put_units]

theorem UnitKind.set_respond (u : UnitKind) (s : State) (k : Nat) (x : u.Elem) (r : F) (st : Status) :
    (u.set s k x).respond r st = u.set (s.respond r st) k x := by
  cases u <;> rfl

theorem UnitKind.set_noise (u : UnitKind) (s : State) (k : Nat) (x : u.Elem) (noise : List F) :
    { u.set s k x with noise := noise } = u.set { s with noise := noise } k x := by
  cases u <;> rfl

@[simp] theorem UnitKind.capMax_set (u : UnitKind) (s : State) (k : Nat) (x : u.Elem) :
    (u.set s k x).capMax = s.capMax := by
  cases u <;> rfl

/-! ### Local rules -/

/-- What a command may read beside its unit: the bound of the capacities, the noise words taken, and the number
that names its draws. -/
structure Shared where
  capMax : Nat
  noise : List F
  draws : Nat

def State.shared (s : State) : Shared := ⟨s.capMax, s.noise, s.draws⟩

def Shared.draw (e : Shared) : Draw := ⟨e.draws, []⟩

@[simp] theorem UnitKind.shared_set (u : UnitKind) (s : State) (k : Nat) (x : u.Elem) :
    (u.set s k x).shared = s.shared := by
  cases u <;> rfl

/-- What a local rule answers: the command waits for noise (R206), is refused (R181), or is done, with the unit's new
value, the result and the noise words that are left. -/
inductive Reply (U : Type) where
  | wait
  | refuse (st : Status)
  | done (x : U) (r : F) (noise : List F)

/-- Carries out a reply, with `store` to store the unit. -/
def Reply.result {U : Type} (store : U → State) (s : State) : Reply U → Result
  | .wait => .next s
  | .refuse st => s.cfgError st
  | .done x r noise => ({ store x with noise := noise }).answer r

/-- Carries out a local rule at unit `k` of a type, if there is one (R77 test 3). -/
def perform (u : UnitKind) (k : Nat) (rule : Shared → u.Elem → Reply u.Elem) (s : State) : Result :=
  match (u.units s)[k]? with
  | none => s.cfgError .errOp
  | some x => (rule s.shared x).result (u.set s k) s

section Rules

variable (e : Shared)

/-- `PH.FREQ` and `CY.FREQ` (R100, R110). -/
def phasorFreqRule (hz sampleRate : F) (p : Phasor) : Reply Phasor :=
  if !rateAccepted sampleRate then .refuse .errRate
  else if !frequencyAccepted (e.draw.sub 0) hz sampleRate then .refuse .errFreq
  else .done { p with increment := fDiv (e.draw.sub 1) hz sampleRate } fZero e.noise

/-- `PH.PROC` and `CY.PROC` (R101, R111), with the sample they answer for a phase. -/
def phasorProcRule (sample : F → F) (p : Phasor) : Reply Phasor :=
  .done { p with value := phaseAdvance e.draw p } (sample p.value) e.noise

/-- `HI.PROC` (R120). -/
def hiProcRule (x held : F) : Reply F := .done x held e.noise

/-- `DE.PROC` (R121). -/
def deProcRule (x held : F) : Reply F := .done x (fSub e.draw x held) e.noise

/-- `OP.FREQ` (R122). -/
def opFreqRule (exp : Draw → F → F) (fc sampleRate : F) (p : OnePole) : Reply OnePole :=
  if !rateAccepted sampleRate then .refuse .errRate
  else if !frequencyAccepted (e.draw.sub 0) fc sampleRate then .refuse .errFreq
  else .done { p with
    a1 := onePoleCoefficient exp (e.draw.sub 1) fc sampleRate
    b0 := fSub (e.draw.sub 2) fOne (onePoleCoefficient exp (e.draw.sub 1) fc sampleRate) } fZero e.noise

/-- `OP.PROC` (R123). -/
def opProcRule (x : F) (p : OnePole) : Reply OnePole :=
  .done { p with y1 := onePoleOutput e.draw p x } (onePoleOutput e.draw p x) e.noise

/-- `SL.RATE` (R124). -/
def slRateRule (rate sampleRate : F) (p : Slew) : Reply Slew :=
  if !rateAccepted sampleRate then .refuse .errRate
  else if !slewAccepted rate then .refuse .errParam
  else .done { p with limit := fDiv e.draw rate sampleRate } fZero e.noise

/-- `SL.PROC` (R125). -/
def slProcRule (x : F) (p : Slew) : Reply Slew := .done { p with value := slewStep e.draw p x } p.value e.noise

/-- `DL.CONFIG` (R140). -/
def dlConfigRule (capacity : Word) (_ : DelayLine) : Reply DelayLine :=
  if !capacityAccepted e.capMax (u32 capacity) then .refuse .errCap
  else .done (lineClear (u32 capacity)) fZero e.noise

/-- `DL.WRITE` (R141). -/
def dlWriteRule (v : F) (l : DelayLine) : Reply DelayLine := .done (lineWrite l v) fZero e.noise

/-- `DL.READ` (R142). -/
def dlReadRule (d : F) (l : DelayLine) : Reply DelayLine := .done l (lineRead e.draw l d) e.noise

/-- `KS.CONFIG` (R151). -/
def ksConfigRule (sampleRate : F) (capacity : Word) (_ : Voice) : Reply Voice :=
  if !voiceRateAccepted sampleRate then .refuse .errRate
  else if !capacityAccepted e.capMax (u32 capacity) then .refuse .errCap
  else .done ⟨sampleRate, fZero, fZero, fZero, fZero, lineClear (u32 capacity)⟩ fZero e.noise

/-- `KS.SET` (R152). -/
def ksSetRule (pow : F → F → F) (frequency decayTime : F) (v : Voice) : Reply Voice :=
  if !rateAccepted v.sr then .refuse .errRate
  else if !pitchAccepted (e.draw.sub 0) frequency v.sr then .refuse .errFreq
  else if !fLt (stringDelay e.draw v frequency) (toF v.line.capacity) then .refuse .errCap
  else if !decayAccepted (stringDecay e.draw frequency decayTime) then .refuse .errParam
  else .done { v with
    delayTime := stringPeriod e.draw frequency
    t60 := decayTime
    gain := stringGain pow e.draw frequency decayTime } fZero e.noise

/-- `KS.PLUCK` (R154). -/
def ksPluckRule (g : F) (v : Voice) : Reply Voice :=
  let L := fillLength (e.draw.sub 0) v
  if e.noise.length < L then .wait
  else .done { v with line := lineFill (e.draw.sub 1) g 0 (e.noise.take L) v.line } fZero (e.noise.drop L)

/-- `KS.PROC` (R155). -/
def ksProcRule (v : Voice) : Reply Voice :=
  .done { v with x1 := stringRead e.draw v, line := lineWrite v.line (stringOutput e.draw v) } (stringOutput e.draw v)
    e.noise

/-- `FDN.CONFIG` (R166). -/
def fdnConfigRule (capacity : Word) (f : Reverb) : Reply Reverb :=
  if !capacityAccepted e.capMax (u32 capacity) then .refuse .errCap
  else if !delaysBelow f (u32 capacity) then .refuse .errCap
  else .done { f with line := Vector.replicate _ (lineClear (u32 capacity)) } fZero e.noise

/-- `FDN.SETM` (R167). -/
def fdnSetMRule (i j : BitVec 8) (coefficient : F) (f : Reverb) : Reply Reverb :=
  if h : i.toNat < Config.fdnN ∧ j.toNat < Config.fdnN then
    if !fIsFinite coefficient then .refuse .errParam
    else .done { f with M := f.M.set i.toNat ((f.M[i.toNat]'h.1).set j.toNat coefficient h.2) h.1 } fZero e.noise
  else .refuse .errDim

/-- `FDN.SETG` (R168). -/
def fdnSetGRule (i : BitVec 8) (gain : F) (f : Reverb) : Reply Reverb :=
  if h : i.toNat < Config.fdnN then
    if !fIsFinite gain then .refuse .errParam else .done { f with g := f.g.set i.toNat gain h } fZero e.noise
  else .refuse .errDim

/-- `FDN.SETD` (R169). -/
def fdnSetDRule (i : BitVec 8) (delay : F) (f : Reverb) : Reply Reverb :=
  if h : i.toNat < Config.fdnN then
    if !delayAccepted delay (f.line[i.toNat]'h).capacity then .refuse .errCap
    else .done { f with dly := f.dly.set i.toNat delay h } fZero e.noise
  else .refuse .errDim

/-- `FDN.PROC` (R170). -/
def fdnProcRule (x : F) (f : Reverb) : Reply Reverb :=
  let y := fdnRead (e.draw.sub 0) f
  .done { f with line := vecOf _ fun i => lineWrite f.line[i] (fdnFeedback (e.draw.sub 1) f y x i) }
    (fdnOutput (e.draw.sub 2) y x) e.noise

end Rules

/-- The local rule of every command. -/
def localRule (exp : Draw → F → F) (pow : F → F → F) (rom : Nat → F) :
    (i : Instr) → Shared → (unitOf i).Elem → Reply (unitOf i).Elem
  | .phFreq _ hz sampleRate, e => phasorFreqRule e hz sampleRate
  | .phProc _, e => phasorProcRule e id
  | .cyFreq _ hz sampleRate, e => phasorFreqRule e hz sampleRate
  | .cyProc _, e => phasorProcRule e (tblPhasor rom (e.draw.sub 2))
  | .hiProc _ x, e => hiProcRule e x
  | .deProc _ x, e => deProcRule e x
  | .opFreq _ fc sampleRate, e => opFreqRule e exp fc sampleRate
  | .opProc _ x, e => opProcRule e x
  | .slRate _ rate sampleRate, e => slRateRule e rate sampleRate
  | .slProc _ x, e => slProcRule e x
  | .dlConfig _ capacity, e => dlConfigRule e capacity
  | .dlWrite _ v, e => dlWriteRule e v
  | .dlRead _ d, e => dlReadRule e d
  | .ksConfig _ sampleRate capacity, e => ksConfigRule e sampleRate capacity
  | .ksSet _ frequency decayTime, e => ksSetRule e pow frequency decayTime
  | .ksPluck _ g, e => ksPluckRule e g
  | .ksProc _, e => ksProcRule e
  | .fdnConfig _ capacity, e => fdnConfigRule e capacity
  | .fdnSetM _ i j coefficient, e => fdnSetMRule e i j coefficient
  | .fdnSetG _ i gain, e => fdnSetGRule e i gain
  | .fdnSetD _ i delay, e => fdnSetDRule e i delay
  | .fdnProc _ x, e => fdnProcRule e x

/-! ### `exec` is the local rule carried out -/

theorem Reply.result_ite {U : Type} (store : U → State) (s : State) (c : Prop) [Decidable c] (a b : Reply U) :
    (if c then a else b).result store s = if c then a.result store s else b.result store s := by
  split <;> rfl

theorem Reply.result_dite {U : Type} (store : U → State) (s : State) (c : Prop) [Decidable c] (a : c → Reply U)
    (b : ¬ c → Reply U) :
    (if h : c then a h else b h).result store s = if h : c then (a h).result store s else (b h).result store s := by
  split <;> rfl

/-- A meaning that does at every unit what a rule replies there carries out the rule. -/
theorem eq_perform_of_onInstance (u : UnitKind) (rule : Shared → u.Elem → Reply u.Elem) {s : State} {k : BitVec 8}
    {run : Fin (u.units s).length → Result} {result : Result}
    (hresult : result = s.onInstance k (u.units s).length run)
    (hrun : ∀ j : Fin (u.units s).length, run j = (rule s.shared (u.units s)[j]).result (u.set s j) s) :
    result = perform u k.toNat rule s := by
  rw [hresult]
  by_cases hk : k.toNat < (u.units s).length
  · rw [s.onInstance_legal hk, hrun, perform, List.getElem?_eq_getElem hk]; rfl
  · rw [s.onInstance_illegal hk, perform, List.getElem?_eq_none (by omega)]

/-- Every command is its local rule, carried out at the unit it addresses. -/
theorem execWith_eq_perform (exp : Draw → F → F) (pow : F → F → F) (rom : Nat → F) (i : Instr) (s : State) :
    execWith exp pow rom i s = perform (unitOf i) i.inst.toNat (localRule exp pow rom i) s := by
  cases i with
  | phFreq k hz sampleRate =>
    change execPhFreq k hz sampleRate s = _
    refine eq_perform_of_onInstance .ph (phasorFreqRule · hz sampleRate) rfl fun j => ?_
    simp only [phasorFreqRule, Reply.result_ite]; rfl
  | phProc k => exact eq_perform_of_onInstance .ph (phasorProcRule · id) rfl fun _ => rfl
  | cyFreq k hz sampleRate =>
    change execCyFreq k hz sampleRate s = _
    refine eq_perform_of_onInstance .cy (phasorFreqRule · hz sampleRate) rfl fun j => ?_
    simp only [phasorFreqRule, Reply.result_ite]; rfl
  | cyProc k =>
    exact eq_perform_of_onInstance .cy (fun e => phasorProcRule e (tblPhasor rom (e.draw.sub 2))) rfl fun _ => rfl
  | hiProc k x => exact eq_perform_of_onInstance .hi (hiProcRule · x) rfl fun _ => rfl
  | deProc k x => exact eq_perform_of_onInstance .de (deProcRule · x) rfl fun _ => rfl
  | opFreq k fc sampleRate =>
    change opFreqWith exp k fc sampleRate s = _
    refine eq_perform_of_onInstance .op (opFreqRule · exp fc sampleRate) rfl fun j => ?_
    simp only [opFreqRule, Reply.result_ite]; rfl
  | opProc k x => exact eq_perform_of_onInstance .op (opProcRule · x) rfl fun _ => rfl
  | slRate k rate sampleRate =>
    change execSlRate k rate sampleRate s = _
    refine eq_perform_of_onInstance .sl (slRateRule · rate sampleRate) rfl fun j => ?_
    simp only [slRateRule, Reply.result_ite]; rfl
  | slProc k x => exact eq_perform_of_onInstance .sl (slProcRule · x) rfl fun _ => rfl
  | dlConfig k capacity =>
    change execDlConfig k capacity s = _
    refine eq_perform_of_onInstance .dl (dlConfigRule · capacity) rfl fun j => ?_
    simp only [dlConfigRule, Reply.result_ite]; rfl
  | dlWrite k v => exact eq_perform_of_onInstance .dl (dlWriteRule · v) rfl fun _ => rfl
  | dlRead k d =>
    change execDlRead k d s = _
    refine eq_perform_of_onInstance .dl (dlReadRule · d) rfl fun j => ?_
    have hkeep : UnitKind.set .dl s j (UnitKind.units .dl s)[j] = s := UnitKind.set_getElem .dl s j.isLt
    rw [dlReadRule, Reply.result, hkeep]; rfl
  | ksConfig k sampleRate capacity =>
    change execKsConfig k sampleRate capacity s = _
    refine eq_perform_of_onInstance .ks (ksConfigRule · sampleRate capacity) rfl fun j => ?_
    simp only [ksConfigRule, Reply.result_ite]; rfl
  | ksSet k frequency decayTime =>
    change ksSetWith pow k frequency decayTime s = _
    refine eq_perform_of_onInstance .ks (ksSetRule · pow frequency decayTime) rfl fun j => ?_
    simp only [ksSetRule, Reply.result_ite]; rfl
  | ksPluck k g =>
    change execKsPluck k g s = _
    refine eq_perform_of_onInstance .ks (ksPluckRule · g) rfl fun j => ?_
    simp only [ksPluckRule, Reply.result_ite]; rfl
  | ksProc k => exact eq_perform_of_onInstance .ks ksProcRule rfl fun _ => rfl
  | fdnConfig k capacity =>
    change execFdnConfig k capacity s = _
    refine eq_perform_of_onInstance .fdn (fdnConfigRule · capacity) rfl fun j => ?_
    simp only [fdnConfigRule, Reply.result_ite]; rfl
  | fdnSetM k i j' coefficient =>
    change execFdnSetM k i j' coefficient s = _
    refine eq_perform_of_onInstance .fdn (fdnSetMRule · i j' coefficient) rfl fun j => ?_
    simp only [fdnSetMRule, Reply.result_ite, Reply.result_dite]; rfl
  | fdnSetG k i gain =>
    change execFdnSetG k i gain s = _
    refine eq_perform_of_onInstance .fdn (fdnSetGRule · i gain) rfl fun j => ?_
    simp only [fdnSetGRule, Reply.result_ite, Reply.result_dite]; rfl
  | fdnSetD k i delay =>
    change execFdnSetD k i delay s = _
    refine eq_perform_of_onInstance .fdn (fdnSetDRule · i delay) rfl fun j => ?_
    simp only [fdnSetDRule, Reply.result_ite, Reply.result_dite]; rfl
  | fdnProc k x => exact eq_perform_of_onInstance .fdn (fdnProcRule · x) rfl fun _ => rfl

theorem exec_eq_perform (i : Instr) (s : State) :
    exec i s = perform (unitOf i) i.inst.toNat (localRule fexp fpow romRead i) s := by
  rw [← execWith_default, execWith_eq_perform]

end Sys2Proof.Machine
end

section
/-! What a command leaves and does not read (spec/10_state.md R34). -/

namespace Sys2Proof.Machine

/-- What carrying out a local rule can do, all of it: the command waits, or is refused, or stores its unit. -/
theorem perform_cases {u : UnitKind} {k : Nat} {rule : Shared → u.Elem → Reply u.Elem} {s t : State}
    (h : perform u k rule s = .next t) :
    t = s ∨ (∃ st, t = s.respond fZero st) ∨
    ∃ x x' r noise, (u.units s)[k]? = some x ∧ rule s.shared x = .done x' r noise ∧
      t = ({ u.set s k x' with noise := noise }).respond r .ok := by
  rw [perform] at h
  cases hx : (u.units s)[k]? with
  | none => rw [hx] at h; exact .inr (.inl ⟨_, State.cfgError_eq_next.1 h⟩)
  | some x =>
    simp only [hx] at h
    cases hr : rule s.shared x with
    | wait => rw [hr] at h; injection h with h; exact .inl h.symm
    | refuse st => rw [hr] at h; exact .inr (.inl ⟨st, State.cfgError_eq_next.1 h⟩)
    | done x' r noise => rw [hr] at h; exact .inr (.inr ⟨x, x', r, noise, rfl, hr, State.answer_eq_next.1 h⟩)

/-- Carrying out a local rule always gives a next state. -/
theorem perform_next (u : UnitKind) (k : Nat) (rule : Shared → u.Elem → Reply u.Elem) (s : State) :
    ∃ t, perform u k rule s = .next t := by
  rw [perform]
  cases (u.units s)[k]? with
  | none => exact ⟨_, rfl⟩
  | some x => dsimp only; cases rule s.shared x <;> exact ⟨_, rfl⟩

/-- A local rule leaves every unit but its own. -/
theorem perform_getElem?_other {u v : UnitKind} {j k : Nat} {rule : Shared → u.Elem → Reply u.Elem} {s t : State}
    (h : perform u j rule s = .next t) (hother : ¬ (u = v ∧ j = k)) : (v.units t)[k]? = (v.units s)[k]? := by
  obtain rfl | ⟨st, rfl⟩ | ⟨x, x', r, noise, -, -, rfl⟩ := perform_cases h
  · rfl
  · rw [UnitKind.units_respond]
  · rw [UnitKind.units_respond, UnitKind.units_ports, UnitKind.getElem?_set_other hother]

/-- A local rule leaves the number of units of every type, and `CAPMAX`. -/
theorem perform_counts {u : UnitKind} {k : Nat} {rule : Shared → u.Elem → Reply u.Elem} {s t : State}
    (h : perform u k rule s = .next t) :
    (∀ v : UnitKind, (v.units t).length = (v.units s).length) ∧ t.capMax = s.capMax := by
  obtain rfl | ⟨st, rfl⟩ | ⟨x, x', r, noise, -, -, rfl⟩ := perform_cases h
  · exact ⟨fun _ => rfl, rfl⟩
  · exact ⟨fun v => by rw [UnitKind.units_respond], rfl⟩
  · refine ⟨fun v => ?_, UnitKind.capMax_set u s k x'⟩
    rw [UnitKind.units_respond, UnitKind.units_ports, UnitKind.length_units_set]

/-- The build is the number of units of every type, and `CAPMAX`. -/
theorem State.build_eq {s t : State} (hlength : ∀ u : UnitKind, (u.units t).length = (u.units s).length)
    (hcap : t.capMax = s.capMax) : t.build = s.build := by
  rw [State.build, State.build, Build.mk.injEq]
  exact ⟨hlength .ph, hlength .cy, hlength .hi, hlength .de, hlength .op, hlength .sl, hlength .dl, hlength .ks,
    hlength .fdn, hcap⟩

/-- Settles O15: a local rule leaves every unit but its own. -/
theorem commandsWriteOnlyTheirUnit : Obligations.CommandsWriteOnlyTheirUnit := by
  intro i s t h
  rw [exec_eq_perform] at h
  obtain ⟨hlength, hcap⟩ := perform_counts h
  have hframe (u : UnitKind) (k : Nat) (hk : ¬ addresses i u k) : (u.units t)[k]? = (u.units s)[k]? :=
    perform_getElem?_other h hk
  exact ⟨State.build_eq hlength hcap, hframe .ph, hframe .cy, hframe .hi, hframe .de, hframe .op, hframe .sl,
    hframe .dl, hframe .ks, hframe .fdn⟩

/-- A local rule does not read any unit but its own: that unit can be changed before or after. -/
theorem perform_set_other {u v : UnitKind} {j k : Nat} {rule : Shared → u.Elem → Reply u.Elem} {s t : State}
    (h : perform u j rule s = .next t) (hother : ¬ (u = v ∧ j = k)) (y : v.Elem) :
    perform u j rule (v.set s k y) = .next (v.set t k y) := by
  have hother' : ¬ (v = u ∧ k = j) := fun ⟨huv, hkj⟩ => hother ⟨huv.symm, hkj.symm⟩
  rw [perform] at h ⊢
  rw [UnitKind.getElem?_set_other hother', UnitKind.shared_set]
  cases hx : (u.units s)[j]? with
  | none =>
    rw [hx] at h
    rw [State.cfgError_eq_next.1 h, State.cfgError, UnitKind.set_respond]
  | some x =>
    simp only [hx] at h ⊢
    cases hr : rule s.shared x with
    | wait =>
      rw [hr] at h
      injection h with h
      rw [h]; rfl
    | refuse st =>
      rw [hr] at h
      rw [State.cfgError_eq_next.1 h, Reply.result, State.cfgError, UnitKind.set_respond]
    | done x' r noise =>
      rw [hr] at h
      rw [State.answer_eq_next.1 h, Reply.result, ← UnitKind.set_set_other hother, UnitKind.set_noise v, State.answer,
        UnitKind.set_respond]

/-- Settles O16: a local rule reads no unit but its own. -/
theorem commandsReadOnlyTheirUnit : Obligations.CommandsReadOnlyTheirUnit := by
  intro i s t h
  rw [exec_eq_perform] at h
  have hcommute (u : UnitKind) (k : Nat) (x : u.Elem) (hk : ¬ addresses i u k) :
      exec i (u.set s k x) = .next (u.set t k x) := by
    rw [exec_eq_perform]; exact perform_set_other h hk x
  exact ⟨hcommute .ph, hcommute .cy, hcommute .hi, hcommute .de, hcommute .op, hcommute .sl, hcommute .dl,
    hcommute .ks, hcommute .fdn⟩

end Sys2Proof.Machine
end

section
/-! What the local rules store, and what every step keeps, for a property of the units: the reset values have it and
every local rule keeps it, so every step does, of the default numerics and of any other. -/

namespace Sys2Proof.Machine

/-! ### What a local rule stores -/

/-- The reply is done and stores `x'`. -/
def Reply.stores {U : Type} (reply : Reply U) (x' : U) : Prop := ∃ r noise, reply = .done x' r noise

theorem Reply.stores_done {U : Type} {x x' : U} {r : F} {noise : List F} :
    (Reply.done x r noise).stores x' ↔ x' = x := by
  simp [stores, eq_comm]

theorem Reply.not_stores_wait {U : Type} {x' : U} : ¬ (Reply.wait : Reply U).stores x' := by
  simp [stores]

/-- A reply after a check. -/
theorem Reply.stores_check {U : Type} {c : Bool} {st : Status} {reply : Reply U} {x' : U} :
    (if !c then .refuse st else reply).stores x' ↔ c = true ∧ reply.stores x' := by
  cases c <;> simp [stores]

/-- A reply after a check of an index. -/
theorem Reply.stores_check_index {U : Type} {c : Prop} [Decidable c] {st : Status} {reply : c → Reply U} {x' : U} :
    (if h : c then reply h else .refuse st).stores x' ↔ ∃ h : c, (reply h).stores x' := by
  by_cases hc : c <;> simp [hc, stores]

section Stores

variable {e : Shared}

theorem phasorFreqRule_stores {hz sampleRate : F} {p p' : Phasor} :
    (phasorFreqRule e hz sampleRate p).stores p' ↔ rateAccepted sampleRate = true ∧
      frequencyAccepted (e.draw.sub 0) hz sampleRate = true ∧
      p' = { p with increment := fDiv (e.draw.sub 1) hz sampleRate } := by
  simp only [phasorFreqRule, Reply.stores_check, Reply.stores_done]

theorem phasorProcRule_stores {sample : F → F} {p p' : Phasor} :
    (phasorProcRule e sample p).stores p' ↔ p' = { p with value := phaseAdvance e.draw p } := Reply.stores_done

theorem slRateRule_stores {rate sampleRate : F} {p p' : Slew} :
    (slRateRule e rate sampleRate p).stores p' ↔ rateAccepted sampleRate = true ∧ slewAccepted rate = true ∧
      p' = { p with limit := fDiv e.draw rate sampleRate } := by
  simp only [slRateRule, Reply.stores_check, Reply.stores_done]

theorem slProcRule_stores {x : F} {p p' : Slew} :
    (slProcRule e x p).stores p' ↔ p' = { p with value := slewStep e.draw p x } := Reply.stores_done

theorem dlConfigRule_stores {capacity : Word} {l l' : DelayLine} :
    (dlConfigRule e capacity l).stores l' ↔ capacityAccepted e.capMax (u32 capacity) = true ∧
      l' = lineClear (u32 capacity) := by
  simp only [dlConfigRule, Reply.stores_check, Reply.stores_done]

theorem dlWriteRule_stores {v : F} {l l' : DelayLine} : (dlWriteRule e v l).stores l' ↔ l' = lineWrite l v :=
  Reply.stores_done

theorem dlReadRule_stores {d : F} {l l' : DelayLine} : (dlReadRule e d l).stores l' ↔ l' = l := Reply.stores_done

theorem ksConfigRule_stores {sampleRate : F} {capacity : Word} {v v' : Voice} :
    (ksConfigRule e sampleRate capacity v).stores v' ↔ voiceRateAccepted sampleRate = true ∧
      capacityAccepted e.capMax (u32 capacity) = true ∧
      v' = ⟨sampleRate, fZero, fZero, fZero, fZero, lineClear (u32 capacity)⟩ := by
  simp only [ksConfigRule, Reply.stores_check, Reply.stores_done]

theorem ksSetRule_stores {pow : F → F → F} {frequency decayTime : F} {v v' : Voice} :
    (ksSetRule e pow frequency decayTime v).stores v' ↔ rateAccepted v.sr = true ∧
      pitchAccepted (e.draw.sub 0) frequency v.sr = true ∧
      fLt (stringDelay e.draw v frequency) (toF v.line.capacity) = true ∧
      decayAccepted (stringDecay e.draw frequency decayTime) = true ∧
      v' = { v with
        delayTime := stringPeriod e.draw frequency
        t60 := decayTime
        gain := stringGain pow e.draw frequency decayTime } := by
  simp only [ksSetRule, Reply.stores_check, Reply.stores_done]

theorem ksPluckRule_stores {g : F} {v v' : Voice} :
    (ksPluckRule e g v).stores v' ↔ ¬ e.noise.length < fillLength (e.draw.sub 0) v ∧
      v' = { v with
        line := lineFill (e.draw.sub 1) g 0 (e.noise.take (fillLength (e.draw.sub 0) v)) v.line } := by
  unfold ksPluckRule
  dsimp only
  split
  next hshort => simp only [Reply.not_stores_wait, hshort, not_true, false_and]
  next hfull => simp only [Reply.stores_done, hfull, not_false_eq_true, true_and]

theorem ksProcRule_stores {v v' : Voice} :
    (ksProcRule e v).stores v' ↔ v' = { v with
      x1 := stringRead e.draw v
      line := lineWrite v.line (stringOutput e.draw v) } := Reply.stores_done

theorem fdnConfigRule_stores {capacity : Word} {f f' : Reverb} :
    (fdnConfigRule e capacity f).stores f' ↔ capacityAccepted e.capMax (u32 capacity) = true ∧
      delaysBelow f (u32 capacity) = true ∧
      f' = { f with line := Vector.replicate _ (lineClear (u32 capacity)) } := by
  simp only [fdnConfigRule, Reply.stores_check, Reply.stores_done]

theorem fdnSetMRule_stores {i j : BitVec 8} {coefficient : F} {f f' : Reverb} :
    (fdnSetMRule e i j coefficient f).stores f' ↔ ∃ h : i.toNat < Config.fdnN ∧ j.toNat < Config.fdnN,
      fIsFinite coefficient = true ∧
      f' = { f with M := f.M.set i.toNat ((f.M[i.toNat]'h.1).set j.toNat coefficient h.2) h.1 } := by
  simp only [fdnSetMRule, Reply.stores_check_index, Reply.stores_check, Reply.stores_done]

theorem fdnSetGRule_stores {i : BitVec 8} {gain : F} {f f' : Reverb} :
    (fdnSetGRule e i gain f).stores f' ↔ ∃ h : i.toNat < Config.fdnN, fIsFinite gain = true ∧
      f' = { f with g := f.g.set i.toNat gain h } := by
  simp only [fdnSetGRule, Reply.stores_check_index, Reply.stores_check, Reply.stores_done]

theorem fdnSetDRule_stores {i : BitVec 8} {delay : F} {f f' : Reverb} :
    (fdnSetDRule e i delay f).stores f' ↔ ∃ h : i.toNat < Config.fdnN,
      delayAccepted delay (f.line[i.toNat]'h).capacity = true ∧ f' = { f with dly := f.dly.set i.toNat delay h } := by
  simp only [fdnSetDRule, Reply.stores_check_index, Reply.stores_check, Reply.stores_done]

theorem fdnProcRule_stores {x : F} {f f' : Reverb} :
    (fdnProcRule e x f).stores f' ↔ f' = { f with
      line := vecOf _ fun i =>
        lineWrite f.line[i] (fdnFeedback (e.draw.sub 1) f (fdnRead (e.draw.sub 0) f) x i) } := Reply.stores_done

end Stores

/-! ### What polling does to the units -/

/-- Time passing executes the command in flight in the state it finds, or nothing. -/
theorem State.pass_cases (s : State) : s.pass = .settled s ∨ ∃ c, s.pass = .run c s := by
  rw [State.pass]
  cases s.inflight with
  | none => exact .inl rfl
  | some c => exact .inr ⟨c, rfl⟩

/-- The units of `t` are those of `s`, or all of them are reset. -/
def keptOrReset (s t : State) : Prop :=
  t.capMax = s.capMax ∧
  ((∀ u : UnitKind, u.units t = u.units s) ∨
    ∀ u : UnitKind, u.units t = List.replicate (u.units s).length (u.reset s.capMax))

/-- Polling leaves the units as they are, or resets all of them. -/
theorem State.poll_keptOrReset (s : State) :
    ∃ t, (s.poll = .settled t ∨ ∃ c, s.poll = .run c t) ∧ keptOrReset s t := by
  obtain ⟨held, tail, -, -, h⟩ | ⟨w, held, tail, -, -, -, h⟩ | ⟨c, held, tail, -, -, -, h⟩ | ⟨held, tail, -, -, h⟩ |
    ⟨-, h⟩ := s.poll_cases
  · refine ⟨_, .inl h, rfl, .inr fun u => ?_⟩
    rw [UnitKind.units_restart, UnitKind.units_ports]
  · exact ⟨_, .inl h, rfl, .inl fun u => u.units_ports s _ _ _⟩
  · exact ⟨_, .inl h, rfl, .inl fun u => u.units_ports s _ _ _⟩
  · exact ⟨{ s with inputs := held ++ tail }, h ▸ State.pass_cases _, rfl, .inl fun u => u.units_ports s _ _ _⟩
  · exact ⟨s, h ▸ s.pass_cases, rfl, .inl fun _ => rfl⟩

/-- A step that the ports settle. -/
theorem State.advance_settled {s t : State} (h : s.poll = .settled t) (execute : Instr → State → Result) :
    s.advance execute = .next t := by
  rw [State.advance, h]

/-- A step that executes a command. -/
theorem State.advance_run {s t : State} {c : Command} {i : Instr} (h : s.poll = .run c t) (hdecode : decode c = .ok i)
    (execute : Instr → State → Result) : s.advance execute = execute i t := by
  simp only [State.advance, h, hdecode]

/-- A step that meets an illegal command word. -/
theorem State.advance_illegal {s t : State} {c : Command} {err : DecodeError} (h : s.poll = .run c t)
    (hdecode : decode c = .illegal err) (execute : Instr → State → Result) :
    s.advance execute = t.cfgError .errOp := by
  simp only [State.advance, h, hdecode]

/-! ### Properties of the units -/

/-- Every unit of every type has the property. -/
def State.every (P : (u : UnitKind) → u.Elem → Prop) (s : State) : Prop := ∀ u, ∀ x ∈ u.units s, P u x

/-- The reset values of a build of `capMax` words have the property. -/
def trueAtReset (P : (u : UnitKind) → u.Elem → Prop) (capMax : Nat) : Prop := ∀ u, P u (u.reset capMax)

/-- In a build of `capMax` words every local rule gives its unit a value with the property when it had one. -/
def keptByRules (exp : Draw → F → F) (pow : F → F → F) (rom : Nat → F) (P : (u : UnitKind) → u.Elem → Prop)
    (capMax : Nat) : Prop :=
  ∀ (i : Instr) (e : Shared) (x x' : (unitOf i).Elem), e.capMax = capMax → P (unitOf i) x →
    (localRule exp pow rom i e x).stores x' → P (unitOf i) x'

variable {P : (u : UnitKind) → u.Elem → Prop} {exp : Draw → F → F} {pow : F → F → F} {rom : Nat → F} {s t : State}

theorem State.every_respond (h : s.every P) (r : F) (st : Status) : (s.respond r st).every P := by
  intro u x hx
  rw [UnitKind.units_respond] at hx
  exact h u x hx

theorem State.every_keptOrReset (hreset : trueAtReset P s.capMax) (h : s.every P) (hst : keptOrReset s t) :
    t.every P := by
  obtain ⟨-, hsame | hrst⟩ := hst
  · intro u x hx
    exact h u x (hsame u ▸ hx)
  · intro u x hx
    rw [hrst u] at hx
    exact List.eq_of_mem_replicate hx ▸ hreset u

/-- A command keeps a property that the local rules keep. -/
theorem execWith_every (hrules : keptByRules exp pow rom P s.capMax) (h : s.every P) {i : Instr}
    (hexec : execWith exp pow rom i s = .next t) : t.every P ∧ t.capMax = s.capMax := by
  rw [execWith_eq_perform] at hexec
  refine ⟨?_, (perform_counts hexec).2⟩
  obtain rfl | ⟨st, rfl⟩ | ⟨x, x', r, noise, hx, hdone, rfl⟩ := perform_cases hexec
  · exact h
  · exact State.every_respond h fZero st
  · apply State.every_respond
    have hx' : P (unitOf i) x' := hrules i s.shared x x' rfl (h _ x (List.mem_of_getElem? hx)) ⟨r, noise, hdone⟩
    intro u y hy
    rw [UnitKind.units_ports] at hy
    by_cases hu : u = unitOf i
    · subst hu
      rw [UnitKind.units_set_same] at hy
      obtain hy | rfl := List.mem_or_eq_of_mem_set hy
      · exact h _ y hy
      · exact hx'
    · rw [UnitKind.set, UnitKind.units_put_other hu] at hy
      exact h u y hy

/-- A step keeps a property that the reset values have and the local rules keep. -/
theorem stepWith_every (hreset : trueAtReset P s.capMax) (hrules : keptByRules exp pow rom P s.capMax) (h : s.every P)
    (hstep : stepWith exp pow rom s = .next t) : t.every P ∧ t.capMax = s.capMax := by
  obtain ⟨v, hpoll, hv⟩ := s.poll_keptOrReset
  have hevery := State.every_keptOrReset hreset h hv
  have hcap := hv.1
  rw [stepWith] at hstep
  obtain hpoll | ⟨c, hpoll⟩ := hpoll
  · rw [State.advance_settled hpoll] at hstep
    injection hstep with hstep
    exact hstep ▸ ⟨hevery, hcap⟩
  · cases hdecode : decode c with
    | ok i =>
      rw [State.advance_run hpoll hdecode] at hstep
      obtain ⟨ht, htcap⟩ := execWith_every (hcap ▸ hrules) hevery hstep
      exact ⟨ht, htcap.trans hcap⟩
    | illegal err =>
      rw [State.advance_illegal hpoll hdecode] at hstep
      rw [State.cfgError_eq_next.1 hstep]
      exact ⟨State.every_respond hevery _ _, hcap⟩

theorem step_every (hreset : trueAtReset P s.capMax) (hrules : keptByRules fexp fpow romRead P s.capMax)
    (h : s.every P) (hstep : step s = .next t) : t.every P ∧ t.capMax = s.capMax :=
  stepWith_every hreset hrules h ((stepWith_default s).trans hstep)

/-- Every step gives a next state. -/
theorem step_next (s : State) : ∃ t, step s = .next t := by
  obtain ⟨v, hpoll | ⟨c, hpoll⟩, -⟩ := s.poll_keptOrReset
  · exact ⟨v, State.advance_settled hpoll exec⟩
  · cases hdecode : decode c with
    | ok i =>
      rw [step, State.advance_run hpoll hdecode, exec_eq_perform]
      exact perform_next _ _ _ v
    | illegal err =>
      rw [step, State.advance_illegal hpoll hdecode]
      exact ⟨_, rfl⟩

/-- After reset every unit has a property that the reset values have. -/
theorem State.initial_every {b : Build} (hreset : trueAtReset P b.capMax) : (State.initial b).every P := by
  intro u x hx
  have hu := hreset u
  cases u <;> exact List.eq_of_mem_replicate hx ▸ hu

end Sys2Proof.Machine
end

section
/-! The registers stay in range (spec/10_state.md R24, R29, R31; spec/41_phasor.md R102; spec/43_filter_stages.md R124;
spec/45_karplus_strong.md R153): what the local rules store, and so what every step and every run keeps. -/

namespace Sys2Proof.Machine

/-! ### Values that are not negative -/

theorem fKey_of_nonneg {a : F} (h0 : fLe fZero a = true) : fKey a = fMag a := by
  obtain ⟨hsign | hzero, -⟩ := fZero_fLe_iff.1 h0
  · simp [fKey, hsign]
  · simp [fKey, hzero]

theorem fKey_le_fMag (a : F) : fKey a ≤ fMag a := by
  unfold fKey; split <;> omega

/-- A value that is not negative and below another is finite. -/
theorem finite_of_fLt {a b : F} (h0 : fLe fZero a = true) (h : fLt a b = true) : fIsFinite a = true := by
  have hb := (fIsNaN_false_iff b).1 (not_nan_of_fLe (fLe_of_fLt h)).2
  have hkey := fKey_le_fMag b
  simp only [fLt, Bool.and_eq_true, decide_eq_true_eq, fKey_of_nonneg h0] at h
  rw [fIsFinite_iff]
  omega

/-- A value that is not negative and at most a finite one is finite. -/
theorem finite_of_fLe {a b : F} (h0 : fLe fZero a = true) (hb : fIsFinite b = true) (h : fLe a b = true) :
    fIsFinite a = true := by
  have hkey := fKey_le_fMag b
  simp only [fLe, Bool.and_eq_true, decide_eq_true_eq, fKey_of_nonneg h0] at h
  rw [fIsFinite_iff] at hb ⊢
  omega

/-- A value that is not negative, in units. -/
theorem fUnits_eq_magUnits {a : F} (h0 : fLe fZero a = true) : fUnits a = magUnits (fMag a) := by
  obtain ⟨hsign | hzero, -⟩ := fZero_fLe_iff.1 h0
  · simp [fUnits, hsign]
  · rw [hzero, (fUnits_eq_zero a).2 (by simp [fIsZero, hzero])]; rfl

/-- A positive value has a magnitude above 0 in units. -/
theorem magUnits_pos {a : F} (h : fLt fZero a = true) : 0 < magUnits (fMag a) := by
  obtain ⟨-, hpos, -⟩ := fZero_fLt_iff.1 h
  exact Nat.pos_of_ne_zero (mt magUnits_eq_zero.1 hpos.ne')

theorem fLe_trans {a b c : F} (hab : fLe a b = true) (hbc : fLe b c = true) : fLe a c = true := by
  simp only [fLe, Bool.and_eq_true, decide_eq_true_eq] at hab hbc ⊢
  exact ⟨⟨hab.1.1, hbc.1.2⟩, hab.2.trans hbc.2⟩

/-- A rate is a positive finite value, or `+inf`. -/
theorem finite_or_inf {b : F} (hb : fLt fZero b = true) : fIsFinite b = true ∨ fIsInf b = true := by
  obtain ⟨-, -, hle⟩ := fZero_fLt_iff.1 hb
  rw [fIsFinite_iff]
  simp only [fIsInf, decide_eq_true_eq]
  omega

/-- Rounding a sign with a magnitude keeps an upper bound that is not negative. -/
theorem fPack_roundMag_fLe (neg : Bool) {n d : Nat} {c : F} (hd : 0 < d) (hc : fLe fZero c = true)
    (h : n ≤ magUnits (fMag c) * d) : fLe (fPack neg (roundMag n d)) c = true := by
  obtain ⟨-, hcnan⟩ := not_nan_of_fLe hc
  have hcinf := (fIsNaN_false_iff c).1 hcnan
  have hle := magUnits_le_iff.2 (roundMag_le hd hcinf h)
  have hnan : fIsNaN (fPack neg (roundMag n d)) = false := by
    rw [fIsNaN_false_iff, fMag_pack_roundMag]; exact roundMag_le_infMag n d
  rw [fLe_iff_units hnan hcnan, fUnits_eq_magUnits hc, fUnits_pack neg ((roundMag_le_infMag n d).trans_lt infMag_lt)]
  split <;> omega

/-! ### Increments below Nyquist (R100, R102) -/

/-- A value below the rounded half of a rate is at most the half itself. -/
theorem two_mul_le_of_fLt_half {q : Draw} {a b : F} (ha : fLe fZero a = true) (hb : fLt fZero b = true)
    (hfin : fIsFinite b = true) (h : fLt a (fMul q b fHalf) = true) :
    2 * magUnits (fMag a) ≤ magUnits (fMag b) := by
  by_contra hc
  obtain ⟨hbsign, -⟩ := fZero_fLt_iff.1 hb
  have hhalf : magUnits (fMag fHalf) = 2 ^ 148 := by decide
  have hle : fLe (fMul q b fHalf) a = true := by
    rw [fMul_finite q hfin (by decide), hhalf]
    exact fPack_roundMag_fLe _ (by decide) ha (by omega)
  have hnan := not_nan_of_fLe hle
  rw [fLt_iff_units hnan.2 hnan.1] at h
  rw [fLe_iff_units hnan.1 hnan.2] at hle
  omega

/-- The quotient of an accepted frequency by its rate lies in `[+0, HALF]`. -/
theorem increment_mem {q : Draw} {a b : F} (q' : Draw) (hb : rateAccepted b = true)
    (ha : frequencyAccepted q a b = true) : fLe fZero (fDiv q' a b) = true ∧ fLe (fDiv q' a b) fHalf = true := by
  obtain ⟨ha0, hlt⟩ := Bool.and_eq_true_iff.1 ha
  have hb : fLt fZero b = true := hb
  have hafin := finite_of_fLt ha0 hlt
  refine ⟨fZero_fLe_fDiv q' hafin ha0 hb, ?_⟩
  have hbpos := magUnits_pos hb
  have hbzero : fIsZero b = false := by
    have := (fZero_fLt_iff.1 hb).2.1
    simp only [fIsZero, decide_eq_false_iff_not]; omega
  rcases finite_or_inf hb with hbfin | hbinf
  · have hhalf : magUnits (fMag fHalf) = 2 ^ 148 := by decide
    have := two_mul_le_of_fLt_half ha0 hb hbfin hlt
    rw [fDiv_finite q' hafin hbfin hbzero]
    exact fPack_roundMag_fLe _ hbpos (by decide) (by rw [hhalf]; omega)
  · have hbnan := (not_nan_of_fLe (fLe_of_fLt hb)).2
    simp only [fDiv, not_nan_of_finite hafin, not_inf_of_finite hafin, hbnan, hbzero, hbinf, Bool.or_self,
      Bool.false_and, Bool.and_false, Bool.false_eq_true, if_false, if_true]
    cases fSign a != fSign b <;> decide

/-- The sum of a phase and an increment in range lies in `[+0, 3/2]`. -/
theorem phase_sum_mem (q : Draw) {p : Phasor} (h : p.inRange) :
    fLe fZero (fAdd q p.value p.increment) = true ∧ fLe (fAdd q p.value p.increment) 0x3FC00000#32 = true := by
  obtain ⟨hinc0, hinc1, hval0, hval1⟩ := h
  have hinc := finite_of_fLe hinc0 (by decide) hinc1
  have hval := finite_of_fLt hval0 hval1
  have hhalf : fUnits fHalf = 2 ^ 148 := by decide
  have hsum : fUnits 0x3FC00000#32 = 3 * 2 ^ 148 := by decide
  rw [fLe_iff_units (by decide) (not_nan_of_finite hinc), fUnits_fZero] at hinc0
  rw [fLe_iff_units (not_nan_of_finite hinc) (by decide), hhalf] at hinc1
  rw [fLe_iff_units (by decide) (not_nan_of_finite hval), fUnits_fZero] at hval0
  rw [fLt_iff_units (not_nan_of_finite hval) (by decide), fUnits_fOne] at hval1
  exact ⟨le_fAdd q hval hinc (by decide) (by rw [fUnits_fZero]; omega),
    fAdd_le q hval hinc (by decide) (by rw [hsum]; omega)⟩

/-- A phase in range advances to one in range: below `ONE` it stays, and the wrap is exact (R101). -/
theorem phaseAdvance_mem (q : Draw) {p : Phasor} (h : p.inRange) :
    fLe fZero (phaseAdvance q p) = true ∧ fLt (phaseAdvance q p) fOne = true := by
  obtain ⟨h0, h1⟩ := phase_sum_mem (q.sub 0) h
  unfold phaseAdvance
  dsimp only
  generalize fAdd (q.sub 0) p.value p.increment = v at h0 h1 ⊢
  have hnan := (not_nan_of_fLe h0).2
  rw [fLe_iff_units hnan (by decide), show fUnits 0x3FC00000#32 = 3 * 2 ^ 148 by decide] at h1
  split
  next hone =>
    have htwo : fLt v 0x40000000#32 = true := by
      rw [fLt_iff_units hnan (by decide), show fUnits 0x40000000#32 = 2 * 2 ^ 149 by decide]; omega
    obtain ⟨hunits, hfin⟩ := phaseWrapIsExact (q.sub 1) v hone htwo
    have hdiff := not_nan_of_finite hfin
    rw [fGe, fLe_iff_units (by decide) hnan, fUnits_fOne] at hone
    rw [fLe_iff_units (by decide) hdiff, fLt_iff_units hdiff (by decide), hunits, fUnits_fZero, fUnits_fOne]
    omega
  next hone =>
    rw [fGe, fLe_iff_units (by decide) hnan, not_le] at hone
    exact ⟨h0, (fLt_iff_units hnan (by decide)).2 hone⟩

/-! ### The registers of a voice (R152, R153) -/

theorem zeroOrPositive_iff {x : F} : zeroOrPositive x ↔ fSign x = false ∧ fIsFinite x = true := by
  constructor
  · rintro (rfl | ⟨hpos, hfin⟩)
    · decide
    · exact ⟨(fZero_fLt_iff.1 hpos).1, hfin⟩
  · rintro ⟨hsign, hfin⟩
    have hlt := (fIsFinite_iff x).1 hfin
    rcases Nat.eq_zero_or_pos (fMag x) with hzero | hpos
    · left; rw [← fPack_of_sign hsign, hzero]; rfl
    · exact .inr ⟨fZero_fLt_iff.2 ⟨hsign, hpos, hlt.le⟩, hfin⟩

theorem zeroOrPositive_fZero : zeroOrPositive fZero := .inl rfl

/-- A product of a voice's registers that is below a bound for one draw is in range for every draw. -/
theorem delay_mem {q : Draw} {a b c : F} (ha : zeroOrPositive a) (hb : zeroOrPositive b)
    (h : fLt (fMul q a b) c = true) (q' : Draw) :
    fIsFinite (fMul q' a b) = true ∧ fLe fZero (fMul q' a b) = true ∧ fLt (fMul q' a b) c = true := by
  obtain ⟨hasign, hafin⟩ := zeroOrPositive_iff.1 ha
  obtain ⟨hbsign, hbfin⟩ := zeroOrPositive_iff.1 hb
  have h0 := fZero_fLe_fMul q' hafin hasign hbfin
    (fZero_fLe_iff.2 ⟨.inl hbsign, ((fIsFinite_iff b).1 hbfin).le⟩)
  have hlt : fLt (fMul q' a b) c = true := by rwa [fMul_finite q' hafin hbfin, ← fMul_finite q hafin hbfin]
  exact ⟨finite_of_fLt h0 hlt, h0, hlt⟩

theorem fMul_fZero_right (q : Draw) {a : F} (ha : zeroOrPositive a) : fMul q a fZero = fZero := by
  obtain ⟨hsign, hfin⟩ := zeroOrPositive_iff.1 ha
  have hzero : magUnits (fMag fZero) = 0 := by decide
  rw [fMul_finite q hfin (by decide), hsign, hzero, Nat.mul_zero, roundMag_zero_left]
  rfl

theorem toF_notNaN (n : Nat) : fIsNaN (toF n) = false := by
  unfold toF fOfInt
  split
  · decide
  · exact fOfUnits_notNaN _

/-- A value that `F` holds and that is at most `n` is at most `toF(n)`. -/
theorem fUnits_le_toF {c : F} (hc : fIsNaN c = false) {n : Nat} (h : fUnits c ≤ n * 2 ^ 149) :
    fUnits c ≤ fUnits (toF n) := by
  unfold toF fOfInt
  split
  next hn => rw [fUnits_fZero]; rwa [hn, Int.zero_mul] at h
  next => exact le_fOfUnits hc h

/-- A capacity is positive. -/
theorem toF_pos {n : Nat} (h : 1 ≤ n) : fLt fZero (toF n) = true := by
  have hle := fUnits_le_toF (c := fOne) (by decide) (n := n) (by rw [fUnits_fOne]; omega)
  rw [fUnits_fOne] at hle
  rw [fLt_iff_units (by decide) (toF_notNaN n), fUnits_fZero]
  omega

/-- A voice with no delay and no gain is in range: after reset, and after `KS.CONFIG`. -/
theorem silentVoice_inRange {sr : F} {line : DelayLine} (hsr : zeroOrPositive sr) (hcap : 1 ≤ line.capacity) :
    (⟨sr, fZero, fZero, fZero, fZero, line⟩ : Voice).inRange := by
  have hdelay : fLt (fMul ⟨0, []⟩ sr fZero) (toF line.capacity) = true := by
    rw [fMul_fZero_right _ hsr]; exact toF_pos hcap
  exact ⟨hsr, zeroOrPositive_fZero, delay_mem hsr zeroOrPositive_fZero hdelay,
    show fLe fZero fZero = true by decide, show fLe fZero fOne = true by decide⟩

/-- The reciprocal of a positive finite value is positive: it may overflow, and is no zero. -/
theorem reciprocal_pos (q : Draw) {a : F} (ha : fLt fZero a = true) (hfin : fIsFinite a = true) :
    fLt fZero (fDiv q fOne a) = true := by
  obtain ⟨hsign, hpos, hinf⟩ := fZero_fLt_iff.1 ha
  have hzero : fIsZero a = false := by simp only [fIsZero, decide_eq_false_iff_not]; omega
  have hone : magUnits (fMag fOne) = 2 ^ 149 := by decide
  have hmag : 1 ≤ roundMag (2 ^ 149 * 2 ^ 149) (magUnits (fMag a)) := by
    refine le_roundMag (magUnits_pos ha) (by decide) ?_
    have hmin : magUnits 1 = 1 := by decide
    have hmax : magUnits infMag ≤ 2 ^ 149 * 2 ^ 149 := by decide
    rw [hmin, Nat.one_mul]
    exact (magUnits_le_iff.2 hinf).trans hmax
  rw [fDiv_finite q (by decide) hfin hzero, hone, fZero_fLt_iff, fSign_pack_roundMag, fMag_pack_roundMag, hsign]
  exact ⟨by decide, hmag, roundMag_le_infMag _ _⟩

/-- The reciprocal of what is at least `ONE` is at most `ONE`. -/
theorem reciprocal_le_one (q : Draw) {a : F} (ha : fLe fOne a = true) (hfin : fIsFinite a = true) :
    fLe (fDiv q fOne a) fOne = true := by
  have ha0 : fLe fZero a = true := fLe_trans (by decide) ha
  have hone : magUnits (fMag fOne) = 2 ^ 149 := by decide
  rw [fLe_iff_units (by decide) (not_nan_of_finite hfin), fUnits_fOne, fUnits_eq_magUnits ha0] at ha
  have hzero : fIsZero a = false := by
    rw [← Bool.not_eq_true, ← fUnits_eq_zero, fUnits_eq_magUnits ha0]; omega
  rw [fDiv_finite q (by decide) hfin hzero]
  exact fPack_roundMag_fLe _ (by omega) (by decide) (by rw [hone]; omega)

/-- A factor of a product that is below another value is finite, the other being positive and finite. -/
theorem finite_of_fMul_fLt {q : Draw} {a b c : F} (ha : fLt fZero a = true) (hafin : fIsFinite a = true)
    (hb : fLt fZero b = true) (h : fLt (fMul q a b) c = true) : fIsFinite b = true := by
  refine (finite_or_inf hb).resolve_right fun hinf => ?_
  obtain ⟨hasign, hapos, -⟩ := fZero_fLt_iff.1 ha
  obtain ⟨hbsign, -⟩ := fZero_fLt_iff.1 hb
  have hazero : fIsZero a = false := by simp only [fIsZero, decide_eq_false_iff_not]; omega
  have hprod : fMul q a b = fPosInf := by
    simp [fMul, not_nan_of_finite hafin, not_inf_of_finite hafin, (not_nan_of_fLe (fLe_of_fLt hb)).2, hinf, hazero,
      hasign, hbsign, fPosInf]
  rw [hprod] at h
  exact absurd (finite_of_fLt (by decide) h) (by decide)

/-- What the gain of a voice needs of `fpow`: it maps `DB60` at the exponents in `(+0, ONE]` into `[+0, ONE]`. -/
def mapsDb60ToUnit (pow : F → F → F) : Prop :=
  ∀ e, fLt fZero e = true → fLe e fOne = true → fLe fZero (pow fDb60 e) = true ∧ fLe (pow fDb60 e) fOne = true

/-- `POWRANGE` is all that is needed. -/
theorem mapsDb60ToUnit_of {pow : F → F → F}
    (hrange : ∀ b e, fLt fZero b = true → fLt b fOne = true → fLt fZero e = true → fLe e fOne = true →
      fLe b (pow b e) = true ∧ fLe (pow b e) fOne = true) : mapsDb60ToUnit pow := by
  intro e he0 he1
  obtain ⟨hlo, hhi⟩ := hrange fDb60 e (by decide) (by decide) he0 he1
  exact ⟨fLe_trans (by decide) hlo, hhi⟩

theorem fpow_mapsDb60ToUnit : mapsDb60ToUnit fpow := mapsDb60ToUnit_of fun _ _ => fpow_mem

theorem mapsDb60ToUnit_of_admissible {pow : F → F → F} (h : admissiblePow pow) : mapsDb60ToUnit pow :=
  have ⟨_, hrange, _⟩ := h
  mapsDb60ToUnit_of hrange

/-- The gain of an accepted decay lies in `[+0, ONE]`. -/
theorem stringGain_mem {pow : F → F → F} (hpow : mapsDb60ToUnit pow) (q : Draw) {a b : F}
    (h : decayAccepted (stringDecay q a b) = true) :
    fLe fZero (stringGain pow q a b) = true ∧ fLe (stringGain pow q a b) fOne = true := by
  obtain ⟨hone, hinf⟩ := Bool.and_eq_true_iff.1 h
  have hpos : fLe fZero (stringDecay q a b) = true := fLe_trans (by decide) hone
  have hfin := finite_of_fLt hpos hinf
  have hlt : fLt fZero (stringDecay q a b) = true := by
    have hnan := not_nan_of_finite hfin
    rw [fGe, fLe_iff_units (by decide) hnan, fUnits_fOne] at hone
    rw [fLt_iff_units (by decide) hnan, fUnits_fZero]; omega
  exact hpow _ (reciprocal_pos _ hlt hfin) (reciprocal_le_one _ hone hfin)

end Sys2Proof.Machine
end

section
/-! The invariants (spec/10_state.md R24, R29, R31; spec/41_phasor.md R102; spec/43_filter_stages.md R124;
spec/45_karplus_strong.md R153), each a property of the units: the reset values have it, every local rule keeps it, and
so does every step and every run. -/

namespace Sys2Proof.Machine

/-! ### The invariants as properties of the units -/

/-- What `State.phasesInRange` says of a unit. -/
def phaseOk : (u : UnitKind) → u.Elem → Prop
  | .ph, p => Phasor.inRange p
  | .cy, p => Phasor.inRange p
  | .hi, _ | .de, _ | .op, _ | .sl, _ | .dl, _ | .ks, _ | .fdn, _ => True

/-- What `State.linesWellFormed` says of a unit. -/
def lineOk (capMax : Nat) : (u : UnitKind) → u.Elem → Prop
  | .dl, l => DelayLine.wf capMax l = true
  | .ks, v => (Voice.line v).wf capMax = true
  | .fdn, f => ∀ i : Fin Config.fdnN, (Reverb.line f)[i].wf capMax = true
  | .ph, _ | .cy, _ | .hi, _ | .de, _ | .op, _ | .sl, _ => True

/-- What `State.voicesInRange` says of a unit. -/
def voiceOk : (u : UnitKind) → u.Elem → Prop
  | .ks, v => Voice.inRange v
  | .ph, _ | .cy, _ | .hi, _ | .de, _ | .op, _ | .sl, _ | .dl, _ | .fdn, _ => True

/-- What `State.reverbsInRange` says of a unit. -/
def reverbOk : (u : UnitKind) → u.Elem → Prop
  | .fdn, f => Reverb.delaysInRange f ∧ Reverb.coefficientsFinite f
  | .ph, _ | .cy, _ | .hi, _ | .de, _ | .op, _ | .sl, _ | .dl, _ | .ks, _ => True

/-- What `State.limitsInRange` says of a unit. -/
def limitOk : (u : UnitKind) → u.Elem → Prop
  | .sl, p => fLe fZero (Slew.limit p) = true
  | .ph, _ | .cy, _ | .hi, _ | .de, _ | .op, _ | .dl, _ | .ks, _ | .fdn, _ => True

theorem State.phasesInRange_iff (s : State) : s.phasesInRange ↔ s.every phaseOk := by
  refine ⟨fun ⟨hph, hcy⟩ u => ?_, fun h => ⟨h .ph, h .cy⟩⟩
  cases u with
  | ph => exact hph
  | cy => exact hcy
  | _ => exact fun _ _ => trivial

theorem State.linesWellFormed_iff (s : State) :
    s.linesWellFormed ↔ 1 ≤ s.capMax ∧ s.capMax ≤ 2 ^ 24 ∧ s.every (lineOk s.capMax) := by
  refine ⟨fun ⟨hmin, hmax, hdl, hks, hfdn⟩ => ⟨hmin, hmax, fun u => ?_⟩,
    fun ⟨hmin, hmax, h⟩ => ⟨hmin, hmax, h .dl, h .ks, h .fdn⟩⟩
  cases u with
  | dl => exact hdl
  | ks => exact hks
  | fdn => exact hfdn
  | _ => exact fun _ _ => trivial

theorem State.voicesInRange_iff (s : State) : s.voicesInRange ↔ 1 ≤ s.capMax ∧ s.every voiceOk := by
  refine ⟨fun ⟨hmin, hks⟩ => ⟨hmin, fun u => ?_⟩, fun ⟨hmin, h⟩ => ⟨hmin, h .ks⟩⟩
  cases u with
  | ks => exact hks
  | _ => exact fun _ _ => trivial

theorem State.reverbsInRange_iff (s : State) : s.reverbsInRange ↔ 3001 < s.capMax ∧ s.every reverbOk := by
  refine ⟨fun ⟨hmin, hfdn⟩ => ⟨hmin, fun u => ?_⟩, fun ⟨hmin, h⟩ => ⟨hmin, h .fdn⟩⟩
  cases u with
  | fdn => exact hfdn
  | _ => exact fun _ _ => trivial

theorem State.limitsInRange_iff (s : State) : s.limitsInRange ↔ s.every limitOk := by
  refine ⟨fun hsl u => ?_, fun h => h .sl⟩
  cases u with
  | sl => exact hsl
  | _ => exact fun _ _ => trivial

/-! ### The reset values -/

theorem phaseOk_reset (capMax : Nat) : trueAtReset phaseOk capMax := by
  intro u
  have hphasor : Phasor.reset.inRange := ⟨by decide, by decide, by decide, by decide⟩
  cases u with
  | ph => exact hphasor
  | cy => exact hphasor
  | _ => trivial

theorem DelayLine.reset_wf {capMax : Nat} (h : 1 ≤ capMax) : (DelayLine.reset capMax).wf capMax = true :=
  lineClear_wf h le_rfl

theorem lineOk_reset {capMax : Nat} (h : 1 ≤ capMax) : trueAtReset (lineOk capMax) capMax := by
  intro u
  cases u with
  | dl => exact DelayLine.reset_wf h
  | ks => exact DelayLine.reset_wf h
  | fdn =>
    intro i
    simpa [UnitKind.reset, Reverb.reset] using DelayLine.reset_wf h
  | _ => trivial

theorem voiceOk_reset {capMax : Nat} (h : 1 ≤ capMax) : trueAtReset voiceOk capMax := by
  intro u
  cases u with
  | ks => exact silentVoice_inRange zeroOrPositive_fZero h
  | _ => trivial

/-- The read delays after reset go up to 3001 (R31). -/
theorem fdnDly0_bounds : ∀ i : Fin Config.fdnN, fLe fZero fdnDly0[i] = true ∧ fUnits fdnDly0[i] ≤ 3001 * 2 ^ 149 := by
  decide

/-- So they are in range below every larger capacity. -/
theorem fdnDly0_mem {capMax : Nat} (h : 3001 < capMax) (i : Fin Config.fdnN) :
    fLe fZero fdnDly0[i] = true ∧ fLt fdnDly0[i] (toF capMax) = true := by
  obtain ⟨h0, hle⟩ := fdnDly0_bounds i
  have hnext : fUnits 0x453BA000#32 = 3002 * 2 ^ 149 := by decide
  have hcap := fUnits_le_toF (c := 0x453BA000#32) (by decide) (n := capMax) (by rw [hnext]; omega)
  rw [hnext] at hcap
  exact ⟨h0, (fLt_iff_units (not_nan_of_fLe h0).2 (toF_notNaN capMax)).2 (by omega)⟩

theorem reverbOk_reset {capMax : Nat} (h : 3001 < capMax) : trueAtReset reverbOk capMax := by
  intro u
  cases u with
  | fdn =>
    refine ⟨fun i => ?_, fun i j => ?_, fun i => ?_⟩
    · simpa [UnitKind.reset, Reverb.reset, DelayLine.reset] using fdnDly0_mem h i
    · simpa [UnitKind.reset, Reverb.reset] using show fIsFinite fZero = true by decide
    · simpa [UnitKind.reset, Reverb.reset] using show fIsFinite fOne = true by decide
  | _ => trivial

theorem limitOk_reset (capMax : Nat) : trueAtReset limitOk capMax := by
  intro u
  cases u with
  | sl => exact show fLe fZero fZero = true by decide
  | _ => trivial

/-! ### What the local rules store -/

theorem phasorFreqRule_inRange {e : Shared} {hz sampleRate : F} {p p' : Phasor} (hp : p.inRange)
    (h : (phasorFreqRule e hz sampleRate p).stores p') : p'.inRange := by
  obtain ⟨hrate, hfreq, rfl⟩ := phasorFreqRule_stores.1 h
  obtain ⟨-, -, hval0, hval1⟩ := hp
  obtain ⟨hinc0, hinc1⟩ := increment_mem (e.draw.sub 1) hrate hfreq
  exact ⟨hinc0, hinc1, hval0, hval1⟩

theorem phasorProcRule_inRange {e : Shared} {sample : F → F} {p p' : Phasor} (hp : p.inRange)
    (h : (phasorProcRule e sample p).stores p') : p'.inRange := by
  obtain rfl := phasorProcRule_stores.1 h
  obtain ⟨hval0, hval1⟩ := phaseAdvance_mem e.draw hp
  obtain ⟨hinc0, hinc1, -, -⟩ := hp
  exact ⟨hinc0, hinc1, hval0, hval1⟩

section Kept

variable (exp : Draw → F → F) (pow : F → F → F) (rom : Nat → F) (capMax : Nat)

theorem phaseOk_kept : keptByRules exp pow rom phaseOk capMax := by
  intro i e x x' _ hx h
  cases i with
  | phFreq _ hz sampleRate => exact phasorFreqRule_inRange hx h
  | phProc _ => exact phasorProcRule_inRange hx h
  | cyFreq _ hz sampleRate => exact phasorFreqRule_inRange hx h
  | cyProc _ => exact phasorProcRule_inRange hx h
  | _ => trivial

/-- A line cleared to an accepted capacity is well formed. -/
theorem lineClear_accepted_wf {capMax c : Nat} (h : capacityAccepted capMax c = true) :
    (lineClear c).wf capMax = true := by
  obtain ⟨hmin, hmax⟩ := of_decide_eq_true h
  exact lineClear_wf hmin hmax

theorem lineOk_kept : keptByRules exp pow rom (lineOk capMax) capMax := by
  intro i e x x' hcap hx h
  subst hcap
  cases i with
  | dlConfig _ capacity =>
    obtain ⟨haccepted, rfl⟩ := (dlConfigRule_stores (l := x)).1 h
    exact lineClear_accepted_wf haccepted
  | dlWrite _ v =>
    obtain rfl := dlWriteRule_stores.1 h
    exact lineWrite_wf hx v
  | dlRead _ d =>
    obtain rfl := dlReadRule_stores.1 h
    exact hx
  | ksConfig _ sampleRate capacity =>
    obtain ⟨-, haccepted, rfl⟩ := (ksConfigRule_stores (v := x)).1 h
    exact lineClear_accepted_wf haccepted
  | ksSet _ frequency decayTime =>
    obtain ⟨-, -, -, -, rfl⟩ := ksSetRule_stores.1 h
    exact hx
  | ksPluck _ g =>
    obtain ⟨-, rfl⟩ := ksPluckRule_stores.1 h
    exact lineFill_wf _ _ _ _ hx
  | ksProc _ =>
    obtain rfl := ksProcRule_stores.1 h
    exact lineWrite_wf hx _
  | fdnConfig _ capacity =>
    obtain ⟨haccepted, -, rfl⟩ := fdnConfigRule_stores.1 h
    intro a
    simpa using lineClear_accepted_wf haccepted
  | fdnSetM _ i j coefficient =>
    obtain ⟨_, -, rfl⟩ := fdnSetMRule_stores.1 h
    exact hx
  | fdnSetG _ i gain =>
    obtain ⟨_, -, rfl⟩ := fdnSetGRule_stores.1 h
    exact hx
  | fdnSetD _ i delay =>
    obtain ⟨_, -, rfl⟩ := fdnSetDRule_stores.1 h
    exact hx
  | fdnProc _ y =>
    obtain rfl := fdnProcRule_stores.1 h
    intro a
    simpa using lineWrite_wf (hx a) _
  | _ => trivial

/-- A voice keeps its range when its registers and its capacity stay. -/
theorem Voice.inRange_of_same {v : Voice} (h : v.inRange) (x1 : F) {line : DelayLine}
    (hcap : line.capacity = v.line.capacity) : ({ v with x1 := x1, line := line } : Voice).inRange := by
  obtain ⟨hsr, htime, hdelay, hgain0, hgain1⟩ := h
  exact ⟨hsr, htime, fun q => hcap ▸ hdelay q, hgain0, hgain1⟩

theorem ksConfigRule_inRange {e : Shared} {sampleRate : F} {capacity : Word} {v v' : Voice}
    (h : (ksConfigRule e sampleRate capacity v).stores v') : v'.inRange := by
  obtain ⟨hrate, hcap, rfl⟩ := ksConfigRule_stores.1 h
  obtain ⟨hpos, hinf⟩ := Bool.and_eq_true_iff.1 hrate
  exact silentVoice_inRange (.inr ⟨hpos, finite_of_fLt (fLe_of_fLt hpos) hinf⟩) (of_decide_eq_true hcap).1

theorem ksSetRule_inRange {pow : F → F → F} (hpow : mapsDb60ToUnit pow) {e : Shared} {frequency decayTime : F}
    {v v' : Voice} (hv : v.inRange) (h : (ksSetRule e pow frequency decayTime v).stores v') : v'.inRange := by
  obtain ⟨hrate, hpitch, hdelay, hdecay, rfl⟩ := ksSetRule_stores.1 h
  obtain ⟨hsr, -⟩ := hv
  obtain ⟨hpos, hlt⟩ := Bool.and_eq_true_iff.1 hpitch
  have hperiod := reciprocal_pos (e.draw.sub 1) hpos (finite_of_fLt (fLe_of_fLt hpos) hlt)
  have htime : zeroOrPositive (stringPeriod e.draw frequency) :=
    .inr ⟨hperiod, finite_of_fMul_fLt hrate (zeroOrPositive_iff.1 hsr).2 hperiod hdelay⟩
  obtain ⟨hgain0, hgain1⟩ := stringGain_mem hpow e.draw hdecay
  exact ⟨hsr, htime, delay_mem hsr htime hdelay, hgain0, hgain1⟩

theorem voiceOk_kept (hpow : mapsDb60ToUnit pow) : keptByRules exp pow rom voiceOk capMax := by
  intro i e x x' _ hx h
  cases i with
  | ksConfig _ sampleRate capacity => exact ksConfigRule_inRange (v := x) h
  | ksSet _ frequency decayTime => exact ksSetRule_inRange hpow hx h
  | ksPluck _ g =>
    obtain ⟨-, rfl⟩ := ksPluckRule_stores.1 h
    exact Voice.inRange_of_same hx _ (lineFill_capacity _ _ _ _ _)
  | ksProc _ =>
    obtain rfl := ksProcRule_stores.1 h
    exact Voice.inRange_of_same hx _ (lineWrite_capacity _ _)
  | _ => trivial

/-- A property of all entries stays when one entry is set to a value that has it. -/
theorem vector_forall_set {α : Type} {n : Nat} {P : α → Prop} {v : Vector α n} (h : ∀ a : Fin n, P v[a]) {x : α}
    (hx : P x) {i : Nat} (hi : i < n) (a : Fin n) : P (v.set i x hi)[a] := by
  rw [Fin.getElem_fin, Vector.getElem_set]
  split
  · exact hx
  · exact h a

theorem fdnConfigRule_delaysInRange {e : Shared} {capacity : Word} {f f' : Reverb} (hf : f.delaysInRange)
    (h : (fdnConfigRule e capacity f).stores f') : f'.delaysInRange := by
  obtain ⟨-, hbelow, rfl⟩ := fdnConfigRule_stores.1 h
  intro a
  have hlt := List.all_eq_true.1 hbelow a (List.mem_finRange a)
  simpa using ⟨(hf a).1, hlt⟩

theorem fdnSetDRule_delaysInRange {e : Shared} {i : BitVec 8} {delay : F} {f f' : Reverb} (hf : f.delaysInRange)
    (h : (fdnSetDRule e i delay f).stores f') : f'.delaysInRange := by
  obtain ⟨hi, haccepted, rfl⟩ := fdnSetDRule_stores.1 h
  obtain ⟨h0, hlt⟩ := Bool.and_eq_true_iff.1 haccepted
  intro a
  dsimp only
  rw [Fin.getElem_fin, Vector.getElem_set]
  split
  next heq => simpa only [Fin.getElem_fin, ← heq] using ⟨h0, hlt⟩
  next => exact hf a

theorem fdnSetMRule_coefficientsFinite {e : Shared} {i j : BitVec 8} {coefficient : F} {f f' : Reverb}
    (hf : f.coefficientsFinite) (h : (fdnSetMRule e i j coefficient f).stores f') : f'.coefficientsFinite := by
  obtain ⟨⟨hi, hj⟩, hfin, rfl⟩ := fdnSetMRule_stores.1 h
  obtain ⟨hM, hg⟩ := hf
  have hrow := vector_forall_set (P := fun m => fIsFinite m = true) (hM ⟨i.toNat, hi⟩) hfin hj
  exact ⟨vector_forall_set (P := fun row => ∀ b : Fin Config.fdnN, fIsFinite row[b] = true) hM hrow hi, hg⟩

theorem fdnSetGRule_coefficientsFinite {e : Shared} {i : BitVec 8} {gain : F} {f f' : Reverb}
    (hf : f.coefficientsFinite) (h : (fdnSetGRule e i gain f).stores f') : f'.coefficientsFinite := by
  obtain ⟨hi, hfin, rfl⟩ := fdnSetGRule_stores.1 h
  obtain ⟨hM, hg⟩ := hf
  exact ⟨hM, vector_forall_set (P := fun m => fIsFinite m = true) hg hfin hi⟩

theorem reverbOk_kept : keptByRules exp pow rom reverbOk capMax := by
  intro i e x x' _ hx h
  cases i with
  | fdnConfig _ capacity =>
    obtain ⟨hdelays, hcoefficients⟩ := hx
    refine ⟨fdnConfigRule_delaysInRange hdelays h, ?_⟩
    obtain ⟨-, -, rfl⟩ := fdnConfigRule_stores.1 h
    exact hcoefficients
  | fdnSetM _ i j coefficient =>
    obtain ⟨hdelays, hcoefficients⟩ := hx
    refine ⟨?_, fdnSetMRule_coefficientsFinite hcoefficients h⟩
    obtain ⟨_, -, rfl⟩ := fdnSetMRule_stores.1 h
    exact hdelays
  | fdnSetG _ i gain =>
    obtain ⟨hdelays, hcoefficients⟩ := hx
    refine ⟨?_, fdnSetGRule_coefficientsFinite hcoefficients h⟩
    obtain ⟨_, -, rfl⟩ := fdnSetGRule_stores.1 h
    exact hdelays
  | fdnSetD _ i delay =>
    obtain ⟨hdelays, hcoefficients⟩ := hx
    refine ⟨fdnSetDRule_delaysInRange hdelays h, ?_⟩
    obtain ⟨_, -, rfl⟩ := fdnSetDRule_stores.1 h
    exact hcoefficients
  | fdnProc _ y =>
    obtain ⟨hdelays, hcoefficients⟩ := hx
    obtain rfl := fdnProcRule_stores.1 h
    exact ⟨fun a => by simpa using hdelays a, hcoefficients⟩
  | _ => trivial

theorem limitOk_kept : keptByRules exp pow rom limitOk capMax := by
  intro i e x x' _ hx h
  cases i with
  | slRate _ rate sampleRate =>
    obtain ⟨hrate, hslew, rfl⟩ := slRateRule_stores.1 h
    obtain ⟨h0, hinf⟩ := Bool.and_eq_true_iff.1 hslew
    exact fZero_fLe_fDiv _ (finite_of_fLt h0 hinf) h0 hrate
  | slProc _ y =>
    obtain rfl := slProcRule_stores.1 h
    exact hx
  | _ => trivial

end Kept

/-! ### Every step and every run -/

/-- Settles O21: a step keeps a property of the units that the reset values have and the local rules keep. -/
theorem stepKeepsPhasesInRange : Obligations.StepKeepsPhasesInRange := by
  intro s t hs hstep
  rw [State.phasesInRange_iff] at *
  exact (step_every (phaseOk_reset _) (phaseOk_kept _ _ _ _) hs hstep).1

/-- Settles O38, in the same way. -/
theorem stepKeepsLinesWellFormed : Obligations.StepKeepsLinesWellFormed := by
  intro s t hs hstep
  rw [State.linesWellFormed_iff] at *
  obtain ⟨hmin, hmax, hevery⟩ := hs
  obtain ⟨ht, hcap⟩ := step_every (lineOk_reset hmin) (lineOk_kept _ _ _ _) hevery hstep
  rw [hcap]
  exact ⟨hmin, hmax, ht⟩

/-- Settles O54, in the same way. -/
theorem stepKeepsReverbsInRange : Obligations.StepKeepsReverbsInRange := by
  intro s t hs hstep
  rw [State.reverbsInRange_iff] at *
  obtain ⟨hmin, hevery⟩ := hs
  obtain ⟨ht, hcap⟩ := step_every (reverbOk_reset hmin) (reverbOk_kept _ _ _ _) hevery hstep
  rw [hcap]
  exact ⟨hmin, ht⟩

/-- A step keeps the voices in range, with any `fpow` that maps `DB60` into `[+0, ONE]`. -/
theorem stepWith_voicesInRange {exp : Draw → F → F} {pow : F → F → F} {rom : Nat → F} (hpow : mapsDb60ToUnit pow)
    {s t : State} (hs : s.voicesInRange) (hstep : stepWith exp pow rom s = .next t) : t.voicesInRange := by
  rw [State.voicesInRange_iff] at *
  obtain ⟨hmin, hevery⟩ := hs
  obtain ⟨ht, hcap⟩ := stepWith_every (voiceOk_reset hmin) (voiceOk_kept _ _ _ _ hpow) hevery hstep
  rw [hcap]
  exact ⟨hmin, ht⟩

theorem step_voicesInRange {s t : State} (hs : s.voicesInRange) (hstep : step s = .next t) : t.voicesInRange :=
  stepWith_voicesInRange fpow_mapsDb60ToUnit hs ((stepWith_default s).trans hstep)

theorem step_limitsInRange {s t : State} (hs : s.limitsInRange) (hstep : step s = .next t) : t.limitsInRange := by
  rw [State.limitsInRange_iff] at *
  exact (step_every (limitOk_reset _) (limitOk_kept _ _ _ _) hs hstep).1

/-- A step keeps all the invariants. -/
theorem step_inv {s t : State} (hs : s.inv) (hstep : step s = .next t) : t.inv := by
  obtain ⟨hphases, hlines, hvoices, hreverbs, hlimits⟩ := hs
  exact ⟨stepKeepsPhasesInRange s t hphases hstep, stepKeepsLinesWellFormed s t hlines hstep,
    step_voicesInRange hvoices hstep, stepKeepsReverbsInRange s t hreverbs hstep, step_limitsInRange hlimits hstep⟩

/-- A run that begins with a step goes on from where the step ends. -/
theorem core_run_succ (M : Host.Core) (n : Nat) {s t : M.State} (hstep : M.step s = .next t) :
    M.run (n + 1) s = M.run n t := by
  simp only [Host.Core.run, hstep]

/-- Settles O59, by induction on the number of steps. -/
theorem everyRunKeepsTheInvariants : Obligations.EveryRunKeepsTheInvariants := by
  intro n
  induction n with
  | zero => exact fun s hs => ⟨s, rfl, hs⟩
  | succ n ih =>
    intro s hs
    obtain ⟨u, hstep⟩ := step_next s
    obtain ⟨t, hrun, ht⟩ := ih u (step_inv hs hstep)
    exact ⟨t, (core_run_succ Sys2Proof.core n hstep).trans hrun, ht⟩

/-- The state after reset has the invariants, in every build with a `CAPMAX` above 3001 (R31). -/
theorem State.initial_inv {b : Build} (hmin : 3001 < b.capMax) (hmax : b.capMax ≤ 2 ^ 24) : (State.initial b).inv := by
  have hone : 1 ≤ b.capMax := by omega
  exact ⟨(State.phasesInRange_iff _).2 (State.initial_every (phaseOk_reset _)),
    (State.linesWellFormed_iff _).2 ⟨hone, hmax, State.initial_every (lineOk_reset hone)⟩,
    (State.voicesInRange_iff _).2 ⟨hone, State.initial_every (voiceOk_reset hone)⟩,
    (State.reverbsInRange_iff _).2 ⟨hmin, State.initial_every (reverbOk_reset hmin)⟩,
    (State.limitsInRange_iff _).2 (State.initial_every (limitOk_reset _))⟩

/-- Settles O58: the build R8 takes has 65536 words. -/
theorem resetStateKeepsTheInvariants : Obligations.ResetStateKeepsTheInvariants :=
  State.initial_inv (b := Config.build) (by decide) (by decide)

end Sys2Proof.Machine
end

section
/-! The lookups (spec/20_memory.md R52 to R55): the symmetries of the sine ROM, `CY.PROC` (spec/42_wavetable.md R111)
and `DL.READ` (spec/44_delay_line.md R142). -/

namespace Sys2Proof.Machine

/-! ### The table position of a phase (R55, R111) -/

/-- A phase is at most the greatest `F` value below `ONE`. -/
theorem fMag_of_phase {t : F} (h0 : fLe fZero t = true) (h1 : fLt t fOne = true) : fMag t ≤ fMag 0x3F7FFFFF#32 := by
  have hkey : fKey t < fKey fOne := by
    simp only [fLt, Bool.and_eq_true, decide_eq_true_eq] at h1
    exact h1.2
  have hone : fKey fOne = fMag 0x3F7FFFFF#32 + 1 := by decide
  rw [fKey_of_nonneg h0] at hkey
  omega

/-- 4096 times a phase lies in `[+0, 4096)`: rounding keeps the bound by the greatest `F` value below 4096. -/
theorem tablePosition_mem (q : Draw) {t : F} (h0 : fLe fZero t = true) (h1 : fLt t fOne = true) :
    fLe fZero (fMul q fTblLen t) = true ∧ fLe (fMul q fTblLen t) 0x457FFFFF#32 = true := by
  have hfin := finite_of_fLt h0 h1
  refine ⟨fZero_fLe_fMul q (by decide) (by decide) hfin h0, ?_⟩
  have hphase := magUnits_le_iff.2 (fMag_of_phase h0 h1)
  have hbelowOne : magUnits (fMag 0x3F7FFFFF#32) = (2 ^ 24 - 1) * 2 ^ 125 := by decide
  have hbelowLen : magUnits (fMag 0x457FFFFF#32) = (2 ^ 24 - 1) * 2 ^ 137 := by decide
  have hlen : magUnits (fMag fTblLen) = 2 ^ 161 := by decide
  rw [fMul_finite q (by decide) hfin]
  refine fPack_roundMag_fLe _ (by decide) (by decide) ?_
  rw [hlen, hbelowLen]
  omega

/-- The integer part of a table position addresses the table. -/
theorem floorZ_tablePosition {x : F} (h0 : fLe fZero x = true) (h1 : fLe x 0x457FFFFF#32 = true) :
    ∃ n : Nat, n < Config.tblLen ∧ floorZ x = n := by
  have hnan := (not_nan_of_fLe h1).1
  have hlast : fUnits 0x457FFFFF#32 < 4096 * 2 ^ 149 := by decide
  rw [fLe_iff_units (by decide) hnan, fUnits_fZero] at h0
  rw [fLe_iff_units hnan (by decide)] at h1
  refine ⟨(floorZ x).toNat, ?_, ?_⟩ <;> simp only [floorZ, Config.tblLen] <;> omega

/-- The table lookup at a position whose integer part addresses the table: the first tap is that entry, the second
the next one, wrapping. -/
theorem tblPhasor_of_floorZ (rom : Nat → F) (q : Draw) {t x : F} {n : Nat} (hx : x = fMul (q.sub 0) fTblLen t)
    (hfin : fIsFinite x = true) (hn : n < Config.tblLen) (hfloor : floorZ x = n) :
    tblPhasor rom q t = lerp ((q.sub 1).sub 2) (rom n) (rom ((n + 1) % Config.tblLen))
      (fSub ((q.sub 1).sub 1) x (floorF ((q.sub 1).sub 0) x)) := by
  have hfirst : ((n : Int) % (Config.tblLen : Int)).toNat = n := by
    rw [← Int.natCast_mod, Int.toNat_natCast, Nat.mod_eq_of_lt hn]
  have hsecond : (((n : Int) + 1) % (Config.tblLen : Int)).toNat = (n + 1) % Config.tblLen := by
    rw [← Nat.cast_succ, ← Int.natCast_mod, Int.toNat_natCast]
  rw [tblPhasor, ← hx, lookup_finite _ _ _ hfin, hfloor, hfirst, hsecond]

theorem exec_cyProc (s : State) {k : BitVec 8} (h : k.toNat < s.cy.length) :
    exec (.cyProc k) s = .next ({ s with
      cy := s.cy.set k.toNat ⟨s.cy[k.toNat].increment, phaseAdvance s.draw s.cy[k.toNat]⟩ }.respond
        (tblPhasor romRead (s.draw.sub 2) s.cy[k.toNat].value) .ok) := by
  change cyProcWith romRead k s = _
  exact s.onInstance_legal h _

/-- Settles O20: a phase in range has its table position in `[+0, 4096)`. -/
theorem cyProcInterpolatesTheTable : Obligations.CyProcInterpolatesTheTable := by
  rintro s k h v x fr hrange rfl hx rfl
  obtain ⟨-, -, hphase0, hphase1⟩ := hrange
  obtain ⟨hx0, hx1⟩ := hx ▸ tablePosition_mem ((s.draw.sub 2).sub 0) hphase0 hphase1
  obtain ⟨n, hn, hfloor⟩ := floorZ_tablePosition hx0 hx1
  refine ⟨n, hn, hfloor, ?_⟩
  rw [exec_cyProc s h, tblPhasor_of_floorZ romRead _ hx (finite_of_fLe hx0 (by decide) hx1) hn hfloor]
  rfl

/-! ### The sine ROM (R52, R53)

Neighbouring quarters agree where they meet, but for the second and the third at 2048, where the entry is `+0`. -/

theorem romRead_firstQuarter {k : Nat} (h : k ≤ 1024) : romRead k = sineQuarter k := if_pos h

theorem romRead_secondQuarter {k : Nat} (h0 : 1024 ≤ k) (h1 : k ≤ 2048) : romRead k = sineQuarter (2048 - k) := by
  obtain rfl | hlt := h0.eq_or_lt
  · exact romRead_firstQuarter le_rfl
  · rw [romRead, if_neg (by omega), if_pos h1]

theorem romRead_thirdQuarter {k : Nat} (h0 : 2048 < k) (h1 : k ≤ 3072) :
    romRead k = fNeg (sineQuarter (k - 2048)) := by
  rw [romRead, if_neg (by omega), if_neg (by omega), if_pos h1]

theorem romRead_fourthQuarter {k : Nat} (h : 3072 ≤ k) : romRead k = fNeg (sineQuarter (4096 - k)) := by
  obtain rfl | hlt := h.eq_or_lt
  · exact romRead_thirdQuarter (by decide) le_rfl
  · rw [romRead, if_neg (by omega), if_neg (by omega), if_neg (by omega)]

theorem sineQuarter_zero : sineQuarter 0 = fZero := by decide

theorem sineQuarter_last : sineQuarter 1024 = fOne := if_pos rfl

/-- No stored entry is beyond `ONE` in magnitude. -/
theorem sineRows_entry_le : ∀ row ∈ sineRows, ∀ c < 16, row / 2 ^ (32 * c) % 2 ^ 31 ≤ fMag fOne := by
  decide +kernel

theorem fMag_sineQuarter_le (k : Nat) : fMag (sineQuarter k) ≤ fMag fOne := by
  unfold sineQuarter
  split
  · exact le_rfl
  · rw [fMag, BitVec.toNat_ofNat, Nat.mod_mod_of_dvd _ (by decide)]
    by_cases hrow : k / 16 < sineRows.length
    · rw [List.getD_eq_getElem _ _ hrow]
      exact sineRows_entry_le _ (List.getElem_mem hrow) _ (Nat.mod_lt k (by decide))
    · rw [List.getD_eq_default _ _ (by omega), Nat.zero_div]
      exact Nat.zero_le _

/-- The first symmetry of R52: the table falls from 1024 as it rose. -/
theorem romRead_mirror {k : Nat} (h : k ≤ 2048) : romRead (2048 - k) = romRead k := by
  obtain hfirst | hsecond := Nat.le_total k 1024
  · rw [romRead_firstQuarter hfirst, romRead_secondQuarter (by omega) (by omega), Nat.sub_sub_self h]
  · rw [romRead_firstQuarter (by omega), romRead_secondQuarter hsecond h]

/-- The upper half of the table is the lower half negated. -/
theorem romRead_upper {k : Nat} (h0 : 2048 < k) (h1 : k ≤ 4096) : romRead k = fNeg (romRead (4096 - k)) := by
  obtain hthird | hfourth := Nat.le_total k 3072
  · rw [romRead_thirdQuarter h0 hthird, romRead_secondQuarter (by omega) (by omega),
      show 2048 - (4096 - k) = k - 2048 by omega]
  · rw [romRead_fourthQuarter hfourth, romRead_firstQuarter (by omega)]

theorem romRead_middle : romRead 2048 = fZero :=
  (romRead_secondQuarter (by decide) le_rfl).trans sineQuarter_zero

/-- No entry of the table is beyond `ONE` in magnitude. -/
theorem fMag_romRead_le (k : Nat) : fMag (romRead k) ≤ fMag fOne := by
  unfold romRead
  split_ifs <;> simp only [fMag_neg, fMag_sineQuarter_le]

theorem romRead_notNaN (k : Nat) : fIsNaN (romRead k) = false :=
  (fIsNaN_false_iff _).2 ((fMag_romRead_le k).trans fMag_fOne_le)

/-- The second symmetry of R52, in value: at 2048 both sides are zeros. -/
theorem fUnits_romRead_reflect {k : Nat} (h0 : 1 ≤ k) (h1 : k ≤ 4095) :
    fUnits (romRead (4096 - k)) = -fUnits (romRead k) := by
  obtain hlow | rfl | hhigh := Nat.lt_trichotomy k 2048
  · rw [romRead_upper (by omega) (by omega), Nat.sub_sub_self (by omega), fUnits_neg]
  · rw [romRead_middle, fUnits_fZero, neg_zero]
  · rw [romRead_upper hhigh (by omega), fUnits_neg, neg_neg]

/-- Settles O25, by the quarters of the table. -/
theorem sineRomSymmetries : Obligations.SineRomSymmetries := by
  refine ⟨?_, ?_, romRead_middle, ?_, fun k => romRead_mirror, fun k h0 h1 => ?_, fun k _ => fMag_romRead_le k⟩
  · rw [romRead_firstQuarter (by decide), sineQuarter_zero]
  · rw [romRead_firstQuarter le_rfl, sineQuarter_last]
  · rw [romRead_thirdQuarter (by decide) le_rfl, sineQuarter_last]
  · rw [fEq_iff_units (romRead_notNaN _) (by rw [fIsNaN_neg, romRead_notNaN]), fUnits_neg]
    exact fUnits_romRead_reflect h0 h1

/-! ### `DL.READ` (R142) -/

theorem exec_dlRead (s : State) {k : BitVec 8} (d : F) (h : k.toNat < s.dl.length) :
    exec (.dlRead k d) s = .next (s.respond (lineRead s.draw s.dl[k.toNat] d) .ok) := by
  change execDlRead k d s = _
  exact s.onInstance_legal h _

/-- Settles O36: the read is the lookup at the read index, which is finite. -/
theorem dlReadInterpolates : Obligations.DlReadInterpolates := by
  intro s k d r h hr hfin
  have hindex : readIndex s.draw s.dl[k.toNat] d = r := hr.symm
  rw [exec_dlRead s d h, lineRead, hindex, lookup_finite _ _ _ hfin]

/-- Settles O37: the command answers whatever the lookup gives, and checks no operand. -/
theorem dlReadAtNonFiniteCompletes : Obligations.DlReadAtNonFiniteCompletes :=
  fun s _ d h _ => ⟨_, exec_dlRead s d h⟩

end Sys2Proof.Machine
end

section
/-! The step of the sequencer (spec/30_encoding.md R70): when it accepts a command and when it executes one. -/

namespace Sys2Proof.Machine

/-- With none in flight, polling accepts the first command that stands behind what is held. -/
theorem State.poll_accepts {s : State} {c : Command} {held tail : List PortEvent} (hidle : s.inflight = none)
    (hinputs : s.inputs = held ++ .command c :: tail) (hheld : ∀ e ∈ held, s.takes e = false) :
    s.poll = .settled { s with inputs := held ++ tail, inflight := some c } := by
  have htakes : s.takes (.command c) = true := by rw [s.takes_command, hidle]; rfl
  simp only [State.poll, hinputs, firstTaken_append hheld htakes]

/-- Settles O7, by what polling gives in each of the three cases. -/
theorem stepRunsTheDecodedCommand : Obligations.StepRunsTheDecodedCommand :=
  ⟨fun _ _ _ _ hidle hinputs hheld => State.advance_settled (State.poll_accepts hidle hinputs hheld) exec,
    fun _ _ _ _ hflight hnext hdecode => State.advance_run (State.poll_executes hnext hflight) hdecode exec,
    fun s c _ hdecode => State.advance_run (s.poll_present c) hdecode exec⟩

end Sys2Proof.Machine
end

section
/-! The decoder and the encoder (spec/30_encoding.md R71 to R77): a command decodes to an instruction exactly when it
carries it, that is, when its command word is the encoded one and so are the operand words that the format uses. What
the statements say of the two functions, and of the words that fail a decode test, is drawn from this. -/

namespace Sys2Proof

/-! ### The fields of a command word (R72) -/

/-- A command word is what its four fields pack to. -/
theorem Command.cw_eq_packWord (c : Command) : c.cw = packWord c.op c.inst c.i c.j := by
  simp only [packWord, Command.op, Command.inst, Command.i, Command.j]
  rw [BitVec.extractLsb'_append_extractLsb'_eq_extractLsb' (show 24 = 16 + 8 from rfl),
    BitVec.extractLsb'_append_extractLsb'_eq_extractLsb' (show 16 = 8 + 8 from rfl),
    BitVec.extractLsb'_append_extractLsb'_eq_extractLsb' (show 8 = 0 + 8 from rfl), BitVec.extractLsb'_eq_self]

theorem Command.cw_eq_packWord_iff {c : Command} {op k i j : BitVec 8} :
    c.cw = packWord op k i j ↔ c.op = op ∧ c.inst = k ∧ c.i = i ∧ c.j = j := by
  constructor
  · obtain ⟨cw, a, b⟩ := c
    rintro rfl
    exact ⟨op_packWord .., inst_packWord .., i_packWord .., j_packWord ..⟩
  · rintro ⟨rfl, rfl, rfl, rfl⟩
    exact c.cw_eq_packWord

/-- The low half of a command word is its two index fields. -/
theorem Command.lowHalf_eq_zero_iff {c : Command} : c.cw.extractLsb' 0 16 = 0#16 ↔ c.i = 0 ∧ c.j = 0 := by
  have hlow : c.cw.extractLsb' 0 16 = c.i ++ c.j :=
    (BitVec.extractLsb'_append_extractLsb'_eq_extractLsb' (show 8 = 0 + 8 from rfl)).symm
  rw [hlow]
  constructor
  · intro h
    refine ⟨?_, ?_⟩
    · rw [← BitVec.extractLsb'_append_eq_left (a := c.i) (b := c.j), h]; rfl
    · rw [← BitVec.extractLsb'_append_eq_right (a := c.i) (b := c.j), h]; rfl
  · rintro ⟨hi, hj⟩
    rw [hi, hj]; rfl

/-! ### The row of an instruction in the opcode map (R75, R76) -/

/-- The opcode (R76). -/
def Instr.opcode : Instr → BitVec 8
  | .phFreq .. => 0x10
  | .phProc .. => 0x11
  | .cyFreq .. => 0x20
  | .cyProc .. => 0x21
  | .hiProc .. => 0x30
  | .deProc .. => 0x31
  | .opFreq .. => 0x32
  | .opProc .. => 0x33
  | .slRate .. => 0x34
  | .slProc .. => 0x35
  | .dlConfig .. => 0x40
  | .dlWrite .. => 0x41
  | .dlRead .. => 0x42
  | .ksConfig .. => 0x50
  | .ksSet .. => 0x51
  | .ksPluck .. => 0x52
  | .ksProc .. => 0x53
  | .fdnConfig .. => 0x60
  | .fdnSetM .. => 0x61
  | .fdnSetG .. => 0x62
  | .fdnSetD .. => 0x63
  | .fdnProc .. => 0x64

/-- The two index fields: zero where the format marks them "must be 0" (R75). -/
def Instr.indices : Instr → BitVec 8 × BitVec 8
  | .fdnSetM _ i j _ => (i, j)
  | .fdnSetG _ i _ | .fdnSetD _ i _ => (i, 0)
  | _ => (0, 0)

/-- How many operand words the format uses: none in N, `A` and `B` in P and M, `A` in the others (R75). -/
def Instr.operandWords : Instr → Nat
  | .phProc _ | .cyProc _ | .ksProc _ => 0
  | .phFreq .. | .cyFreq .. | .opFreq .. | .slRate .. | .ksConfig .. | .ksSet .. => 2
  | _ => 1

theorem encode_cw (i : Instr) : (encode i).cw = packWord i.opcode i.inst i.indices.1 i.indices.2 := by
  cases i <;> rfl

/-- The fields of a command word that an instruction encodes to. -/
theorem Command.cw_eq_encode_iff {c : Command} {i : Instr} :
    c.cw = (encode i).cw ↔ c.op = i.opcode ∧ c.inst = i.inst ∧ c.i = i.indices.1 ∧ c.j = i.indices.2 := by
  rw [encode_cw, cw_eq_packWord_iff]

/-! ### What decodes -/

/-- The three words of a command with only `n` operand words kept, the others zero as R80 has them. -/
def Command.keepWords (c : Command) (n : Nat) : Command := ⟨c.cw, if 1 ≤ n then c.a else 0, if 2 ≤ n then c.b else 0⟩

/-- The three words carry the instruction: but for the operand words that its format ignores they are the encoded ones. -/
def Command.carries (c : Command) (i : Instr) : Prop := c.keepWords i.operandWords = encode i

theorem Command.carries_encode (i : Instr) : (encode i).carries i := by
  cases i <;> rfl

theorem Command.carries_iff {c : Command} {i : Instr} :
    c.carries i ↔ (c.op = i.opcode ∧ c.inst = i.inst ∧ c.i = i.indices.1 ∧ c.j = i.indices.2) ∧
      (if 1 ≤ i.operandWords then c.a else 0) = (encode i).a ∧ (if 2 ≤ i.operandWords then c.b else 0) = (encode i).b := by
  rw [carries, keepWords, ← cw_eq_encode_iff, Command.mk.injEq]

theorem Command.noIndex_eq_ok_iff {c : Command} {i i' : Instr} :
    c.noIndex i = .ok i' ↔ (c.i = 0 ∧ c.j = 0) ∧ i = i' := by
  unfold noIndex
  split
  next hzero => simp only [Decoded.ok.injEq, hzero, and_self, true_and]
  next hzero => simp only [reduceCtorEq, hzero, false_and]

theorem Command.oneIndex_eq_ok_iff {c : Command} {i i' : Instr} :
    c.oneIndex i = .ok i' ↔ c.j = 0 ∧ i = i' := by
  unfold oneIndex
  split
  next hzero => simp only [Decoded.ok.injEq, hzero, true_and]
  next hzero => simp only [reduceCtorEq, hzero, false_and]

/-- Words that carry an instruction have the opcode of its row and zero where a field is reserved, so they pass the
decode tests. -/
theorem decode_of_carries {c : Command} {i : Instr} (h : c.carries i) : decode c = .ok i := by
  obtain ⟨⟨hop, hinst, hi, hj⟩, ha, hb⟩ := Command.carries_iff.1 h
  cases i <;>
    simp_all [decode, Instr.opcode, Instr.inst, Instr.indices, Instr.operandWords, encode, Command.noIndex_eq_ok_iff,
      Command.oneIndex_eq_ok_iff]

/-- In each row of the opcode map the decoder has found the opcode and the zero fields, and reads the rest. -/
theorem carries_of_decode {c : Command} {i : Instr} (h : decode c = .ok i) : c.carries i := by
  rw [Command.carries_iff]
  unfold decode at h
  split at h
  case h_19 hop =>
    cases h
    exact ⟨⟨BitVec.eq_of_toNat_eq hop, rfl, rfl, rfl⟩, rfl, rfl⟩
  case h_20 hop | h_21 hop =>
    obtain ⟨hj, rfl⟩ := Command.oneIndex_eq_ok_iff.1 h
    exact ⟨⟨BitVec.eq_of_toNat_eq hop, rfl, rfl, hj⟩, rfl, rfl⟩
  case h_23 => cases h
  all_goals
    next hop =>
    obtain ⟨⟨hi, hj⟩, rfl⟩ := Command.noIndex_eq_ok_iff.1 h
    exact ⟨⟨BitVec.eq_of_toNat_eq hop, rfl, hi, hj⟩, rfl, rfl⟩

theorem decode_eq_ok_iff {c : Command} {i : Instr} : decode c = .ok i ↔ c.carries i :=
  ⟨carries_of_decode, decode_of_carries⟩

/-! ### The round trips -/

/-- Settles O1: the encoded words carry their instruction. -/
theorem decodeEncodeRoundTrip : Obligations.DecodeEncodeRoundTrip :=
  fun i => decode_eq_ok_iff.2 (Command.carries_encode i)

/-- Settles O2: the command word is the encoded one when the words carry the instruction. -/
theorem encodeDecodeGivesTheWord : Obligations.EncodeDecodeGivesTheWord :=
  fun _ _ h => (congrArg Command.cw (decode_eq_ok_iff.1 h)).symm

/-- Words that agree in what the format of a command uses decode to it together. -/
theorem decode_congr_keepWords {c c' : Command} {i : Instr} (h : decode c = .ok i)
    (hkeep : c'.keepWords i.operandWords = c.keepWords i.operandWords) : decode c' = .ok i :=
  decode_eq_ok_iff.2 (hkeep.trans (decode_eq_ok_iff.1 h))

/-- Only the opcodes of formats P and M use `B` (R75, R76). -/
theorem operandWords_le_one {i : Instr} (h : i.opcode ∉ [0x10#8, 0x20#8, 0x32#8, 0x34#8, 0x50#8, 0x51#8]) :
    i.operandWords ≤ 1 := by
  revert h
  cases i <;> simp [Instr.opcode, Instr.operandWords]

theorem opcode_of_decode {c : Command} {i : Instr} (h : decode c = .ok i) : c.op = i.opcode := by
  obtain ⟨⟨hop, -⟩, -⟩ := Command.carries_iff.1 (decode_eq_ok_iff.1 h)
  exact hop

/-- Settles O3: a format keeps only the operand words it uses. -/
theorem unusedOperandWordsAreIgnored : Obligations.UnusedOperandWordsAreIgnored := by
  intro c a b
  refine ⟨fun k h => decode_congr_keepWords h rfl, fun k h => decode_congr_keepWords h rfl,
    fun k h => decode_congr_keepWords h rfl, fun i h hformat => decode_congr_keepWords h ?_⟩
  have hwords : i.operandWords ≤ 1 := operandWords_le_one (opcode_of_decode h ▸ hformat)
  simp only [Command.keepWords, show ¬ 2 ≤ i.operandWords by omega, if_false]

/-- Settles O6, by decoding each word. -/
theorem writtenWordsDecode : Obligations.WrittenWordsDecode := by
  unfold Obligations.WrittenWordsDecode
  decide

/-! ### The legal words (R77) -/

/-- The low byte of a command word is its second index field. -/
theorem Command.lowByte (c : Command) : c.cw.extractLsb' 0 8 = c.j := rfl

/-- A word with the fields of an instruction for a unit that exists is legal. -/
theorem legal_of_fields {b : Build} {c : Command} {row column : BitVec 8} (i : Instr) (hop : c.op = i.opcode)
    (hindices : c.i = row ∧ c.j = column) (hcount : i.inst.toNat < i.instances b)
    (hencode : Command.keepWords ⟨packWord i.opcode c.inst row column, c.a, c.b⟩ i.operandWords = encode i) :
    ∃ i, decode c = .ok i ∧ i.wellFormed b = true := by
  have hcw : c.cw = packWord i.opcode c.inst row column := Command.cw_eq_packWord_iff.2 ⟨hop, rfl, hindices⟩
  refine ⟨i, decode_eq_ok_iff.2 ?_, decide_eq_true hcount⟩
  rw [Command.carries, ← hencode, ← hcw]

/-- Settles O5: a legal word has the fields of its instruction, and a word with the fields of a row of the opcode map
carries the instruction of that row. -/
theorem legalWordDecodes : Obligations.LegalWordDecodes := by
  intro b c
  simp only [Command.lowHalf_eq_zero_iff, Command.lowByte]
  constructor
  · rintro ⟨i, hdecode, hlegal⟩
    obtain ⟨⟨hop, hinst, hi, hj⟩, -⟩ := Command.carries_iff.1 (decode_eq_ok_iff.1 hdecode)
    have hcount : c.inst.toNat < i.instances b := hinst ▸ of_decide_eq_true hlegal
    rw [hop, hi, hj]
    cases i <;> simpa [Instr.opcode, Instr.indices, Instr.instances] using hcount
  · simp only [List.mem_cons, List.not_mem_nil, or_false]
    rintro (⟨hop | hop, hk, hz⟩ | ⟨hop | hop, hk, hz⟩ | ⟨hop, hk, hz⟩ | ⟨hop, hk, hz⟩ | ⟨hop | hop, hk, hz⟩ |
      ⟨hop | hop, hk, hz⟩ | ⟨hop | hop | hop, hk, hz⟩ | ⟨hop | hop | hop | hop, hk, hz⟩ | ⟨hop | hop, hk, hz⟩ |
      ⟨hop, hk⟩ | ⟨hop | hop, hk, hj⟩)
    · exact legal_of_fields (.phFreq c.inst c.a c.b) hop hz hk rfl
    · exact legal_of_fields (.phProc c.inst) hop hz hk rfl
    · exact legal_of_fields (.cyFreq c.inst c.a c.b) hop hz hk rfl
    · exact legal_of_fields (.cyProc c.inst) hop hz hk rfl
    · exact legal_of_fields (.hiProc c.inst c.a) hop hz hk rfl
    · exact legal_of_fields (.deProc c.inst c.a) hop hz hk rfl
    · exact legal_of_fields (.opFreq c.inst c.a c.b) hop hz hk rfl
    · exact legal_of_fields (.opProc c.inst c.a) hop hz hk rfl
    · exact legal_of_fields (.slRate c.inst c.a c.b) hop hz hk rfl
    · exact legal_of_fields (.slProc c.inst c.a) hop hz hk rfl
    · exact legal_of_fields (.dlConfig c.inst c.a) hop hz hk rfl
    · exact legal_of_fields (.dlWrite c.inst c.a) hop hz hk rfl
    · exact legal_of_fields (.dlRead c.inst c.a) hop hz hk rfl
    · exact legal_of_fields (.ksConfig c.inst c.a c.b) hop hz hk rfl
    · exact legal_of_fields (.ksSet c.inst c.a c.b) hop hz hk rfl
    · exact legal_of_fields (.ksPluck c.inst c.a) hop hz hk rfl
    · exact legal_of_fields (.ksProc c.inst) hop hz hk rfl
    · exact legal_of_fields (.fdnConfig c.inst c.a) hop hz hk rfl
    · exact legal_of_fields (.fdnProc c.inst c.a) hop hz hk rfl
    · exact legal_of_fields (.fdnSetM c.inst c.i c.j c.a) hop ⟨rfl, rfl⟩ hk rfl
    · exact legal_of_fields (.fdnSetG c.inst c.i c.a) hop ⟨rfl, hj⟩ hk rfl
    · exact legal_of_fields (.fdnSetD c.inst c.i c.a) hop ⟨rfl, hj⟩ hk rfl

end Sys2Proof
end

section
/-! Executing a command, legal or not (spec/30_encoding.md R70, R77; spec/60_exceptions.md R180, R181): the next state
there always is, the one response, and the answer to a word that fails a decode test. -/

namespace Sys2Proof.Machine

/-! ### The decode tests -/

/-- The build counts the units of the type a command addresses (R77 test 3). -/
theorem instances_build (i : Instr) (s : State) : i.instances s.build = ((unitOf i).units s).length := by
  cases i <;> rfl

/-- The third decode test (R77). -/
theorem exec_missing {i : Instr} {s : State} (h : i.wellFormed s.build = false) : exec i s = s.cfgError .errOp := by
  have hmissing : ((unitOf i).units s)[i.inst.toNat]? = none := by
    rw [List.getElem?_eq_none_iff, ← instances_build]
    exact Nat.not_lt.1 (of_decide_eq_false h)
  rw [exec_eq_perform, perform, hmissing]

/-- Settles O14: there is no unit to carry the local rule out at. -/
theorem missingInstanceAnswersErrOp : Obligations.MissingInstanceAnswersErrOp :=
  fun _ _ h => exec_missing h

/-- Settles O4: a word that fails one of the tests but decodes is for a unit that does not exist. -/
theorem illegalWordAnswersErrOp : Obligations.IllegalWordAnswersErrOp := by
  intro s c rest hflight hnext hfails
  have hpoll := State.poll_executes hnext hflight
  suffices hanswer : step s = State.cfgError { s with inputs := rest } .errOp from hanswer
  cases hdecode : decode c with
  | illegal err => rw [step, State.advance_illegal hpoll hdecode]
  | ok i =>
    have hillegal : i.wellFormed s.build = false := by
      simp only [Command.lowHalf_eq_zero_iff, Command.lowByte, ne_eq] at hfails
      obtain ⟨⟨hop, hinst, hi, hj⟩, -⟩ := Command.carries_iff.1 (decode_eq_ok_iff.1 hdecode)
      rw [hop, hi, hj, hinst] at hfails
      apply decide_eq_false
      rw [Nat.not_lt]
      cases i <;> simpa [Instr.opcode, Instr.indices, Instr.instances, State.build] using hfails
    rw [step, State.advance_run hpoll hdecode, exec_missing (s := { s with inputs := rest }) hillegal]

/-! ### The response -/

/-- Settles O10: a step is settled by the ports, or carries out a local rule, or answers `ERR_OP`. -/
theorem everyStepAnswersANextState : Obligations.EveryStepAnswersANextState := step_next

theorem Reply.done_ne_wait {U : Type} {x : U} {r : F} {noise : List F} : Reply.done x r noise ≠ .wait := nofun

/-- A check refuses: it does not make a rule wait. -/
theorem Reply.check_ne_wait {U : Type} {c : Prop} [Decidable c] {st : Status} {reply : Reply U} (h : reply ≠ .wait) :
    (if c then .refuse st else reply) ≠ .wait := by
  split
  · nofun
  · exact h

/-- A check of an index refuses. -/
theorem Reply.check_index_ne_wait {U : Type} {c : Prop} [Decidable c] {st : Status} {reply : c → Reply U}
    (h : ∀ hc, reply hc ≠ .wait) : (if hc : c then reply hc else .refuse st) ≠ .wait := by
  split
  · exact h _
  · nofun

theorem UnitKind.responses_set (u : UnitKind) (s : State) (k : Nat) (x : u.Elem) :
    (u.set s k x).responses = s.responses := by
  cases u <;> rfl

theorem UnitKind.inputs_set (u : UnitKind) (s : State) (k : Nat) (x : u.Elem) :
    (u.set s k x).inputs = s.inputs := by
  cases u <;> rfl

/-- A local rule that waits changes nothing. -/
theorem perform_waits {u : UnitKind} {k : Nat} {rule : Shared → u.Elem → Reply u.Elem} {s : State} {x : u.Elem}
    (hx : (u.units s)[k]? = some x) (h : rule s.shared x = .wait) : perform u k rule s = .next s := by
  simp only [perform, hx, h, Reply.result]

/-- A local rule that does not wait gives one response, and frees the command port. -/
theorem perform_responds {u : UnitKind} {k : Nat} {rule : Shared → u.Elem → Reply u.Elem} {s : State}
    (h : ∀ x, (u.units s)[k]? = some x → rule s.shared x ≠ .wait) :
    ∃ (t : State) (r : Response), perform u k rule s = .next t ∧ t.responses = s.responses ++ [r] ∧
      t.inflight = none ∧ t.inputs = s.inputs := by
  rw [perform]
  cases hx : (u.units s)[k]? with
  | none => exact ⟨_, _, rfl, rfl, rfl, rfl⟩
  | some x =>
    dsimp only
    cases hr : rule s.shared x with
    | wait => exact absurd hr (h x hx)
    | refuse st => exact ⟨_, _, rfl, rfl, rfl, rfl⟩
    | done x' r noise =>
      exact ⟨_, ⟨r, .ok⟩, rfl, congrArg (· ++ _) (u.responses_set s k x'), rfl, u.inputs_set s k x'⟩

/-- The rule of a pluck waits exactly as long as it lacks noise words (R206). -/
theorem ksPluckRule_eq_wait {e : Shared} {g : F} {v : Voice} :
    ksPluckRule e g v = .wait ↔ e.noise.length < fillLength (e.draw.sub 0) v := by
  simp [ksPluckRule]

/-- Only a pluck waits: every other rule checks and is done. -/
theorem eq_ksPluck_of_localRule_wait {exp : Draw → F → F} {pow : F → F → F} {rom : Nat → F} {i : Instr} {e : Shared}
    {x : (unitOf i).Elem} (h : localRule exp pow rom i e x = .wait) : ∃ k g, i = .ksPluck k g := by
  cases i with
  | ksPluck k g => exact ⟨k, g, rfl⟩
  | phProc | cyProc | hiProc | deProc | opProc | slProc | dlWrite | dlRead | ksProc | fdnProc =>
    exact absurd h Reply.done_ne_wait
  | dlConfig => exact absurd h (Reply.check_ne_wait Reply.done_ne_wait)
  | phFreq | cyFreq | opFreq | slRate | ksConfig | fdnConfig =>
    exact absurd h (Reply.check_ne_wait (Reply.check_ne_wait Reply.done_ne_wait))
  | ksSet =>
    exact absurd h (Reply.check_ne_wait (Reply.check_ne_wait
      (Reply.check_ne_wait (Reply.check_ne_wait Reply.done_ne_wait))))
  | fdnSetM | fdnSetG | fdnSetD =>
    exact absurd h (Reply.check_index_ne_wait fun _ => Reply.check_ne_wait Reply.done_ne_wait)

/-- A command that does not await noise gets a reply. -/
theorem localRule_answers {i : Instr} {s : State} (h : ¬ awaitsNoise i s) (x : (unitOf i).Elem)
    (hx : ((unitOf i).units s)[i.inst.toNat]? = some x) : localRule fexp fpow romRead i s.shared x ≠ .wait := by
  intro hwait
  obtain ⟨k, g, rfl⟩ := eq_ksPluck_of_localRule_wait hwait
  obtain ⟨hk, rfl⟩ := List.getElem?_eq_some_iff.1 hx
  exact h ⟨k, g, hk, rfl, ksPluckRule_eq_wait.1 hwait⟩

/-- Settles O11: of all the local rules only that of a pluck short of noise words waits. -/
theorem oneResponsePerCommand : Obligations.OneResponsePerCommand := by
  intro i s
  rw [exec_eq_perform]
  constructor
  · rintro ⟨k, g, hk, rfl, hshort⟩
    exact perform_waits (List.getElem?_eq_getElem hk) (ksPluckRule_eq_wait.2 hshort)
  · exact fun h => perform_responds (localRule_answers h)

end Sys2Proof.Machine
end

section
/-! The samples of the phasor and the oscillator (spec/41_phasor.md R101, R102; spec/42_wavetable.md R111): a phase below
`ONE`, and an interpolation between table entries, which its weights keep finite. -/

namespace Sys2Proof.Machine

/-! ### `PH.PROC` (R101, R102) -/

theorem exec_phProc (s : State) {k : BitVec 8} (h : k.toNat < s.ph.length) :
    exec (.phProc k) s = .next ({ s with
      ph := s.ph.set k.toNat ⟨s.ph[k.toNat].increment, phaseAdvance s.draw s.ph[k.toNat]⟩ }.respond
        s.ph[k.toNat].value .ok) := by
  change execPhProc k s = _
  exact s.onInstance_legal h _

/-- Settles O18: the phase that is stored is `phaseAdvance`, written out. -/
theorem phProcFollowsItsRule : Obligations.PhProcFollowsItsRule := by
  rintro s k h v rfl
  exact exec_phProc s h

/-- A command keeps the phases in range (R102). -/
theorem exec_phasesInRange {i : Instr} {s t : State} (hs : s.phasesInRange) (hexec : exec i s = .next t) :
    t.phasesInRange := by
  rw [State.phasesInRange_iff] at *
  rw [← execWith_default] at hexec
  exact (execWith_every (phaseOk_kept _ _ _ _) hs hexec).1

/-- Settles O23: the sample is the phase held before the advance. -/
theorem phaseSamplesLieBelowOne : Obligations.PhaseSamplesLieBelowOne := by
  intro s k h hs
  have hexec := exec_phProc s h
  obtain ⟨-, -, hvalue0, hvalue1⟩ := hs.1 _ (List.getElem_mem h)
  exact ⟨_, _, hexec, rfl, hvalue0, hvalue1, exec_phasesInRange hs hexec⟩

/-! ### Values of magnitude at most `ONE` (R11, R14) -/

theorem magUnits_fOne : magUnits (fMag fOne) = 2 ^ 149 := by decide

theorem finite_of_fMag_le_one {x : F} (h : fMag x ≤ fMag fOne) : fIsFinite x = true :=
  (fIsFinite_iff x).2 (h.trans_lt (by decide))

theorem natAbs_fUnits_le_one {x : F} (h : fMag x ≤ fMag fOne) : (fUnits x).natAbs ≤ 2 ^ 149 := by
  rw [fUnits_natAbs, ← magUnits_fOne]
  exact magUnits_le_iff.2 h

theorem fMag_le_one_of_mem_unit {x : F} (h0 : fLe fZero x = true) (h1 : fLe x fOne = true) : fMag x ≤ fMag fOne := by
  simp only [fLe, Bool.and_eq_true, decide_eq_true_eq, fKey_of_nonneg h0] at h1
  have hone : fKey fOne = fMag fOne := by decide
  omega

/-- The product of two values of magnitude at most `ONE` is such a value: rounding keeps the bound. -/
theorem fMag_fMul_le_one (q : Draw) {a b : F} (ha : fMag a ≤ fMag fOne) (hb : fMag b ≤ fMag fOne) :
    fMag (fMul q a b) ≤ fMag fOne := by
  rw [fMul_finite q (finite_of_fMag_le_one ha) (finite_of_fMag_le_one hb), fMag_pack_roundMag]
  refine roundMag_le (by decide) fMag_fOne_le (Nat.mul_le_mul (magUnits_le_iff.2 ha) ?_)
  exact magUnits_fOne ▸ magUnits_le_iff.2 hb

/-- The sum of two values of magnitude at most `ONE` is finite: its magnitude is at most 2 before and after rounding. -/
theorem finite_fAdd_of_le_one (q : Draw) {a b : F} (ha : fMag a ≤ fMag fOne) (hb : fMag b ≤ fMag fOne) :
    fIsFinite (fAdd q a b) = true := by
  rw [fAdd_finite q (finite_of_fMag_le_one ha) (finite_of_fMag_le_one hb)]
  split
  · cases fSign a && fSign b <;> decide
  · have hua := natAbs_fUnits_le_one ha
    have hub := natAbs_fUnits_le_one hb
    have htwo : magUnits (fMag 0x40000000#32) = 2 * 2 ^ 149 := by decide
    have hround : roundMag (fUnits a + fUnits b).natAbs 1 ≤ fMag 0x40000000#32 :=
      roundMag_le Nat.one_pos (by decide) (by rw [htwo]; omega)
    rw [fIsFinite_iff, fOfUnits, fMag_pack_roundMag]
    exact hround.trans_lt (by decide)

/-- The weight of the first tap lies in `[+0, ONE]` as that of the second does. -/
theorem fMag_one_sub_le_one (q : Draw) {t : F} (h0 : fLe fZero t = true) (h1 : fLe t fOne = true) :
    fMag (fSub q fOne t) ≤ fMag fOne := by
  have hfin := finite_of_fLe h0 (by decide) h1
  have hnan := not_nan_of_finite hfin
  rw [fLe_iff_units (by decide) hnan, fUnits_fZero] at h0
  rw [fLe_iff_units hnan (by decide), fUnits_fOne] at h1
  have hneg : fIsFinite (fNeg t) = true := (fIsFinite_neg t).trans hfin
  exact fMag_le_one_of_mem_unit
    (le_fAdd q (by decide) hneg (by decide) (by rw [fUnits_neg, fUnits_fOne, fUnits_fZero]; omega))
    (fAdd_le q (by decide) hneg (by decide) (by rw [fUnits_neg, fUnits_fOne]; omega))

/-- The interpolation between values of magnitude at most `ONE` at a fraction in `[+0, ONE]` is finite. -/
theorem finite_lerp (q : Draw) {a b t : F} (ha : fMag a ≤ fMag fOne) (hb : fMag b ≤ fMag fOne)
    (h0 : fLe fZero t = true) (h1 : fLe t fOne = true) : fIsFinite (lerp q a b t) = true :=
  finite_fAdd_of_le_one _ (fMag_fMul_le_one _ (fMag_one_sub_le_one _ h0 h1) ha)
    (fMag_fMul_le_one _ (fMag_le_one_of_mem_unit h0 h1) hb)

/-! ### `CY.PROC` (R111) -/

/-- The fraction of an index lies in `[+0, ONE)`, whatever either operation would draw. -/
theorem fraction_mem (q q' : Draw) {x : F} (hx : fIsFinite x = true) (h0 : fLe fZero x = true) :
    fLe fZero (fSub q x (floorF q' x)) = true ∧ fLt (fSub q x (floorF q' x)) fOne = true := by
  obtain ⟨-, -, hfrac0, hfrac1⟩ := lookupFractionIsExact q' x hx h0
  have hdraw : fSub q x (floorF q' x) = fSub q' x (floorF q' x) := fAdd_draw q' q (not_nan_of_fLe hfrac0).2
  rw [hdraw]
  exact ⟨hfrac0, hfrac1⟩

/-- The lookup of the sine at a phase is finite. -/
theorem finite_tblPhasor (q : Draw) {t : F} (h0 : fLe fZero t = true) (h1 : fLt t fOne = true) :
    fIsFinite (tblPhasor romRead q t) = true := by
  obtain ⟨hx0, hx1⟩ := tablePosition_mem (q.sub 0) h0 h1
  have hfin := finite_of_fLe hx0 (by decide) hx1
  obtain ⟨hfrac0, hfrac1⟩ := fraction_mem ((q.sub 1).sub 1) ((q.sub 1).sub 0) hfin hx0
  rw [tblPhasor, lookup_finite _ _ _ hfin]
  exact finite_lerp _ (fMag_romRead_le _) (fMag_romRead_le _) hfrac0 (fLe_of_fLt hfrac1)

/-- Settles O24: the sample is the lookup at the phase held before the advance. -/
theorem oscillatorSamplesAreFinite : Obligations.OscillatorSamplesAreFinite := by
  intro s k h hs
  obtain ⟨-, -, hvalue0, hvalue1⟩ := hs.2 _ (List.getElem_mem h)
  exact ⟨_, _, exec_cyProc s h, rfl, finite_tblPhasor _ hvalue0 hvalue1⟩

end Sys2Proof.Machine
end

section
/-! The filter stages (spec/43_filter_stages.md R120, R121, R123 to R125): what each command answers and stores, and the
range that every step keeps the slew limits in. -/

namespace Sys2Proof.Machine

/-! ### The slew limits of R124 as an invariant -/

/-- Settles O33: the limits are a property of the units that the reset values have and the local rules keep. -/
theorem stepKeepsLimitsInRange : Obligations.StepKeepsLimitsInRange :=
  fun _ _ => step_limitsInRange

/-! ### `HI.PROC`, `DE.PROC` and `OP.PROC` (R120, R121, R123) -/

/-- Settles O26: on an instance that exists the command is its rule. -/
theorem hiProcFollowsItsRule : Obligations.HiProcFollowsItsRule := by
  intro s k x h
  change execHiProc k x s = _
  exact s.onInstance_legal h _

/-- Settles O27, in the same way. -/
theorem deProcFollowsItsRule : Obligations.DeProcFollowsItsRule := by
  intro s k x h
  change execDeProc k x s = _
  exact s.onInstance_legal h _

/-- Settles O30: the output that is answered and stored is `onePoleOutput`, written out. -/
theorem opProcFollowsItsRule : Obligations.OpProcFollowsItsRule := by
  rintro s k x _ h rfl
  change execOpProc k x s = _
  exact s.onInstance_legal h _

/-! ### `SL.RATE` (R124) -/

theorem exec_slRate (s : State) {k : BitVec 8} (a b : F) (h : k.toNat < s.sl.length) :
    exec (.slRate k a b) s =
      if !rateAccepted b then s.cfgError .errRate
      else if !slewAccepted a then s.cfgError .errParam
      else .next ({ s with
        sl := s.sl.set k.toNat ⟨fDiv s.draw a b, s.sl[k.toNat].value⟩ }.respond fZero .ok) := by
  change execSlRate k a b s = _
  exact s.onInstance_legal h _

/-- Settles O31: each of the two checks that passes leaves the next. -/
theorem slRateFollowsItsRule : Obligations.SlRateFollowsItsRule := by
  intro s k a b h
  have hinf : fPosInf = 0x7F800000#32 := by decide
  rw [exec_slRate s a b h, rateAccepted, slewAccepted, hinf]
  refine ⟨fun hrate => ?_, fun hrate hslew => ?_, fun hrate hlow hhigh => ?_⟩
  · rw [hrate]; rfl
  · rw [hrate, hslew]; rfl
  · rw [hrate, hlow, hhigh]; rfl

/-! ### `SL.PROC` (R125) -/

theorem exec_slProc (s : State) {k : BitVec 8} (x : F) (h : k.toNat < s.sl.length) :
    exec (.slProc k x) s = .next ({ s with
      sl := s.sl.set k.toNat ⟨s.sl[k.toNat].limit, slewStep s.draw s.sl[k.toNat] x⟩ }.respond
        s.sl[k.toNat].value .ok) := by
  change execSlProc k x s = _
  exact s.onInstance_legal h _

/-- The input is further above the held value than the limit. -/
theorem slewStep_above {q : Draw} {p : Slew} {x : F} (habove : fGt (fSub (q.sub 0) x p.value) p.limit = true) :
    slewStep q p x = fAdd (q.sub 1) p.value p.limit := by
  rw [slewStep, if_pos habove]

/-- The input is further below the held value than the limit. -/
theorem slewStep_below {q : Draw} {p : Slew} {x : F} (habove : fGt (fSub (q.sub 0) x p.value) p.limit = false)
    (hbelow : fLt (fSub (q.sub 0) x p.value) (fNeg p.limit) = true) :
    slewStep q p x = fSub (q.sub 2) p.value p.limit := by
  rw [slewStep, if_neg (Bool.eq_false_iff.1 habove), if_pos hbelow]

/-- The input is within reach, or the difference or the limit is a NaN. -/
theorem slewStep_within {q : Draw} {p : Slew} {x : F} (habove : fGt (fSub (q.sub 0) x p.value) p.limit = false)
    (hbelow : fLt (fSub (q.sub 0) x p.value) (fNeg p.limit) = false) : slewStep q p x = x := by
  rw [slewStep, if_neg (Bool.eq_false_iff.1 habove), if_neg (Bool.eq_false_iff.1 hbelow)]

/-- Settles O32, by the three ways the held value can move. -/
theorem slProcFollowsItsRule : Obligations.SlProcFollowsItsRule := by
  rintro s k x _ _ h rfl (⟨habove, rfl⟩ | ⟨habove, hbelow, rfl⟩ | ⟨habove, hbelow, rfl⟩)
  · rw [exec_slProc s x h, slewStep_above habove]
  · rw [exec_slProc s x h, slewStep_below habove hbelow]
  · rw [exec_slProc s _ h, slewStep_within habove hbelow]

end Sys2Proof.Machine
end

section
/-! Integers held exactly as `F` values (spec/00_scope.md R12): what the index arithmetic of a delay line is made of. -/

namespace Sys2Proof.Machine

/-- `x` is finite and has the integer value `z`. -/
def isInt (x : F) (z : Int) : Prop := fIsFinite x = true ∧ fUnits x = z * 2 ^ 149

/-- The units of a value that is not zero pack to that value. -/
theorem fOfUnits_fUnits {x : F} (hnan : fIsNaN x = false) (h0 : fUnits x ≠ 0) : fOfUnits (fUnits x) = x := by
  have hround := roundMag_exact Nat.one_pos ((fIsNaN_false_iff x).1 hnan)
  rw [Nat.mul_one] at hround
  have hsign : decide (fUnits x < 0) = fSign x := by
    cases hs : fSign x with
    | true =>
      have hneg : fUnits x = -(magUnits (fMag x) : Int) := if_pos hs
      exact decide_eq_true (by omega)
    | false =>
      have hpos : fUnits x = (magUnits (fMag x) : Int) := if_neg (Bool.eq_false_iff.1 hs)
      exact decide_eq_false (by omega)
  rw [fOfUnits, hsign, fUnits_natAbs, hround, fPack_fields]

/-- The integers up to `2 ^ 24` in magnitude are values of `F`. -/
theorem exists_isInt {z : Int} (h : z.natAbs ≤ 2 ^ 24) : ∃ x, isInt x z := by
  have hmag : ∃ m < infMag, magUnits m = z.natAbs * 2 ^ 149 := by
    obtain hlt | htop := h.lt_or_eq
    · exact exists_magUnits hlt (by decide)
    · obtain ⟨m, hm, hunits⟩ := exists_magUnits (k := 2 ^ 23) (e := 150) (by decide) (by decide)
      exact ⟨m, hm, by rw [hunits, htop]; rfl⟩
  obtain ⟨m, hm, hunits⟩ := hmag
  have hlt := hm.trans infMag_lt
  refine ⟨fPack (decide (z < 0)) m, by rwa [fIsFinite_iff, fMag_pack _ hlt], ?_⟩
  rw [fUnits_pack _ hlt, hunits]
  split
  next hneg => have := of_decide_eq_true hneg; omega
  next hpos => have := of_decide_eq_false (Bool.eq_false_iff.2 hpos); omega

theorem isInt_fPack_zero (neg : Bool) : isInt (fPack neg 0) 0 := by
  cases neg <;> exact ⟨by decide, by decide⟩

/-- The conversion of a count up to `2 ^ 24` is exact. -/
theorem isInt_toF {n : Nat} (h : n ≤ 2 ^ 24) : isInt (toF n) n := by
  obtain ⟨c, hfin, hunits⟩ := exists_isInt (z := n) (by omega)
  unfold toF fOfInt
  split
  next hn => rw [hn]; exact isInt_fPack_zero false
  next hn =>
    rw [← hunits, fOfUnits_fUnits (not_nan_of_finite hfin) (by omega)]
    exact ⟨hfin, hunits⟩

theorem isInt_fNeg {x : F} {z : Int} (h : isInt x z) : isInt (fNeg x) (-z) := by
  obtain ⟨hfin, hunits⟩ := h
  exact ⟨by rwa [fIsFinite_neg], by rw [fUnits_neg, hunits, Int.neg_mul]⟩

/-- A sum of integers is exact when it is at most `2 ^ 24` in magnitude. -/
theorem isInt_fAdd (q : Draw) {a b : F} {z w : Int} (ha : isInt a z) (hb : isInt b w) (h : (z + w).natAbs ≤ 2 ^ 24) :
    isInt (fAdd q a b) (z + w) := by
  obtain ⟨hafin, haunits⟩ := ha
  obtain ⟨hbfin, hbunits⟩ := hb
  obtain ⟨c, hfin, hunits⟩ := exists_isInt h
  have hsum : fUnits a + fUnits b = fUnits c := by rw [haunits, hbunits, hunits, Int.add_mul]
  rw [fAdd_finite q hafin hbfin, hsum]
  split
  next hzero =>
    have : z + w = 0 := by omega
    rw [this]; exact isInt_fPack_zero _
  next hne =>
    rw [fOfUnits_fUnits (not_nan_of_finite hfin) hne]
    exact ⟨hfin, hunits⟩

/-- The same for a difference. -/
theorem isInt_fSub (q : Draw) {a b : F} {z w : Int} (ha : isInt a z) (hb : isInt b w) (h : (z - w).natAbs ≤ 2 ^ 24) :
    isInt (fSub q a b) (z - w) :=
  isInt_fAdd q ha (isInt_fNeg hb) h

theorem fLt_fZero_iff_of_isInt {x : F} {z : Int} (h : isInt x z) : fLt x fZero = true ↔ z < 0 := by
  obtain ⟨hfin, hunits⟩ := h
  rw [fLt_iff_units (not_nan_of_finite hfin) (by decide), hunits, fUnits_fZero]
  omega

theorem floorZ_of_isInt {x : F} {z : Int} (h : isInt x z) : floorZ x = z := by
  rw [floorZ, h.2, Int.mul_ediv_cancel _ (by decide)]

/-- An integer is its own integer part, bit for bit. -/
theorem floorF_of_isInt (q : Draw) {x : F} {z : Int} (h : isInt x z) : floorF q x = x := by
  have hnan := not_nan_of_finite h.1
  by_cases hzero : fIsZero x = true
  · simp [floorF, hnan, hzero]
  · have hne : fUnits x ≠ 0 := mt (fUnits_eq_zero x).1 hzero
    have hz : z ≠ 0 := by rintro rfl; exact hne h.2
    simp only [floorF, hnan, hzero, not_inf_of_finite h.1, floorZ_of_isInt h, fOfInt, hz, ← h.2, Bool.or_self,
      Bool.false_eq_true, if_false]
    exact fOfUnits_fUnits hnan hne

/-- A finite value less itself is `+0`. -/
theorem fSub_self (q : Draw) {x : F} (h : fIsFinite x = true) : fSub q x x = fZero := by
  rw [fSub, fAdd_finite q h (by rwa [fIsFinite_neg]), fUnits_neg, if_pos (Int.add_right_neg _), fSign_neg,
    Bool.and_not_self]
  rfl

/-- The lookup at an integer index has the fraction `+0`. -/
theorem lookup_of_isInt (q : Draw) (read : Nat → F) (len : Nat) {x : F} {z : Int} (h : isInt x z) :
    lookup q read len x = lerp (q.sub 2) (read (z % (len : Int)).toNat) (read ((z + 1) % (len : Int)).toNat) fZero := by
  rw [lookup_finite q read len h.1, floorF_of_isInt _ h, fSub_self _ h.1, floorZ_of_isInt h]

/-- A product of `ONE` and an infinity is that infinity. -/
theorem fMul_fOne_of_inf (q : Draw) {a : F} (h : fIsInf a = true) : fMul q fOne a = a := by
  have hmag : fMag a = infMag := by simpa [fIsInf] using h
  have hnan : fIsNaN a = false := (fIsNaN_false_iff a).2 hmag.le
  have hzero : fIsZero a = false := by simp [fIsZero, hmag, infMag]
  have hone : fIsNaN fOne = false ∧ fIsInf fOne = false ∧ fIsZero fOne = false ∧ fSign fOne = false := by decide
  simp only [fMul, hone, hnan, hzero, h, Bool.or_self, Bool.and_self, Bool.false_eq_true, Bool.or_true, if_true,
    if_false, Bool.false_and, Bool.false_bne]
  rw [← hmag, fPack_fields]

/-- An infinity plus a finite value is that infinity. -/
theorem fAdd_inf_left (q : Draw) {a b : F} (ha : fIsInf a = true) (hb : fIsFinite b = true) : fAdd q a b = a := by
  have hmag : fMag a = infMag := by simpa [fIsInf] using ha
  have hnan : fIsNaN a = false := (fIsNaN_false_iff a).2 hmag.le
  simp [fAdd, hnan, ha, not_nan_of_finite hb, not_inf_of_finite hb]

theorem fEq_self {a : F} (h : fIsNaN a = false) : fEq a a = true := (fEq_iff_units h h).2 rfl

/-- The interpolation at `+0` gives its first end in value, an infinity too, when the second is finite (R144). -/
theorem lerp_fZero_fEq (q : Draw) {a b : F} (ha : fIsNaN a = false) (hb : fIsFinite b = true) :
    fEq (lerp q a b fZero) a = true := by
  by_cases hfin : fIsFinite a = true
  · exact (lerpGivesItsEnds q a b hfin hb).1
  · have hinf : fIsInf a = true := by
      rw [fIsFinite_iff] at hfin
      rw [fIsNaN_false_iff] at ha
      simp only [fIsInf, decide_eq_true_eq]; omega
    have hweight : fSub (q.sub 0) fOne fZero = fOne := rfl
    rw [lerp, hweight, fMul_fOne_of_inf _ hinf, fAdd_inf_left _ hinf (fMul_fZero _ hb).1]
    exact fEq_self ha

end Sys2Proof.Machine
end

section
/-! The delay line (spec/44_delay_line.md R140 to R144): its commands, and the exact round trip. -/

namespace Sys2Proof.Machine

/-! ### `DL.CONFIG` (R140) -/

theorem ramRead_lineClear (c a : Nat) : ramRead (lineClear c) a = fZero := rfl

theorem exec_dlConfig (s : State) {k : BitVec 8} (c : Word) (h : k.toNat < s.dl.length) :
    exec (.dlConfig k c) s =
      if !capacityAccepted s.capMax c.toNat then s.cfgError .errCap
      else .next ({ s with dl := s.dl.set k.toNat (lineClear c.toNat) }.respond fZero .ok) := by
  change execDlConfig k c s = _
  exact s.onInstance_legal h _

/-- Settles O34: the acceptance predicate is the range of the statement, and the stored line is the cleared one. -/
theorem dlConfigFollowsItsRule : Obligations.DlConfigFollowsItsRule := by
  intro s k c h
  rw [exec_dlConfig s c h, capacityAccepted]
  refine ⟨fun hrange => ?_, fun hmin hmax => ⟨lineClear c.toNat, rfl, rfl, ramRead_lineClear _, ?_⟩⟩
  · rw [decide_eq_false hrange]; rfl
  · rw [decide_eq_true ⟨hmin, hmax⟩]; rfl

/-! ### `DL.WRITE` (R141) -/

theorem ramRead_lineWrite_same {l : DelayLine} (h : Memory.wf l.buf = true) (v : F) :
    ramRead (lineWrite l v) l.index = v :=
  Memory.read_write_same h l.index v

theorem ramRead_lineWrite_other (l : DelayLine) (v : F) {a : Nat} (h : a ≠ l.index) :
    ramRead (lineWrite l v) a = ramRead l a :=
  Memory.read_write_other h v

theorem exec_dlWrite (s : State) {k : BitVec 8} (v : F) (h : k.toNat < s.dl.length) :
    exec (.dlWrite k v) s =
      .next ({ s with dl := s.dl.set k.toNat (lineWrite s.dl[k.toNat] v) }.respond fZero .ok) := by
  change execDlWrite k v s = _
  exact s.onInstance_legal h _

/-- Settles O35, by read after write; a write keeps the canonical form. -/
theorem dlWriteStoresAtTheCursor : Obligations.DlWriteStoresAtTheCursor := by
  intro s k v h hwf
  exact ⟨lineWrite s.dl[k.toNat] v, exec_dlWrite s v h, rfl, rfl, ramRead_lineWrite_same hwf v,
    fun _ => ramRead_lineWrite_other _ v, Memory.wf_write hwf _ v⟩

/-! ### A run of writes (R141) -/

@[simp] theorem foldl_lineWrite_capacity (ws : List F) (l : DelayLine) :
    (ws.foldl lineWrite l).capacity = l.capacity := by
  induction ws generalizing l with
  | nil => rfl
  | cons w ws ih => rw [List.foldl_cons, ih, lineWrite_capacity]

/-- Each write moves the cursor on by one, modulo the capacity. -/
theorem foldl_lineWrite_index (ws : List F) {l : DelayLine} (h : l.index < l.capacity) :
    (ws.foldl lineWrite l).index = (l.index + ws.length) % l.capacity := by
  induction ws generalizing l with
  | nil => exact (Nat.mod_eq_of_lt h).symm
  | cons w ws ih =>
    have hnext : (lineWrite l w).index < (lineWrite l w).capacity := Nat.mod_lt _ (by omega)
    rw [List.foldl_cons, ih hnext, lineWrite_index, lineWrite_capacity, Nat.mod_add_mod, List.length_cons,
      Nat.add_assoc, Nat.add_comm 1]

/-- A run of writes leaves a word that the cursor does not come to. -/
theorem ramRead_foldl_lineWrite_other {ws : List F} {l : DelayLine} {a : Nat} (hindex : l.index < l.capacity)
    (h : ∀ j < ws.length, (l.index + j) % l.capacity ≠ a) : ramRead (ws.foldl lineWrite l) a = ramRead l a := by
  induction ws generalizing l with
  | nil => rfl
  | cons w ws ih =>
    have hhere : a ≠ l.index := by
      have := h 0 (Nat.succ_pos _)
      rwa [Nat.add_zero, Nat.mod_eq_of_lt hindex, ne_comm] at this
    have hlater : ∀ j < ws.length, ((lineWrite l w).index + j) % (lineWrite l w).capacity ≠ a := by
      intro j hj
      rw [lineWrite_index, lineWrite_capacity, Nat.mod_add_mod, Nat.add_assoc, Nat.add_comm 1]
      exact h (j + 1) (Nat.succ_lt_succ hj)
    rw [List.foldl_cons, ih (Nat.mod_lt _ (by omega)) hlater, ramRead_lineWrite_other l w hhere]

/-- A finite write leaves a finite word finite. -/
theorem finite_ramRead_lineWrite {l : DelayLine} {a : Nat} (hwf : Memory.wf l.buf = true)
    (h : fIsFinite (ramRead l a) = true) {w : F} (hw : fIsFinite w = true) :
    fIsFinite (ramRead (lineWrite l w) a) = true := by
  by_cases ha : a = l.index
  · rw [ha, ramRead_lineWrite_same hwf]; exact hw
  · rw [ramRead_lineWrite_other l w ha]; exact h

/-- So does a run of finite writes. -/
theorem finite_ramRead_foldl_lineWrite {ws : List F} {l : DelayLine} {a : Nat} (hwf : Memory.wf l.buf = true)
    (h : fIsFinite (ramRead l a) = true) (hws : ∀ w ∈ ws, fIsFinite w = true) :
    fIsFinite (ramRead (ws.foldl lineWrite l) a) = true := by
  induction ws generalizing l with
  | nil => exact h
  | cons w ws ih =>
    obtain ⟨hw, hws⟩ := List.forall_mem_cons.1 hws
    exact ih (Memory.wf_write hwf _ w) (finite_ramRead_lineWrite hwf h hw) hws

/-! ### The read index at an integer delay (R142) -/

/-- At an integer delay up to the capacity the index arithmetic is exact: the cursor less the delay, with the capacity
added where that is negative. -/
theorem readIndex_isInt (q : Draw) {line : DelayLine} {d : Nat} (hindex : line.index < line.capacity)
    (hcap : line.capacity ≤ 2 ^ 24) (hd : d ≤ line.capacity) :
    isInt (readIndex q line (toF d))
      (if line.index < d then (line.index : Int) - d + line.capacity else (line.index : Int) - d) := by
  have hdiff : isInt (fSub (q.sub 0) (toF line.index) (toF d)) ((line.index : Int) - d) :=
    isInt_fSub _ (isInt_toF (by omega)) (isInt_toF (by omega)) (by omega)
  have hneg := fLt_fZero_iff_of_isInt hdiff
  unfold readIndex
  by_cases hwrap : line.index < d
  · rw [if_pos hwrap, if_pos (hneg.2 (by omega))]
    exact isInt_fAdd _ hdiff (isInt_toF hcap) (by omega)
  · rw [if_neg hwrap, if_neg (mt hneg.1 (by omega))]
    exact hdiff

/-- An address moved on by up to the capacity. -/
theorem add_mod_of_le {i d c : Nat} (hi : i < c) (hd : d ≤ c) :
    (i + d) % c = if i + d < c then i + d else i + d - c := by
  split
  · exact Nat.mod_eq_of_lt ‹_›
  · rw [Nat.mod_eq_sub_mod (by omega), Nat.mod_eq_of_lt (by omega)]

/-- Fewer steps than the capacity do not come back to the address they start from. -/
theorem add_mod_ne_self {i j c : Nat} (hi : i < c) (h0 : 0 < j) (hj : j < c) : (i + j) % c ≠ i := by
  rw [add_mod_of_le hi hj.le]
  split <;> omega

/-- With the cursor `d` places beyond the address `i`, the delay `d` has the read index `i`. -/
theorem readIndex_back (q : Draw) {line : DelayLine} {i d : Nat} (hi : i < line.capacity)
    (hcap : line.capacity ≤ 2 ^ 24) (hd : d ≤ line.capacity) (hindex : line.index = (i + d) % line.capacity) :
    isInt (readIndex q line (toF d)) i := by
  have hread := readIndex_isInt q (hindex ▸ Nat.mod_lt _ (by omega)) hcap hd
  rw [add_mod_of_le hi hd] at hindex
  have hvalue : (if line.index < d then (line.index : Int) - d + line.capacity else (line.index : Int) - d) = i := by
    split at hindex <;> split <;> omega
  rwa [hvalue] at hread

/-- The read `d` places behind the cursor interpolates, at `+0`, between the word there and the next one. -/
theorem lineRead_back (q : Draw) {line : DelayLine} {i d : Nat} (hi : i < line.capacity)
    (hcap : line.capacity ≤ 2 ^ 24) (hd : d ≤ line.capacity) (hindex : line.index = (i + d) % line.capacity) :
    lineRead q line (toF d) =
      lerp ((q.sub 2).sub 2) (ramRead line i) (ramRead line ((i + 1) % line.capacity)) fZero := by
  have hfirst : ((i : Int) % (line.capacity : Int)).toNat = i := by
    rw [← Int.natCast_mod, Int.toNat_natCast, Nat.mod_eq_of_lt hi]
  have hsecond : (((i : Int) + 1) % (line.capacity : Int)).toNat = (i + 1) % line.capacity := by
    rw [← Nat.cast_succ, ← Int.natCast_mod, Int.toNat_natCast]
  rw [lineRead, lookup_of_isInt _ _ _ (readIndex_back q hi hcap hd hindex), hfirst, hsecond]

/-! ### The exact round trip (R144) -/

/-- A word survives the writes after it while fewer than the capacity have come: the cursor is not back at it. -/
theorem ramRead_foldl_lineWrite_first {l : DelayLine} (v : F) {ws : List F} (hwf : Memory.wf l.buf = true)
    (hindex : l.index < l.capacity) (hlen : ws.length + 1 ≤ l.capacity) :
    ramRead (ws.foldl lineWrite (lineWrite l v)) l.index = v := by
  rw [ramRead_foldl_lineWrite_other (Nat.mod_lt _ (by omega)), ramRead_lineWrite_same hwf]
  intro j hj
  rw [lineWrite_index, lineWrite_capacity, Nat.mod_add_mod, Nat.add_assoc]
  exact add_mod_ne_self hindex (by omega) (by omega)

/-- Settles O39: the read index is the address of the word, and the other tap is a finite word: an infinity is its own
neighbour only at capacity 1. -/
theorem delayLineRoundTrip : Obligations.DelayLineRoundTrip := by
  intro q l v ws capMax hcapMax hl hfinite hnan hv hws hlen
  obtain ⟨hindex, hcap, hwf, -⟩ := (DelayLine.wf_iff capMax l).1 hl
  have hcursor : (ws.foldl lineWrite (lineWrite l v)).index = (l.index + (ws.length + 1)) % l.capacity := by
    rw [foldl_lineWrite_index ws (Nat.mod_lt _ (by omega)), lineWrite_index, lineWrite_capacity, Nat.mod_add_mod,
      Nat.add_assoc, Nat.add_comm 1]
  have hneighbour : fIsFinite (ramRead (lineWrite l v) ((l.index + 1) % l.capacity)) = true := by
    obtain hvfin | hmany := hv
    · exact finite_ramRead_lineWrite hwf (hfinite _) hvfin
    · rw [ramRead_lineWrite_other l v (add_mod_ne_self hindex Nat.one_pos hmany)]
      exact hfinite _
  have hread := lineRead_back q (line := ws.foldl lineWrite (lineWrite l v)) (i := l.index) (d := ws.length + 1)
    (by simpa using hindex) (by simpa using hcap.trans hcapMax) (by simpa using hlen) (by simpa using hcursor)
  rw [hread, ramRead_foldl_lineWrite_first v hwf hindex hlen, foldl_lineWrite_capacity, lineWrite_capacity]
  exact lerp_fZero_fEq _ hnan (finite_ramRead_foldl_lineWrite (Memory.wf_write hwf _ v) hneighbour hws)

end Sys2Proof.Machine
end

section
/-! The plucked string (spec/45_karplus_strong.md R151 to R155): the range of a voice's registers and what follows from
it for the fill length and the read index, its commands, and the pluck that waits for noise words
(spec/70_reset_and_hazards.md R206). -/

namespace Sys2Proof.Machine

/-! ### The registers of a voice as an invariant (R153) -/

/-- Settles O47: the range of a voice is a property of the units that the reset values have and the local rules keep,
those of `KS.SET` by `POWRANGE`, which the default `fpow` has as every admissible one. -/
theorem stepKeepsVoicesInRange : Obligations.StepKeepsVoicesInRange :=
  fun _ _ hs => ⟨step_voicesInRange hs, fun _ _ _ hpow hstep =>
    stepWith_voicesInRange (mapsDb60ToUnit_of_admissible hpow) hs hstep⟩

/-! ### `KS.CONFIG` (R151) -/

theorem exec_ksConfig (s : State) {k : BitVec 8} (a : F) (c : Word) (h : k.toNat < s.ks.length) :
    exec (.ksConfig k a c) s =
      if !voiceRateAccepted a then s.cfgError .errRate
      else if !capacityAccepted s.capMax c.toNat then s.cfgError .errCap
      else .next ({ s with
        ks := s.ks.set k.toNat ⟨a, fZero, fZero, fZero, fZero, lineClear c.toNat⟩ }.respond fZero .ok) := by
  change execKsConfig k a c s = _
  exact s.onInstance_legal h _

/-- Settles O42: each of the two checks that passes leaves the next, and the stored line is the cleared one. -/
theorem ksConfigFollowsItsRule : Obligations.KsConfigFollowsItsRule := by
  intro s k a c h
  have hinf : fPosInf = 0x7F800000#32 := by decide
  rw [exec_ksConfig s a c h, voiceRateAccepted, capacityAccepted, hinf]
  refine ⟨fun hrate => ?_, fun hpos hfin hrange => ?_,
    fun hpos hfin hmin hmax => ⟨lineClear c.toNat, rfl, rfl, ramRead_lineClear _, ?_⟩⟩
  · rw [hrate]; rfl
  · rw [hpos, hfin, decide_eq_false hrange]; rfl
  · rw [hpos, hfin, decide_eq_true ⟨hmin, hmax⟩]; rfl

/-! ### The fill length (R153, R154) -/

/-- A value that `F` holds and that is at least `n` is at least `toF(n)`. -/
theorem fUnits_toF_le {c : F} (hc : fIsNaN c = false) {n : Nat} (h : n * 2 ^ 149 ≤ fUnits c) :
    fUnits (toF n) ≤ fUnits c := by
  unfold toF fOfInt
  split
  next hn => rw [fUnits_fZero]; rwa [hn, Int.zero_mul] at h
  next => exact fOfUnits_le hc h

/-- A value below `toF(n)` is below `n` itself, also where the conversion rounds. -/
theorem fUnits_lt_of_fLt_toF {x : F} {n : Nat} (h : fLt x (toF n) = true) : fUnits x < n * 2 ^ 149 := by
  by_contra hc
  have hnan := (not_nan_of_fLe (fLe_of_fLt h)).1
  rw [fLt_iff_units hnan (toF_notNaN n)] at h
  exact absurd (fUnits_toF_le hnan (not_lt.1 hc)) (not_le.2 h)

theorem ceilZ_le {x : F} {n : Nat} (h : fUnits x ≤ n * 2 ^ 149) : ceilZ x ≤ n := by
  unfold ceilZ; omega

/-- The order of two finite factors does not matter. -/
theorem fMul_comm_of_finite (q : Draw) {a b : F} (ha : fIsFinite a = true) (hb : fIsFinite b = true) :
    fMul q a b = fMul q b a := by
  rw [fMul_finite q ha hb, fMul_finite q hb ha, bne_comm, Nat.mul_comm]

/-- The product of R154 is that of R153, the factors swapped. -/
theorem Voice.delay_comm {v : Voice} (hv : v.inRange) (q : Draw) :
    fMul q v.delayTime v.sr = fMul q v.sr v.delayTime := by
  obtain ⟨hsr, htime, -⟩ := hv
  exact fMul_comm_of_finite q (zeroOrPositive_iff.1 htime).2 (zeroOrPositive_iff.1 hsr).2

/-- The fill length of a voice in range is no free number. -/
theorem fillLength_eq {v : Voice} (hv : v.inRange) (q : Draw) :
    fillLength q v = (ceilZ (fMul (q.sub 0) v.delayTime v.sr)).toNat := by
  have hcomm := Voice.delay_comm hv (q.sub 0)
  obtain ⟨-, -, hdelay, -⟩ := hv
  have hfin : fIsFinite (fMul (q.sub 0) v.delayTime v.sr) = true := hcomm ▸ (hdelay _).1
  simp only [fillLength, hfin, if_true]

/-- A delay below the capacity takes at most the capacity of words to fill. -/
theorem fillLength_le {v : Voice} (hv : v.inRange) (q : Draw) : fillLength q v ≤ v.line.capacity := by
  rw [fillLength_eq hv, Voice.delay_comm hv]
  obtain ⟨-, -, hdelay, -⟩ := hv
  obtain ⟨-, -, hlt⟩ := hdelay (q.sub 0)
  exact Int.toNat_le.2 (ceilZ_le (fUnits_lt_of_fLt_toF hlt).le)

/-! ### The read index (R142, R155) -/

/-- A sum within `-c` and `c` is finite and stays there: rounding keeps both bounds. -/
theorem fAdd_bounded (q : Draw) {a b c : F} (ha : fIsFinite a = true) (hb : fIsFinite b = true)
    (hc : fIsFinite c = true) (hlow : -fUnits c ≤ fUnits a + fUnits b) (hhigh : fUnits a + fUnits b ≤ fUnits c) :
    fIsFinite (fAdd q a b) = true ∧ -fUnits c ≤ fUnits (fAdd q a b) ∧ fUnits (fAdd q a b) ≤ fUnits c := by
  have hcnan := not_nan_of_finite hc
  have hbelow : fUnits (fAdd q a b) ≤ fUnits c := (fUnits_fAdd q ha hb).trans_le (fOfUnits_le hcnan hhigh)
  have habove : -fUnits c ≤ fUnits (fAdd q a b) := by
    rw [fUnits_fAdd q ha hb, ← fUnits_neg]
    exact le_fOfUnits (by rwa [fIsNaN_neg]) (by rwa [fUnits_neg])
  have hmag : magUnits (fMag (fAdd q a b)) ≤ magUnits (fMag c) := by
    rw [← fUnits_natAbs, ← fUnits_natAbs]; omega
  refine ⟨?_, habove, hbelow⟩
  rw [fIsFinite_iff] at hc ⊢
  exact (magUnits_le_iff.1 hmag).trans_lt hc

/-- A delay in `[+0, capacity)` gives a finite read index, within the capacity on either side of 0. -/
theorem finite_readIndex (q : Draw) {line : DelayLine} {d : F} (hindex : line.index < line.capacity)
    (hcap : line.capacity ≤ 2 ^ 24) (h0 : fLe fZero d = true) (hlt : fLt d (toF line.capacity) = true) :
    fIsFinite (readIndex q line d) = true := by
  obtain ⟨hcursor, hcursorUnits⟩ := isInt_toF (n := line.index) (by omega)
  obtain ⟨hlimit, hlimitUnits⟩ := isInt_toF hcap
  have hd := finite_of_fLt h0 hlt
  have hdlt := fUnits_lt_of_fLt_toF hlt
  rw [fLe_iff_units (by decide) (not_nan_of_finite hd), fUnits_fZero] at h0
  obtain ⟨hfin, hlow, -⟩ := fAdd_bounded (q.sub 0) hcursor (b := fNeg d) (by rwa [fIsFinite_neg]) hlimit
    (by rw [fUnits_neg, hcursorUnits, hlimitUnits]; omega) (by rw [fUnits_neg, hcursorUnits, hlimitUnits]; omega)
  unfold readIndex
  dsimp only
  split
  next hneg =>
    rw [fSub, fLt_iff_units (not_nan_of_finite hfin) (by decide), fUnits_fZero] at hneg
    exact (fAdd_bounded (q.sub 1) hfin hlimit hlimit (by omega) (by omega)).1
  next => exact hfin

/-- Settles O48: the delay of a voice in range is below the capacity, and the cursor of a well-formed line too. -/
theorem stringNeverOverruns : Obligations.StringNeverOverruns := by
  intro q v capMax hcapMax hline hv
  obtain ⟨hindex, hcap, -, -⟩ := (DelayLine.wf_iff capMax v.line).1 hline
  refine ⟨fillLength_le hv q, ?_⟩
  obtain ⟨-, -, hdelay, -⟩ := hv
  obtain ⟨-, h0, hlt⟩ := hdelay q
  exact finite_readIndex q hindex (hcap.trans hcapMax) h0 hlt

/-! ### `KS.PROC` (R155) -/

theorem exec_ksProc (s : State) {k : BitVec 8} (h : k.toNat < s.ks.length) :
    exec (.ksProc k) s = .next ({ s with
      ks := s.ks.set k.toNat { s.ks[k.toNat] with
        x1 := stringRead s.draw s.ks[k.toNat]
        line := lineWrite s.ks[k.toNat].line (stringOutput s.draw s.ks[k.toNat]) } }.respond
          (stringOutput s.draw s.ks[k.toNat]) .ok) := by
  change execKsProc k s = _
  exact s.onInstance_legal h _

/-- Settles O46: the read is `stringRead` and the sample `stringOutput`, written out; the write is that of R141. -/
theorem ksProcFollowsItsRule : Obligations.KsProcFollowsItsRule := by
  rintro s k _ _ h hwf rfl rfl
  exact ⟨_, exec_ksProc s h, rfl, rfl, ramRead_lineWrite_same hwf _, fun _ => ramRead_lineWrite_other _ _⟩

/-! ### The words of a pluck (R154) -/

/-- What a pluck stores: its noise words times the gain, the draw of each numbered from `m` on. -/
def burst (q : Draw) (g : F) (m : Nat) (us : List F) : List F := us.mapIdx fun i u => fMul (q.sub (m + i)) g u

@[simp] theorem length_burst (q : Draw) (g : F) (m : Nat) (us : List F) : (burst q g m us).length = us.length :=
  List.length_mapIdx

theorem getElem_burst (q : Draw) (g : F) (m : Nat) (us : List F) {i : Nat} (h : i < (burst q g m us).length) :
    (burst q g m us)[i] = fMul (q.sub (m + i)) g (us[i]'(length_burst q g m us ▸ h)) :=
  List.getElem_mapIdx

theorem burst_cons (q : Draw) (g : F) (m : Nat) (u : F) (us : List F) :
    burst q g m (u :: us) = fMul (q.sub m) g u :: burst q g (m + 1) us := by
  simp only [burst, List.mapIdx_cons, Nat.add_zero, Nat.add_assoc, Nat.add_comm 1]

/-- Filling a line is a run of writes (R141). -/
theorem lineFill_eq_foldl (q : Draw) (g : F) (m : Nat) (us : List F) (l : DelayLine) :
    lineFill q g m us l = (burst q g m us).foldl lineWrite l := by
  induction us generalizing m l with
  | nil => rfl
  | cons u us ih => rw [lineFill, ih, burst_cons, List.foldl_cons]

/-- A run of no more writes than the capacity leaves its `m`-th word at the `m`-th address from the cursor on. -/
theorem ramRead_foldl_lineWrite_at {ws : List F} {l : DelayLine} {m : Nat} (hwf : Memory.wf l.buf = true)
    (hindex : l.index < l.capacity) (hlen : ws.length ≤ l.capacity) (hm : m < ws.length) :
    ramRead (ws.foldl lineWrite l) ((l.index + m) % l.capacity) = ws[m] := by
  induction ws generalizing l m with
  | nil => exact absurd hm (Nat.not_lt_zero m)
  | cons w ws ih =>
    rw [List.length_cons] at hlen hm
    rw [List.foldl_cons]
    cases m with
    | zero => rw [Nat.add_zero, Nat.mod_eq_of_lt hindex]; exact ramRead_foldl_lineWrite_first w hwf hindex hlen
    | succ m =>
      have hlater := ih (l := lineWrite l w) (m := m) (Memory.wf_write hwf _ w) (Nat.mod_lt _ (by omega))
        (by rw [lineWrite_capacity]; omega) (by omega)
      rw [lineWrite_index, lineWrite_capacity, Nat.mod_add_mod, Nat.add_assoc, Nat.add_comm 1] at hlater
      rw [hlater, List.getElem_cons_succ]

/-! ### `KS.PLUCK` (R154) -/

/-- A pluck with its noise words there. -/
theorem exec_ksPluck (s : State) {k : BitVec 8} (g : F) (h : k.toNat < s.ks.length)
    (hnoise : fillLength (s.draw.sub 0) s.ks[k.toNat] ≤ s.noise.length) :
    exec (.ksPluck k g) s = .next ({ s with
      noise := s.noise.drop (fillLength (s.draw.sub 0) s.ks[k.toNat])
      ks := s.ks.set k.toNat { s.ks[k.toNat] with
        line := lineFill (s.draw.sub 1) g 0 (s.noise.take (fillLength (s.draw.sub 0) s.ks[k.toNat]))
          s.ks[k.toNat].line } }.respond fZero .ok) := by
  change execKsPluck k g s = _
  rw [execKsPluck, s.onInstance_legal h]
  exact if_neg (Nat.not_lt.2 hnoise)

/-- Settles O44: the fill is a run of writes, at most as many as the line has words. -/
theorem pluckStoresItsBurst : Obligations.PluckStoresItsBurst := by
  rintro s k g _ L h hline hv rfl hL hnoise
  obtain ⟨hindex, -, hwf, -⟩ := (DelayLine.wf_iff s.capMax _).1 hline
  have hfill : fillLength (s.draw.sub 0) s.ks[k.toNat] = L := by rw [fillLength_eq hv, ← hL, Int.toNat_natCast]
  have hcap : L ≤ s.ks[k.toNat].line.capacity := hfill ▸ fillLength_le hv _
  have hexec := exec_ksPluck s g h (hfill.trans_le hnoise)
  rw [hfill, lineFill_eq_foldl] at hexec
  have hlen : (burst (s.draw.sub 1) g 0 (s.noise.take L)).length = L := by
    rw [length_burst, List.length_take_of_le hnoise]
  refine ⟨_, hexec, foldl_lineWrite_capacity _ _, ?_, fun m hm hmL => ?_, fun a ha => ?_⟩
  · rw [foldl_lineWrite_index _ hindex, hlen]
  · rw [ramRead_foldl_lineWrite_at hwf hindex (hlen.trans_le hcap) (hlen.symm ▸ hmL), getElem_burst, Nat.zero_add,
      List.getElem_take]
  · exact ramRead_foldl_lineWrite_other hindex fun j hj => (ha j (hlen ▸ hj)).symm

/-! ### A pluck in flight (R154, R206, R207) -/

/-- With a pluck in flight a noise word is requested exactly as long as it lacks one. -/
theorem State.requestsNoise_pluck {s : State} {c : Command} {k : BitVec 8} {g : F} (h : k.toNat < s.ks.length)
    (hflight : s.inflight = some c) (hdecode : decode c = .ok (.ksPluck k g)) :
    s.requestsNoise = decide (s.noise.length < fillLength (s.draw.sub 0) s.ks[k.toNat]) := by
  simp [State.requestsNoise, hflight, hdecode, h]

/-- With a command in flight the host holds every other (U6). -/
theorem State.takes_held_commands {s : State} {c : Command} (hflight : s.inflight = some c) (held : List Command) :
    ∀ e ∈ held.map PortEvent.command, s.takes e = false := by
  intro e he
  obtain ⟨d, -, rfl⟩ := List.mem_map.1 he
  rw [s.takes_command, hflight]; rfl

/-- With only held commands at the ports the command in flight is executed. -/
theorem step_with_held_commands {s : State} {c : Command} {i : Instr} {held : List Command}
    (hflight : s.inflight = some c) (hdecode : decode c = .ok i) (hinputs : s.inputs = held.map .command) :
    step s = exec i s :=
  State.advance_run (State.poll_inflight (hinputs ▸ State.takes_held_commands hflight held) hflight) hdecode exec

/-- A pluck short of noise words takes the next one past the held commands. -/
theorem step_takes_noise {s : State} {c : Command} {k : BitVec 8} {g u : F} {held : List Command}
    {rest : List PortEvent} (h : k.toNat < s.ks.length) (hflight : s.inflight = some c)
    (hdecode : decode c = .ok (.ksPluck k g)) (hshort : s.noise.length < fillLength (s.draw.sub 0) s.ks[k.toNat])
    (hinputs : s.inputs = held.map .command ++ .noise u :: rest) :
    step s = .next { s with inputs := held.map .command ++ rest, noise := s.noise ++ [u] } := by
  have htakes : s.takes (.noise u) = true := by
    rw [s.takes_noise, State.requestsNoise_pluck h hflight hdecode]; exact decide_eq_true hshort
  refine State.advance_settled ?_ exec
  simp only [State.poll, hinputs, firstTaken_append (State.takes_held_commands hflight held) htakes]

/-- A pluck whose missing noise words stand behind the held commands takes them one a step, and then answers. -/
theorem run_pluck_completes {c : Command} {k : BitVec 8} {g : F} {held : List Command}
    (hdecode : decode c = .ok (.ksPluck k g)) (us : List F) {s : State} (h : k.toNat < s.ks.length)
    (hflight : s.inflight = some c)
    (hcount : s.noise.length + us.length = fillLength (s.draw.sub 0) s.ks[k.toNat])
    (hinputs : s.inputs = held.map .command ++ us.map .noise) :
    ∃ t : State, Sys2Proof.core.run (us.length + 1) s = .next t ∧ t.inflight = none ∧
      t.inputs = held.map .command ∧ t.responses = s.responses ++ [⟨fZero, .ok⟩] := by
  induction us generalizing s with
  | nil =>
    rw [List.map_nil, List.append_nil] at hinputs
    have hstep := (step_with_held_commands hflight hdecode hinputs).trans (exec_ksPluck s g h hcount.ge)
    exact ⟨_, core_run_succ Sys2Proof.core 0 hstep, rfl, hinputs, rfl⟩
  | cons u us ih =>
    rw [List.length_cons] at hcount
    rw [List.map_cons] at hinputs
    have hstep := step_takes_noise h hflight hdecode (by omega) hinputs
    obtain ⟨t, hrun, ht⟩ := ih (s := { s with inputs := _, noise := s.noise ++ [u] }) h hflight
      (by rw [List.length_append, List.length_singleton, Nat.add_assoc, Nat.add_comm 1]; exact hcount) rfl
    exact ⟨t, (core_run_succ Sys2Proof.core _ hstep).trans hrun, ht⟩

/-- Settles O45: the last clause by induction on the missing words. -/
theorem starvedPluckWaits : Obligations.StarvedPluckWaits := by
  intro s c k g held us h hflight hdecode
  refine ⟨fun hshort hinputs => ?_, fun u rest => step_takes_noise h hflight hdecode,
    run_pluck_completes hdecode us h hflight⟩
  rw [step_with_held_commands hflight hdecode hinputs]
  exact (oneResponsePerCommand _ s).1 ⟨k, g, h, rfl, hshort⟩

end Sys2Proof.Machine
end

section
/-! The reverberator (spec/46_fdn.md R166 to R170): its set-up commands and its sample. -/

namespace Sys2Proof.Machine

/-! ### `FDN.PROC` (R170) -/

theorem exec_fdnProc (s : State) {k : BitVec 8} (x : F) (h : k.toNat < s.fdn.length) :
    exec (.fdnProc k x) s = .next ({ s with
      fdn := s.fdn.set k.toNat { s.fdn[k.toNat] with
        line := vecOf _ fun i => lineWrite s.fdn[k.toNat].line[i]
          (fdnFeedback (s.draw.sub 1) s.fdn[k.toNat] (fdnRead (s.draw.sub 0) s.fdn[k.toNat]) x i) } }.respond
        (fdnOutput (s.draw.sub 2) (fdnRead (s.draw.sub 0) s.fdn[k.toNat]) x) .ok) := by
  change execFdnProc k x s = _
  exact s.onInstance_legal h _

/-- Step 1 of R170 is known by its channels. -/
theorem eq_fdnRead {q : Draw} {f : Reverb} {y : Vector F Config.fdnN}
    (h : ∀ i : Fin Config.fdnN, y[i] = lineRead (q.sub i) f.line[i] f.dly[i]) : y = fdnRead q f :=
  Vector.ext fun i hi => by rw [fdnRead, vecOf_getElem]; exact h ⟨i, hi⟩

/-- Settles O53: the outputs are `fdnRead`, the words written are `fdnFeedback`, written out; each line's write is that
of R141. -/
theorem fdnProcFollowsItsRule : Obligations.FdnProcFollowsItsRule := by
  intro s k x h y w hwf hread hfeedback
  obtain rfl := eq_fdnRead hread
  have hwritten (i : Fin Config.fdnN) :
      w[i] = fdnFeedback (s.draw.sub 1) s.fdn[k.toNat] (fdnRead (s.draw.sub 0) s.fdn[k.toNat]) x i := hfeedback i
  refine ⟨_, fun i => ?_, exec_fdnProc s x h⟩
  rw [Fin.getElem_fin, vecOf_getElem, hwritten i]
  exact ⟨rfl, rfl, ramRead_lineWrite_same (hwf i) _, fun _ => ramRead_lineWrite_other _ _⟩

/-! ### `FDN.CONFIG` (R166) -/

theorem delaysBelow_iff {f : Reverb} {c : Nat} :
    delaysBelow f c = true ↔ ∀ i : Fin Config.fdnN, fLt f.dly[i] (toF c) = true :=
  List.all_eq_true.trans ⟨fun h i => h i (List.mem_finRange i), fun h i _ => h i⟩

theorem exec_fdnConfig (s : State) {k : BitVec 8} (c : Word) (h : k.toNat < s.fdn.length) :
    exec (.fdnConfig k c) s =
      if !capacityAccepted s.capMax c.toNat then s.cfgError .errCap
      else if !delaysBelow s.fdn[k.toNat] c.toNat then s.cfgError .errCap
      else .next ({ s with
        fdn := s.fdn.set k.toNat { s.fdn[k.toNat] with
          line := Vector.replicate _ (lineClear c.toNat) } }.respond fZero .ok) := by
  change execFdnConfig k c s = _
  exact s.onInstance_legal h _

/-- Settles O49: the two checks give the same error, and every stored line is the cleared one. -/
theorem fdnConfigFollowsItsRule : Obligations.FdnConfigFollowsItsRule := by
  intro s k c h
  rw [exec_fdnConfig s c h, capacityAccepted]
  refine ⟨fun hrange => ?_, fun ⟨i, hi⟩ => ?_, fun hmin hmax hbelow =>
    ⟨Vector.replicate _ (lineClear c.toNat), fun i => ?_, ?_⟩⟩
  · rw [decide_eq_false hrange]; rfl
  · have hdelays : delaysBelow s.fdn[k.toNat] c.toNat = false :=
      Bool.eq_false_iff.2 fun hbelow => Bool.eq_false_iff.1 hi (delaysBelow_iff.1 hbelow i)
    rw [hdelays]
    exact ite_self _
  · rw [Fin.getElem_fin, Vector.getElem_replicate]
    exact ⟨rfl, rfl, ramRead_lineClear _⟩
  · rw [decide_eq_true ⟨hmin, hmax⟩, delaysBelow_iff.2 hbelow]; rfl

/-! ### `FDN.SETM` (R167) -/

/-- A channel's entry after one entry was set. -/
theorem getElem_set_channel {α : Type} {n i : Nat} (v : Vector α n) (hi : i < n) (a : α) (j : Fin n) :
    (v.set i a hi)[j] = if j.val = i then a else v[j] := by
  rw [Fin.getElem_fin, Vector.getElem_set]
  exact if_congr eq_comm rfl rfl

/-- A matrix entry after one entry was set. -/
theorem getElem_set_entry {α : Type} {n m i j : Nat} (v : Vector (Vector α m) n) (hi : i < n) (hj : j < m) (a : α)
    (i' : Fin n) (j' : Fin m) :
    (v.set i (v[i].set j a hj) hi)[i'][j'] = if i'.val = i ∧ j'.val = j then a else v[i'][j'] := by
  rw [getElem_set_channel]
  by_cases hrow : i'.val = i
  · subst hrow
    rw [if_pos rfl, getElem_set_channel]
    exact if_congr (and_iff_right rfl).symm rfl rfl
  · rw [if_neg hrow, if_neg fun hentry => hrow hentry.1]

theorem exec_fdnSetM (s : State) {k : BitVec 8} (i j : BitVec 8) (a : F) (h : k.toNat < s.fdn.length) :
    exec (.fdnSetM k i j a) s =
      if hij : i.toNat < Config.fdnN ∧ j.toNat < Config.fdnN then
        if !fIsFinite a then s.cfgError .errParam
        else .next ({ s with
          fdn := s.fdn.set k.toNat { s.fdn[k.toNat] with
            M := s.fdn[k.toNat].M.set i.toNat ((s.fdn[k.toNat].M[i.toNat]'hij.1).set j.toNat a hij.2) hij.1 } }.respond
              fZero .ok)
      else s.cfgError .errDim := by
  change execFdnSetM k i j a s = _
  exact s.onInstance_legal h _

/-- Settles O50: the two indices, then the coefficient, then the one entry. -/
theorem fdnSetMFollowsItsRule : Obligations.FdnSetMFollowsItsRule := by
  intro s k i j a h
  rw [exec_fdnSetM s i j a h]
  refine ⟨fun hij => dif_neg hij, fun hi hj hfin => ?_,
    fun hi hj hfin => ⟨_, ?_, getElem_set_entry s.fdn[k.toNat].M hi hj a⟩⟩
  · rw [dif_pos ⟨hi, hj⟩, hfin]; rfl
  · rw [dif_pos ⟨hi, hj⟩, hfin]; rfl

/-! ### `FDN.SETG` (R168) -/

theorem exec_fdnSetG (s : State) {k : BitVec 8} (i : BitVec 8) (a : F) (h : k.toNat < s.fdn.length) :
    exec (.fdnSetG k i a) s =
      if hi : i.toNat < Config.fdnN then
        if !fIsFinite a then s.cfgError .errParam
        else .next ({ s with
          fdn := s.fdn.set k.toNat { s.fdn[k.toNat] with
            g := s.fdn[k.toNat].g.set i.toNat a hi } }.respond fZero .ok)
      else s.cfgError .errDim := by
  change execFdnSetG k i a s = _
  exact s.onInstance_legal h _

/-- Settles O51: the channel, then the gain, then the one entry. -/
theorem fdnSetGFollowsItsRule : Obligations.FdnSetGFollowsItsRule := by
  intro s k i a h
  rw [exec_fdnSetG s i a h]
  refine ⟨fun hi => dif_neg hi.not_gt, fun hi hfin => ?_,
    fun hi hfin => ⟨_, ?_, getElem_set_channel s.fdn[k.toNat].g hi a⟩⟩
  · rw [dif_pos hi, hfin]; rfl
  · rw [dif_pos hi, hfin]; rfl

/-! ### `FDN.SETD` (R169) -/

theorem exec_fdnSetD (s : State) {k : BitVec 8} (i : BitVec 8) (a : F) (h : k.toNat < s.fdn.length) :
    exec (.fdnSetD k i a) s =
      if hi : i.toNat < Config.fdnN then
        if !delayAccepted a s.fdn[k.toNat].line[i.toNat].capacity then s.cfgError .errCap
        else .next ({ s with
          fdn := s.fdn.set k.toNat { s.fdn[k.toNat] with
            dly := s.fdn[k.toNat].dly.set i.toNat a hi } }.respond fZero .ok)
      else s.cfgError .errDim := by
  change execFdnSetD k i a s = _
  exact s.onInstance_legal h _

/-- Settles O52: the channel, then the delay against that channel's capacity, then the one entry. -/
theorem fdnSetDFollowsItsRule : Obligations.FdnSetDFollowsItsRule := by
  intro s k i a h
  rw [exec_fdnSetD s i a h]
  refine ⟨fun hi => dif_neg hi.not_gt, fun hi hrange => ?_,
    fun hi hlow hhigh => ⟨_, ?_, getElem_set_channel s.fdn[k.toNat].dly hi a⟩⟩
  · rw [dif_pos hi, delayAccepted, hrange]; rfl
  · rw [dif_pos hi, delayAccepted, hlow, hhigh]; rfl

end Sys2Proof.Machine
end

section
/-! What becomes of a command (spec/60_exceptions.md R180, R181, R187) and of an idle block (R189;
spec/70_reset_and_hazards.md R208): no per-sample rule refuses, a refused command moves only the port bookkeeping, and
with nothing to take and nothing in flight the block keeps its state. -/

namespace Sys2Proof.Machine

/-! ### Per-sample commands (R180) -/

theorem Reply.done_ne_refuse {U : Type} {x : U} {r : F} {noise : List F} {st : Status} :
    Reply.done x r noise ≠ .refuse st := nofun

/-- The rule of a pluck waits for its noise words or is done (R154). -/
theorem ksPluckRule_ne_refuse {e : Shared} {g : F} {v : Voice} {st : Status} : ksPluckRule e g v ≠ .refuse st := by
  unfold ksPluckRule
  dsimp only
  split
  · nofun
  · exact Reply.done_ne_refuse

/-- Only the rule of a set-up command checks anything. -/
theorem localRule_ne_refuse {exp : Draw → F → F} {pow : F → F → F} {rom : Nat → F} {i : Instr}
    (h : perSample i = true) (e : Shared) (x : (unitOf i).Elem) (st : Status) :
    localRule exp pow rom i e x ≠ .refuse st := by
  cases i with
  | phProc | cyProc | hiProc | deProc | opProc | slProc | dlWrite | dlRead | ksProc | fdnProc =>
    exact Reply.done_ne_refuse
  | ksPluck k g => exact ksPluckRule_ne_refuse
  | phFreq | cyFreq | opFreq | slRate | dlConfig | ksConfig | ksSet | fdnConfig | fdnSetM | fdnSetG | fdnSetD =>
    cases h

/-- A legal per-sample command that has its noise words is done. -/
theorem localRule_done {i : Instr} {s : State} (hsmp : perSample i = true) (hnoise : ¬ awaitsNoise i s)
    {x : (unitOf i).Elem} (hx : ((unitOf i).units s)[i.inst.toNat]? = some x) :
    ∃ x' r noise, localRule fexp fpow romRead i s.shared x = .done x' r noise := by
  cases hreply : localRule fexp fpow romRead i s.shared x with
  | wait => exact absurd hreply (localRule_answers hnoise x hx)
  | refuse st => exact absurd hreply (localRule_ne_refuse hsmp _ _ _)
  | done x' r noise => exact ⟨x', r, noise, rfl⟩

/-- The unit that a legal command addresses. -/
theorem exists_unit_of_wellFormed {i : Instr} {s : State} (h : i.wellFormed s.build = true) :
    ∃ x, ((unitOf i).units s)[i.inst.toNat]? = some x := by
  have hlt : i.inst.toNat < ((unitOf i).units s).length := instances_build i s ▸ of_decide_eq_true h
  exact ⟨_, List.getElem?_eq_getElem hlt⟩

/-- A local rule that is done stores its unit and answers `OK`. -/
theorem perform_done {u : UnitKind} {k : Nat} {rule : Shared → u.Elem → Reply u.Elem} {s : State} {x x' : u.Elem}
    {r : F} {noise : List F} (hx : (u.units s)[k]? = some x) (h : rule s.shared x = .done x' r noise) :
    perform u k rule s = ({ u.set s k x' with noise := noise }).answer r := by
  simp only [perform, hx, h, Reply.result]

/-- Settles O12: the rule of a per-sample command does not refuse, and once its noise words are there does not wait. -/
theorem perSampleCommandsNeverFail : Obligations.PerSampleCommandsNeverFail := by
  intro i s hsmp hlegal hnoise
  obtain ⟨x, hx⟩ := exists_unit_of_wellFormed hlegal
  obtain ⟨x', r, noise, hdone⟩ := localRule_done hsmp hnoise hx
  rw [exec_eq_perform, perform_done hx hdone]
  exact ⟨_, r, rfl, congrArg (· ++ _) (UnitKind.responses_set _ s _ x')⟩

/-! ### Configuration errors (R181, R187) -/

/-- One response after those given says which it is. -/
theorem response_of_append {given : List Response} {r r' : F} {st st' : Status}
    (h : given ++ [⟨r, st⟩] = given ++ [⟨r', st'⟩]) : r = r' ∧ st = st' := by
  simpa using h

/-- Settles O13: of what a local rule can do, waiting gives no response and being done answers `OK`. -/
theorem configErrorChangesNothing : Obligations.ConfigErrorChangesNothing := by
  intro i s t r st hexec hresponse hst
  rw [exec_eq_perform] at hexec
  obtain rfl | ⟨code, rfl⟩ | ⟨x, x', r', noise, -, -, rfl⟩ := perform_cases hexec
  · simp at hresponse
  · obtain ⟨rfl, rfl⟩ := response_of_append hresponse
    exact ⟨rfl, rfl⟩
  · rw [State.respond, UnitKind.responses_set] at hresponse
    exact absurd (response_of_append hresponse).2.symm hst

/-! ### The idle block (R189, R208) -/

/-- With nothing in flight a noise word is held at its port. -/
theorem State.takes_noise_idle {s : State} (hidle : s.inflight = none) (u : F) : s.takes (.noise u) = false := by
  rw [s.takes_noise, State.requestsNoise_idle hidle]

/-- Time passing in an idle block changes nothing. -/
theorem State.pass_idle {s : State} (hidle : s.inflight = none) : s.pass = .settled s := by
  rw [State.pass, hidle]

/-- An idle block that takes nothing keeps its state. -/
theorem State.poll_idle {s : State} (hidle : s.inflight = none) (hheld : ∀ e ∈ s.inputs, s.takes e = false) :
    s.poll = .settled s := by
  simp only [State.poll, firstTaken_eq_none.2 hheld, State.pass_idle hidle]

/-- A `time` entry behind what an idle block holds is all that goes. -/
theorem State.poll_idle_time {s : State} {held tail : List PortEvent} (hidle : s.inflight = none)
    (hinputs : s.inputs = held ++ .time :: tail) (hheld : ∀ e ∈ held, s.takes e = false) :
    s.poll = .settled { s with inputs := held ++ tail } := by
  simp only [State.poll, hinputs, firstTaken_append hheld s.takes_time]
  exact State.pass_idle hidle

/-- Settles O8: an idle block holds noise words, so it takes nothing, or the `time` entry behind them. -/
theorem idleStepKeepsState : Obligations.IdleStepKeepsState := by
  refine ⟨fun s hidle hnoise => ?_, fun s us rest hidle hinputs => ?_⟩
  · have hheld : ∀ e ∈ s.inputs, s.takes e = false := by
      intro e he
      obtain ⟨u, rfl⟩ := hnoise e he
      exact State.takes_noise_idle hidle u
    exact State.advance_settled (State.poll_idle hidle hheld) exec
  · have hheld : ∀ e ∈ us.map PortEvent.noise, s.takes e = false :=
      List.forall_mem_map.2 fun u _ => State.takes_noise_idle hidle u
    exact State.advance_settled (State.poll_idle_time hidle hinputs hheld) exec

end Sys2Proof.Machine
end

section
/-! Reset (spec/70_reset_and_hazards.md R200, R201), and the units that it leaves unconfigured (R202). -/

namespace Sys2Proof.Machine

/-! ### What a reset leaves (R201) -/

/-- After a reset a unit of any type holds the reset value of that type. -/
theorem UnitKind.eq_reset_of_mem_restart (u : UnitKind) {s : State} {x : u.Elem} (h : x ∈ u.units s.restart) :
    x = u.reset s.capMax := by
  rw [units_restart] at h
  exact List.eq_of_mem_replicate h

theorem ramRead_reset (capMax a : Nat) : ramRead (DelayLine.reset capMax) a = fZero := rfl

@[simp] theorem Reverb.reset_M (capMax : Nat) (i j : Fin Config.fdnN) : (Reverb.reset capMax).M[i][j] = fZero := by
  simp [Reverb.reset]

@[simp] theorem Reverb.reset_g (capMax : Nat) (i : Fin Config.fdnN) : (Reverb.reset capMax).g[i] = fOne := by
  simp [Reverb.reset]

@[simp] theorem Reverb.reset_line (capMax : Nat) (i : Fin Config.fdnN) :
    (Reverb.reset capMax).line[i] = DelayLine.reset capMax := by
  simp [Reverb.reset]

/-- The words of the read delays are the counts of samples that R31 gives. -/
theorem fdnDly0_toList : fdnDly0.toList = [toF 1009, toF 1511, toF 2003, toF 2503, toF 3001] := by decide

/-! ### The step that takes `rst` (R200) -/

/-- An `rst` behind what is held is taken, whatever is in flight. -/
theorem State.poll_resets {s : State} {held tail : List PortEvent} (hinputs : s.inputs = held ++ .rst :: tail)
    (hheld : ∀ e ∈ held, s.takes e = false) : s.poll = .settled { s with inputs := held ++ tail }.restart := by
  simp only [State.poll, hinputs, firstTaken_append hheld s.takes_rst]

/-- Settles O9: the step is the restart, after which every unit holds its type's reset value. -/
theorem resetBringsEveryElementToItsValue : Obligations.ResetBringsEveryElementToItsValue := by
  intro s held rest hinputs hheld
  refine ⟨_, State.advance_settled (State.poll_resets hinputs hheld) exec, State.restart_build _,
    fun _ => UnitKind.ph.eq_reset_of_mem_restart, fun _ => UnitKind.cy.eq_reset_of_mem_restart,
    fun _ => UnitKind.hi.eq_reset_of_mem_restart, fun _ => UnitKind.de.eq_reset_of_mem_restart,
    fun _ => UnitKind.op.eq_reset_of_mem_restart, fun _ => UnitKind.sl.eq_reset_of_mem_restart,
    fun l hl => ?_, fun v hv => ?_, fun f hf => ?_, rfl, rfl, rfl, rfl⟩
  · obtain rfl := UnitKind.dl.eq_reset_of_mem_restart hl
    exact ⟨rfl, rfl, ramRead_reset _⟩
  · obtain rfl := UnitKind.ks.eq_reset_of_mem_restart hv
    exact ⟨rfl, rfl, rfl, rfl, rfl, rfl, rfl, ramRead_reset _⟩
  · obtain rfl := UnitKind.fdn.eq_reset_of_mem_restart hf
    refine ⟨Reverb.reset_M _, Reverb.reset_g _, fdnDly0_toList, fun i => ?_⟩
    rw [UnitKind.reset, Reverb.reset_line]
    exact ⟨rfl, rfl, ramRead_reset _⟩

/-! ### Arithmetic of `+0` (R11, R14) -/

theorem fMul_fZero_fZero (q : Draw) : fMul q fZero fZero = fZero := fMul_fZero_right q zeroOrPositive_fZero

/-- `+0` plus a zero of either sign is `+0`. -/
theorem fAdd_fZero_zero (q : Draw) {a : F} (ha : fIsFinite a = true) (h0 : fUnits a = 0) : fAdd q fZero a = fZero := by
  rw [fAdd_finite q (by decide) ha, h0, fUnits_fZero, if_pos (add_zero 0)]
  rfl

theorem fAdd_fZero_fZero (q : Draw) : fAdd q fZero fZero = fZero := fAdd_fZero_zero q (by decide) fUnits_fZero

/-- The interpolation at `+0` from `+0` is `+0`, bit for bit. -/
theorem lerp_fZero_fZero (q : Draw) {b : F} (hb : fIsFinite b = true) : lerp q fZero b fZero = fZero := by
  have hweight : fSub (q.sub 0) fOne fZero = fOne := rfl
  obtain ⟨hfin, hunits⟩ := fMul_fZero (q.sub 2) hb
  rw [lerp, hweight, fMul_fOne _ (by decide), fAdd_fZero_zero _ hfin hunits]

/-! ### Phasor and oscillator at their reset values (R202) -/

/-- A command that stores what its unit holds does nothing but respond. -/
theorem UnitKind.respond_set_held {u : UnitKind} {s : State} {k : Nat} {x : u.Elem} (h : k < (u.units s).length)
    (hx : (u.units s)[k] = x) (r : F) (st : Status) : (u.set s k x).respond r st = s.respond r st := by
  rw [← hx, u.set_getElem s h]

/-- The phase `+0` with the increment `+0` stays. -/
theorem phaseAdvance_reset (q : Draw) : phaseAdvance q Phasor.reset = fZero := by
  have hsum : fAdd (q.sub 0) Phasor.reset.value Phasor.reset.increment = fZero := fAdd_fZero_fZero _
  have hbelow : fGe fZero fOne = false := by decide
  simp only [phaseAdvance, hsum, hbelow, Bool.false_eq_true, if_false]

theorem romRead_zero : romRead 0 = fZero := (romRead_firstQuarter (Nat.zero_le _)).trans sineQuarter_zero

/-- The sine table at the phase `+0` gives its entry 0 (R202). -/
theorem tblPhasor_fZero (q : Draw) : tblPhasor romRead q fZero = fZero := by
  have hposition : fZero = fMul (q.sub 0) fTblLen fZero :=
    (fMul_fZero_right _ (zeroOrPositive_iff.2 (by decide))).symm
  have hfraction : fSub ((q.sub 1).sub 1) fZero (floorF ((q.sub 1).sub 0) fZero) = fZero := by
    have hint : isInt fZero 0 := isInt_fPack_zero false
    rw [floorF_of_isInt _ hint, fSub_self _ hint.1]
  rw [tblPhasor_of_floorZ romRead q hposition (by decide) (n := 0) (by decide) (by decide), hfraction, romRead_zero]
  exact lerp_fZero_fZero _ (finite_of_fMag_le_one (fMag_romRead_le _))

/-! ### A voice at its reset values (R202) -/

/-- An unconfigured voice asks for no noise word: its fill has the length `+0 · +0`. -/
theorem fillLength_reset (q : Draw) (capMax : Nat) : fillLength q (Voice.reset capMax) = 0 := by
  have hproduct : fMul (q.sub 0) (Voice.reset capMax).delayTime (Voice.reset capMax).sr = fZero := fMul_fZero_fZero _
  have hfin : fIsFinite fZero = true := by decide
  have hceil : ceilZ fZero = 0 := by decide
  simp only [fillLength, hproduct, hfin, hceil, if_true, Int.toNat_zero]

/-- An unconfigured voice with its cursor anywhere in its cleared line. -/
def Voice.silentAt (capMax n : Nat) : Voice :=
  { Voice.reset capMax with line := { DelayLine.reset capMax with index := n } }

/-- The voice reads its line at the delay `+0 · +0`, and finds `+0` there as everywhere. -/
theorem stringRead_silentAt (q : Draw) {capMax n : Nat} (hcap : capMax ≤ 2 ^ 24) (hn : n < capMax) :
    stringRead q (Voice.silentAt capMax n) = fZero := by
  have hdelay : fMul (q.sub 0) (Voice.silentAt capMax n).sr (Voice.silentAt capMax n).delayTime = toF 0 :=
    fMul_fZero_fZero _
  rw [stringRead, hdelay, lineRead_back (q.sub 1) hn hcap (Nat.zero_le _) (Nat.mod_eq_of_lt hn).symm]
  exact lerp_fZero_fZero _ (b := fZero) (by decide)

/-- Its sample is the average of two words `+0`, times the gain `+0`. -/
theorem stringOutput_silentAt (q : Draw) {capMax n : Nat} (hcap : capMax ≤ 2 ^ 24) (hn : n < capMax) :
    stringOutput q (Voice.silentAt capMax n) = fZero := by
  have hsum : fAdd (q.sub 2) fZero (Voice.silentAt capMax n).x1 = fZero := fAdd_fZero_fZero _
  have haverage : fMul (q.sub 3) fZero fHalf = fZero := rfl
  rw [stringOutput, stringRead_silentAt q hcap hn, hsum, haverage]
  exact fMul_fZero_fZero _

/-- Its `KS.PROC` stores `+0` in a cleared line, which moves the cursor only. -/
theorem exec_ksProc_silentAt {s : State} {k : BitVec 8} {n : Nat} (h : k.toNat < s.ks.length)
    (hcap : s.capMax ≤ 2 ^ 24) (hn : n < s.capMax) (hv : s.ks[k.toNat] = Voice.silentAt s.capMax n) :
    exec (.ksProc k) s = .next ({ s with
      ks := s.ks.set k.toNat (Voice.silentAt s.capMax ((n + 1) % s.capMax)) }.respond fZero .ok) := by
  rw [exec_ksProc s h, hv, stringOutput_silentAt _ hcap hn, stringRead_silentAt _ hcap hn]
  rfl

/-- Settles O60: phase, table entry, fill length and sample of the reset values are all `+0`. -/
theorem unconfiguredUnitsAreSilent : Obligations.UnconfiguredUnitsAreSilent := by
  intro s hcap
  refine ⟨fun k h hp => ?_, fun k h hp => ?_, fun k g h hv => ?_,
    fun _ h _ hn hv => exec_ksProc_silentAt h hcap hn hv⟩
  · rw [exec_phProc s h, hp, phaseAdvance_reset]
    exact congrArg Host.Outcome.next (UnitKind.respond_set_held (u := .ph) h hp fZero .ok)
  · rw [exec_cyProc s h, hp, phaseAdvance_reset, show Phasor.reset.value = fZero from rfl, tblPhasor_fZero]
    exact congrArg Host.Outcome.next (UnitKind.respond_set_held (u := .cy) h hp fZero .ok)
  · have hfill : fillLength (s.draw.sub 0) s.ks[k.toNat] = 0 := hv ▸ fillLength_reset _ _
    rw [exec_ksPluck s g h (hfill.trans_le (Nat.zero_le _)), hfill]
    exact congrArg Host.Outcome.next (UnitKind.respond_set_held (u := .ks) h rfl fZero .ok)

end Sys2Proof.Machine
end
